-- ==== Sys2Proof/Word.lean ====
section
/-! DEFINITION. The word types: a byte, a 32-bit CSR or command word, and a byte sequence (00_scope.md R10). -/

namespace Sys2Proof

/-- One byte of a buffer, an unsigned 8-bit value (00_scope.md R10). -/
abbrev Byte := BitVec 8

/-- One CSR or one command word, 32 bits (10_state.md R33; 30_encoding.md R110). -/
abbrev Word := BitVec 32

/-- A byte sequence `Bytes n`, byte 0 first (00_scope.md R10). -/
abbrev Bytes := List (BitVec 8)

end Sys2Proof
end

