-- ==== Sys2Proof/Syntax.lean ====
section
/-! DEFINITION. The command set FNE-1 as syntax: one constructor per row of spec/opcode_table.json, with the fields of
30_encoding.md R111 and R120 to R125. A field all of whose values are assigned is an inductive type; a field that has a
reserved value (TSRC, MODE) stays the bit field it is, and WellFormed.lean refuses the reserved value. -/

namespace Sys2Proof

/-- Bit-significance order, `ORD` (30_encoding.md R120; 00_scope.md R12). -/
inductive BitOrder where
  /-- MSB-first: bit 0 of a buffer is the most significant bit of byte 0. -/
  | msb
  /-- LSB-first: bit 0 of a buffer is the least significant bit of byte 0. -/
  | lsb
deriving DecidableEq, Repr

/-- Index origin, `ORG` (30_encoding.md R120). -/
inductive Origin where
  /-- 0-based table indices. -/
  | zero
  /-- 1-based table indices. -/
  | one
deriving DecidableEq, Repr

/-- The two ciphers of the engine (42_feistel_engine.md R208); `CFG.CIPHER`, and also the selector `KSEL` of
`KSGEN` (30_encoding.md R121). -/
inductive Cipher where
  /-- The base cipher, 8-byte blocks. -/
  | base
  /-- The compound cipher, 16-byte blocks. -/
  | compound
deriving DecidableEq, Repr

/-- The round function that `RFN` runs, `FSEL` (30_encoding.md R122). -/
inductive RoundFn where
  /-- The base round function (43_base_cipher.md R250). -/
  | base
  /-- The round-function adapter (44_compound_cipher.md R280). -/
  | adapter
deriving DecidableEq, Repr

/-- The seven modes of operation (30_encoding.md R124). -/
inductive Mode where
  | ecb | cbc | pcbc | cfb | ofb | ctr | randomDelta
deriving DecidableEq, Repr

/-- The four padding schemes (30_encoding.md R124). -/
inductive PadScheme where
  | zeros | ansiX923 | pkcs7 | iso10126
deriving DecidableEq, Repr

/-- The eleven commands (30_encoding.md R126). -/
inductive Instr where
  /-- `PERMUTE.<ord>.<org> <tsrc>` (40_bit_permutation.md R160); `TSRC = 7` is reserved. -/
  | permute (ord : BitOrder) (org : Origin) (tsrc : BitVec 3)
  /-- `KSGEN <BASE|COMPOUND>` (42_feistel_engine.md R214). -/
  | ksgen (ksel : Cipher)
  /-- `RFN <BASE|ADAPTER>` (42_feistel_engine.md R215). -/
  | rfn (fsel : RoundFn)
  /-- `KEYINIT` (42_feistel_engine.md R210). -/
  | keyinit
  /-- `ENCB` (42_feistel_engine.md R211). -/
  | encb
  /-- `DECB` (42_feistel_engine.md R212). -/
  | decb
  /-- `CTXSET <mode>, <scheme>` (45_modes.md R320); `MODE = 7` is reserved. -/
  | ctxset (mode : BitVec 3) (scheme : PadScheme)
  /-- `MENC` (45_modes.md R321). -/
  | menc
  /-- `MDEC` (45_modes.md R322). -/
  | mdec
  /-- `PAD <scheme>` (46_padding.md R370). -/
  | pad (scheme : PadScheme)
  /-- `UNPAD <scheme>` (46_padding.md R371). -/
  | unpad (scheme : PadScheme)
deriving DecidableEq, Repr

end Sys2Proof
end

