-- ==== Sys2Proof/Machine/ByteStrings.lean ====
section
/-! DEFINITION. Byte sequences as numbers and as bits (00_scope.md R10 to R13). -/

namespace Sys2Proof.Machine

/-- `be(b)`: the unsigned integer of a byte sequence read big-endian (00_scope.md R11). -/
def be (b : Bytes) : Nat := b.foldl (fun acc x => acc * 256 + x.toNat) 0

/-- `bebytes(v, n)`: the `n` bytes of `v`, most significant first (00_scope.md R11); of a larger `v` the low
`8 n` bits. -/
def bebytes (v n : Nat) : Bytes := (List.range n).map fun i => BitVec.ofNat 8 (v >>> (8 * (n - 1 - i)))

/-- `x ^ y`, bytewise (00_scope.md R10). -/
def xorBytes (x y : Bytes) : Bytes := List.zipWith (· ^^^ ·) x y

/-- `zeros(n)` (00_scope.md R10). -/
def zeroBytes (n : Nat) : Bytes := List.replicate n 0#8

/-- `BitMSB(buf, j)` and `BitLSB(buf, j)` (00_scope.md R12). -/
def bitAt (ord : BitOrder) (buf : Bytes) (j : Nat) : Bool :=
  match ord with
  | .msb => (buf.getD (j / 8) 0#8).getLsbD (7 - j % 8)
  | .lsb => (buf.getD (j / 8) 0#8).getLsbD (j % 8)

/-- The place inside a byte of the bit that comes `i`-th in the order (00_scope.md R12). -/
def bitPlace (ord : BitOrder) (i : Nat) : Nat :=
  match ord with
  | .msb => 7 - i
  | .lsb => i

/-- One byte from at most 8 bits in the order, the missing bits 0 (40_bit_permutation.md R150, R151). -/
def packByte (ord : BitOrder) (bits : List Bool) : Byte :=
  (List.range 8).foldl
    (fun acc i => if bits.getD i false then acc ||| (1#8 <<< bitPlace ord i) else acc) 0#8

/-- The buffer of `ceil(t/8)` bytes whose bits in the order are the list, zero-filled behind it
(40_bit_permutation.md R151). -/
def packBits (ord : BitOrder) (bits : List Bool) : Bytes :=
  (List.range ((bits.length + 7) / 8)).map fun k => packByte ord ((bits.drop (8 * k)).take 8)

end Sys2Proof.Machine
end

