-- ==== Sys2Proof/Config.lean ====
section
/-! DEFINITION. What an implementation fixes (00_scope.md R8): the table ROM's shape and the parameters an instance
is built with, and the values the spec leaves free or OPEN, as constants without a body. -/

namespace Sys2Proof

/-- The table ROM (41_tables_rom.md R180 to R199). A permutation table is its flat list of 1-based
MSB-first positions (R181); `shifts` is the rotation schedule (R188); `sbox` lists the boxes S1 to S8,
each a list of rows, each row a list of 4-bit entries (R189). -/
structure Rom where
  /-- `IP` (R182). -/
  ip : List Nat
  /-- `FP` (R183). -/
  fp : List Nat
  /-- `E` (R184). -/
  e : List Nat
  /-- `P` (R185). -/
  p : List Nat
  /-- `PC1` (R186). -/
  pc1 : List Nat
  /-- `PC2` (R187). -/
  pc2 : List Nat
  /-- `SHIFTS` (R188). -/
  shifts : List Nat
  /-- `S1` to `S8` (R189, R191 to R198). -/
  sbox : List (List (List (BitVec 4)))
deriving DecidableEq, Repr

/-- The implementation parameters of one engine (00_scope.md R8). They are held in `State.par`, no step
writes them, and so a claim about every state covers every legal value (log 8). -/
structure Params where
  /-- `DMEM_SIZE`, 1 to 2^32 bytes (20_memory.md R82). -/
  dmemSize : Nat
  /-- Whether ANSI X.923 is in `FULL_BLOCK_PAD` (46_padding.md R360). The set always contains PKCS7 and
  never Zeros (93_implementation_defined.md U12), so two Booleans hold exactly its legal values. -/
  fullBlockAnsi : Bool
  /-- Whether ISO 10126 is in `FULL_BLOCK_PAD` (46_padding.md R360). -/
  fullBlockIso : Bool
  /-- `ROM` (41_tables_rom.md R180). -/
  rom : Rom
  /-- The model's own: the engine's number on its platform, from 0. No rule reads it and no access shows it
  (60_exceptions.md R432); it only says which free bytes the engine draws (DESIGN CHOICE, logs 5 and 12). -/
  engine : Nat
deriving DecidableEq, Repr

/-- A byte that the spec leaves free, the `n`-th that engine `k` draws, as `Config.freeByte k n`: an ISO 10126 fill
byte (46_padding.md R365; 93 U2) or a byte of the destination of an overlapping `PERMUTE` (70_reset_and_hazards.md R460;
93 U3). No body: nothing can be proved of its value, nor that two engines draw the same bytes (logs 5 and 6). -/
opaque Config.freeByte : Nat → Nat → BitVec 8

/-- `CSR_BASE` of engine `k` (00_scope.md R8; 10_state.md R33), an OPEN platform address. No body (log 12). -/
opaque Config.csrBase : Nat → Nat

/-- `DMEM_BASE` of engine `k` (00_scope.md R8), an OPEN platform address. No body (log 12). -/
opaque Config.dmemBase : Nat → Nat

/-- `SeedOf` of RandomDelta (45_modes.md R326), an OPEN parameter, as a bijection of the 32-bit value that
`be` makes of the IV's first 4 bytes onto Int32. R326 asks for an injective map of `Bytes 4` into Int32; both
have 2^32 elements, so every such map is this one for some bijection (log 7). No body. -/
opaque Config.seedPerm : Equiv.Perm (BitVec 32)

/-- `DeltaGen` of RandomDelta (45_modes.md R325), an OPEN parameter: byte `j` of the delta of block `i` for a
seed, for block size `B`, as `Config.deltaByte B seed i j`. A function, so deterministic. No body (log 7). -/
opaque Config.deltaByte : Nat → BitVec 32 → Nat → Nat → BitVec 8

end Sys2Proof
end

