-- ==== Sys2Proof/Machine/TableRom.lean ====
section
/-! DEFINITION. The default contents of the table ROM: the FIPS 46-3 tables that 41_tables_rom.md prints (R180 to R198),
and what makes any ROM contents structurally valid. -/

namespace Sys2Proof.Machine

/-- `IP` (R182), its printed rows joined. -/
def romIp : List Nat :=
  [58, 50, 42, 34, 26, 18, 10, 2,
   60, 52, 44, 36, 28, 20, 12, 4,
   62, 54, 46, 38, 30, 22, 14, 6,
   64, 56, 48, 40, 32, 24, 16, 8,
   57, 49, 41, 33, 25, 17, 9, 1,
   59, 51, 43, 35, 27, 19, 11, 3,
   61, 53, 45, 37, 29, 21, 13, 5,
   63, 55, 47, 39, 31, 23, 15, 7]

/-- `FP` (R183), its printed rows joined. -/
def romFp : List Nat :=
  [40, 8, 48, 16, 56, 24, 64, 32,
   39, 7, 47, 15, 55, 23, 63, 31,
   38, 6, 46, 14, 54, 22, 62, 30,
   37, 5, 45, 13, 53, 21, 61, 29,
   36, 4, 44, 12, 52, 20, 60, 28,
   35, 3, 43, 11, 51, 19, 59, 27,
   34, 2, 42, 10, 50, 18, 58, 26,
   33, 1, 41, 9, 49, 17, 57, 25]

/-- `E` (R184), its printed rows joined. -/
def romE : List Nat :=
  [32, 1, 2, 3, 4, 5,
   4, 5, 6, 7, 8, 9,
   8, 9, 10, 11, 12, 13,
   12, 13, 14, 15, 16, 17,
   16, 17, 18, 19, 20, 21,
   20, 21, 22, 23, 24, 25,
   24, 25, 26, 27, 28, 29,
   28, 29, 30, 31, 32, 1]

/-- `P` (R185), its printed rows joined. -/
def romP : List Nat :=
  [16, 7, 20, 21,
   29, 12, 28, 17,
   1, 15, 23, 26,
   5, 18, 31, 10,
   2, 8, 24, 14,
   32, 27, 3, 9,
   19, 13, 30, 6,
   22, 11, 4, 25]

/-- `PC1` (R186), its printed rows joined. -/
def romPc1 : List Nat :=
  [57, 49, 41, 33, 25, 17, 9,
   1, 58, 50, 42, 34, 26, 18,
   10, 2, 59, 51, 43, 35, 27,
   19, 11, 3, 60, 52, 44, 36,
   63, 55, 47, 39, 31, 23, 15,
   7, 62, 54, 46, 38, 30, 22,
   14, 6, 61, 53, 45, 37, 29,
   21, 13, 5, 28, 20, 12, 4]

/-- `PC2` (R187), its printed rows joined. -/
def romPc2 : List Nat :=
  [14, 17, 11, 24, 1, 5,
   3, 28, 15, 6, 21, 10,
   23, 19, 12, 4, 26, 8,
   16, 7, 27, 20, 13, 2,
   41, 52, 31, 37, 47, 55,
   30, 40, 51, 45, 33, 48,
   44, 49, 39, 56, 34, 53,
   46, 42, 50, 36, 29, 32]

/-- `SHIFTS` (R188), round 0 first. -/
def romShifts : List Nat :=
  [1, 1, 2, 2, 2, 2, 2, 2, 1, 2, 2, 2, 2, 2, 2, 1]

/-- `S1` (R191), rows 0 to 3. -/
def romS1 : List (List (BitVec 4)) :=
  [[14, 4, 13, 1, 2, 15, 11, 8, 3, 10, 6, 12, 5, 9, 0, 7],
   [0, 15, 7, 4, 14, 2, 13, 1, 10, 6, 12, 11, 9, 5, 3, 8],
   [4, 1, 14, 8, 13, 6, 2, 11, 15, 12, 9, 7, 3, 10, 5, 0],
   [15, 12, 8, 2, 4, 9, 1, 7, 5, 11, 3, 14, 10, 0, 6, 13]]

/-- `S2` (R192), rows 0 to 3. -/
def romS2 : List (List (BitVec 4)) :=
  [[15, 1, 8, 14, 6, 11, 3, 4, 9, 7, 2, 13, 12, 0, 5, 10],
   [3, 13, 4, 7, 15, 2, 8, 14, 12, 0, 1, 10, 6, 9, 11, 5],
   [0, 14, 7, 11, 10, 4, 13, 1, 5, 8, 12, 6, 9, 3, 2, 15],
   [13, 8, 10, 1, 3, 15, 4, 2, 11, 6, 7, 12, 0, 5, 14, 9]]

/-- `S3` (R193), rows 0 to 3. -/
def romS3 : List (List (BitVec 4)) :=
  [[10, 0, 9, 14, 6, 3, 15, 5, 1, 13, 12, 7, 11, 4, 2, 8],
   [13, 7, 0, 9, 3, 4, 6, 10, 2, 8, 5, 14, 12, 11, 15, 1],
   [13, 6, 4, 9, 8, 15, 3, 0, 11, 1, 2, 12, 5, 10, 14, 7],
   [1, 10, 13, 0, 6, 9, 8, 7, 4, 15, 14, 3, 11, 5, 2, 12]]

/-- `S4` (R194), rows 0 to 3. -/
def romS4 : List (List (BitVec 4)) :=
  [[7, 13, 14, 3, 0, 6, 9, 10, 1, 2, 8, 5, 11, 12, 4, 15],
   [13, 8, 11, 5, 6, 15, 0, 3, 4, 7, 2, 12, 1, 10, 14, 9],
   [10, 6, 9, 0, 12, 11, 7, 13, 15, 1, 3, 14, 5, 2, 8, 4],
   [3, 15, 0, 6, 10, 1, 13, 8, 9, 4, 5, 11, 12, 7, 2, 14]]

/-- `S5` (R195), rows 0 to 3. -/
def romS5 : List (List (BitVec 4)) :=
  [[2, 12, 4, 1, 7, 10, 11, 6, 8, 5, 3, 15, 13, 0, 14, 9],
   [14, 11, 2, 12, 4, 7, 13, 1, 5, 0, 15, 10, 3, 9, 8, 6],
   [4, 2, 1, 11, 10, 13, 7, 8, 15, 9, 12, 5, 6, 3, 0, 14],
   [11, 8, 12, 7, 1, 14, 2, 13, 6, 15, 0, 9, 10, 4, 5, 3]]

/-- `S6` (R196), rows 0 to 3. -/
def romS6 : List (List (BitVec 4)) :=
  [[12, 1, 10, 15, 9, 2, 6, 8, 0, 13, 3, 4, 14, 7, 5, 11],
   [10, 15, 4, 2, 7, 12, 9, 5, 6, 1, 13, 14, 0, 11, 3, 8],
   [9, 14, 15, 5, 2, 8, 12, 3, 7, 0, 4, 10, 1, 13, 11, 6],
   [4, 3, 2, 12, 9, 5, 15, 10, 11, 14, 1, 7, 6, 0, 8, 13]]

/-- `S7` (R197), rows 0 to 3. -/
def romS7 : List (List (BitVec 4)) :=
  [[4, 11, 2, 14, 15, 0, 8, 13, 3, 12, 9, 7, 5, 10, 6, 1],
   [13, 0, 11, 7, 4, 9, 1, 10, 14, 3, 5, 12, 2, 15, 8, 6],
   [1, 4, 11, 13, 12, 3, 7, 14, 10, 15, 6, 8, 0, 5, 9, 2],
   [6, 11, 13, 8, 1, 4, 10, 7, 9, 5, 0, 15, 14, 2, 3, 12]]

/-- `S8` (R198), rows 0 to 3. -/
def romS8 : List (List (BitVec 4)) :=
  [[13, 2, 8, 4, 6, 15, 11, 1, 10, 9, 3, 14, 5, 0, 12, 7],
   [1, 15, 13, 8, 10, 3, 7, 4, 12, 5, 6, 11, 0, 14, 9, 2],
   [7, 11, 4, 1, 9, 12, 14, 2, 0, 6, 10, 13, 15, 3, 5, 8],
   [2, 1, 14, 7, 4, 10, 8, 13, 15, 12, 9, 0, 3, 5, 6, 11]]

/-- The default `ROM` (R180). -/
def romDefault : Rom where
  ip := romIp
  fp := romFp
  e := romE
  p := romP
  pc1 := romPc1
  pc2 := romPc2
  shifts := romShifts
  sbox := [romS1, romS2, romS3, romS4, romS5, romS6, romS7, romS8]

/-- `RomSbox(j, row, col)` (R189): the entry of box `S(j+1)`. A missing entry of a ROM of another shape reads 0
(log 16). -/
def romSbox (rom : Rom) (j row col : Nat) : BitVec 4 :=
  ((rom.sbox.getD j []).getD row []).getD col 0

/-- Every entry of a permutation table is a position 1 to `bits`. -/
def tableInRange (bits : Nat) (table : List Nat) : Bool := table.all fun v => decide (1 ≤ v ∧ v ≤ bits)

/-- Structurally valid ROM contents (93_implementation_defined.md U9): the table lengths of 40_bit_permutation.md
R162, every entry a position of the buffer the table is applied to, sixteen rotation amounts (41_tables_rom.md R188), and
eight boxes of 4 rows of 16 entries (R189). DESIGN CHOICE (log 18): a rotation amount may be any of 0 to 28; the spec
defines the rotation for 1 and 2 only (43_base_cipher.md R246) and U9 states no bound for `SHIFTS`. -/
def romValid (rom : Rom) : Bool :=
  rom.ip.length == 64 && rom.fp.length == 64 && rom.e.length == 48 && rom.p.length == 32 &&
  rom.pc1.length == 56 && rom.pc2.length == 48 &&
  tableInRange 64 rom.ip && tableInRange 64 rom.fp && tableInRange 32 rom.e && tableInRange 32 rom.p &&
  tableInRange 64 rom.pc1 && tableInRange 56 rom.pc2 &&
  rom.shifts.length == 16 && rom.shifts.all (fun n => decide (n ≤ 28)) &&
  rom.sbox.length == 8 && rom.sbox.all (fun b => b.length == 4 && b.all fun r => r.length == 16)

/-- The parameters of an instance with every default (00_scope.md R8): 65536 bytes of DMEM, only PKCS7 in `FULL_BLOCK_PAD`, the default ROM, and number 0, as the one engine of the default platform has. -/
def paramsDefault : Params where
  dmemSize := 65536
  fullBlockAnsi := false
  fullBlockIso := false
  rom := romDefault
  engine := 0

/-- Legal parameters: `DMEM_SIZE` from 1 to 2^32 (20_memory.md R82) and a structurally valid ROM. -/
def paramsValid (p : Params) : Bool :=
  decide (1 ≤ p.dmemSize) && decide (p.dmemSize ≤ 2 ^ 32) && romValid p.rom

/-- Whether a scheme is in `FULL_BLOCK_PAD` (46_padding.md R360; 93_implementation_defined.md U12: PKCS7 always,
Zeros never). -/
def fullBlockPad (p : Params) : PadScheme → Bool
  | .zeros => false
  | .ansiX923 => p.fullBlockAnsi
  | .pkcs7 => true
  | .iso10126 => p.fullBlockIso

end Sys2Proof.Machine
end

