-- ==== Sys2Proof/Machine/State.lean ====
section
/-! DEFINITION. The machine state: every piece of state 10_state.md and 20_memory.md give the engine, as plain data, the
host accesses that wait to be served, the state after reset, and the reasons a step can stop. -/

namespace Sys2Proof.Machine

/-- The error classes of 60_exceptions.md R400, codes 1 to 6. Codes 7 to 15 are never produced (93 U11), so they
have no constructor; code 0, OK, is the absence of an error. -/
inductive ErrClass where
  /-- Code 1 (R401). -/
  | invalidArgument
  /-- Code 2 (R402). -/
  | notInitialized
  /-- Code 3 (R403), unreachable with a structurally valid ROM. -/
  | keyScheduleMismatch
  /-- Code 4 (R404). -/
  | paddingValidation
  /-- Code 5 (R405). -/
  | illegalCommand
  /-- Code 6 (R406). -/
  | addressRange
deriving DecidableEq, Repr

/-- Buffer memory: the bytes that differ from what an unlisted address reads as, addresses strictly rising
(the canonical form is `Memory.wf` in Ops.lean). -/
abbrev Memory := List Host.Cell

/-- What unspecified storage comes up as when the platform asserts reset (10_state.md R57; 20_memory.md R84;
93_implementation_defined.md U4, U5): any contents of DMEM (a later cell of the list wins, cells outside DMEM are
ignored, bytes not listed come up as the byte an unlisted address reads as), any round keys and any mode context. -/
structure ResetDraw where
  /-- DMEM contents. -/
  cells : List Host.Cell
  /-- `RK`. -/
  rk : List Bytes
  /-- `ctx.MODE`. -/
  ctxMode : Mode
  /-- `ctx.PAD`. -/
  ctxPad : PadScheme
  /-- `ctx.IV`. -/
  ctxIv : Bytes
deriving DecidableEq, Repr

/-- One access of the host, or the platform's reset (00_scope.md R19; 10_state.md R34; 20_memory.md R89;
70_reset_and_hazards.md R450). -/
inductive HostOp where
  /-- A read of `size` bytes at CSR offset `off`. -/
  | csrRead (off size : Nat)
  /-- A write of `size` bytes at CSR offset `off`. -/
  | csrWrite (off size : Nat) (v : Word)
  /-- A read of `width` bytes of DMEM at `addr`. -/
  | dmemRead (addr width : Nat)
  /-- A write of the `width` low bytes of `v`, big-endian, to DMEM at `addr`. -/
  | dmemWrite (addr width v : Nat)
  /-- The platform asserts reset, and unspecified storage comes up as the draw says. -/
  | reset (draw : ResetDraw)
deriving DecidableEq, Repr

/-- What a read of the host returned. -/
inductive HostReply where
  /-- The value read at a CSR offset. -/
  | csr (off : Nat) (v : Word)
  /-- The value read from `width` bytes of DMEM at `addr`, big-endian (20_memory.md R89). -/
  | dmem (addr width v : Nat)
deriving DecidableEq, Repr

/-- The state of one engine (10_state.md), its DMEM (20_memory.md), and the accesses its host has issued. -/
structure State where
  /-- The implementation parameters, the ROM among them; no step writes them (00_scope.md R8; 41 R199; log 8). -/
  par : Params
  /-- `CMD`: the last word written (10_state.md R35). -/
  cmd : Word
  /-- `STATUS.BUSY` (10_state.md R39). -/
  busy : Bool
  /-- `STATUS.INIT` (10_state.md R40). -/
  init : Bool
  /-- `STATUS.CTXV` (10_state.md R41). -/
  ctxv : Bool
  /-- `STATUS.ERRCODE` (10_state.md R42): none is 0, OK. -/
  errcode : Option ErrClass
  /-- `CFG.CIPHER` (10_state.md R36), always a legal value. -/
  cipher : Cipher
  /-- `KEYLEN` (10_state.md R44). -/
  keyLen : BitVec 6
  /-- `IVLEN` (10_state.md R45). -/
  ivLen : BitVec 5
  /-- `SRC_ADDR` (10_state.md R46). -/
  srcAddr : Word
  /-- `SRC_LEN` (10_state.md R46). -/
  srcLen : Word
  /-- `DST_ADDR` (10_state.md R46). -/
  dstAddr : Word
  /-- `DST_CAP` (10_state.md R46). -/
  dstCap : Word
  /-- `TBL_ADDR` (10_state.md R46). -/
  tblAddr : Word
  /-- `TBL_LEN` (10_state.md R46). -/
  tblLen : Word
  /-- `OUT_LEN` (10_state.md R47). -/
  outLen : Word
  /-- `KEY0` to `KEY7` (10_state.md R48). -/
  key : Vector Word 8
  /-- `IV0` to `IV3` (10_state.md R49). -/
  iv : Vector Word 4
  /-- `RK[0..15]` (10_state.md R50): entry `i` is round key `i`, 6 or 8 bytes. -/
  rk : List Bytes
  /-- `ctx.MODE` (10_state.md R52). -/
  ctxMode : Mode
  /-- `ctx.PAD` (10_state.md R52). -/
  ctxPad : PadScheme
  /-- `ctx.IV` (10_state.md R52). -/
  ctxIv : Bytes
  /-- DMEM (20_memory.md R81). -/
  dmem : Memory
  /-- The model's own: the host's accesses not yet served, oldest first (20_memory.md R95, R96; log 1). -/
  hostq : List HostOp
  /-- The model's own: what the host's reads returned, oldest first (log 15). -/
  replies : List HostReply
  /-- The model's own: how many free bytes have been drawn (`Config.freeByte`; log 5). -/
  draws : Nat
deriving DecidableEq, Repr

/-- The reasons the machine stops. -/
inductive Fault where
  /-- A host access to DMEM bytes outside `0 .. DMEM_SIZE-1`, which the spec says do not exist (20_memory.md R81).
  Raised by the host port only, never by a command. SAFE: the spec gives such an access no effect (log 10). -/
  | hostAddressOutsideDmem
deriving DecidableEq, Repr

/-- The reasons a step has no meaning. -/
inductive Refusal where
  /-- An instruction without a meaning yet, by its mnemonic; no arm of `exec` answers so. SAFE. -/
  | notModelled (mnemonic : String)
  /-- A host CSR access that is not a 32-bit access at a 4-byte-aligned offset within the window: a host-protocol
  violation whose effect is unspecified, and a model refuses it (10_state.md R34; 93_implementation_defined.md U6).
  Raised by the host port only, never by a command. SAFE (log 9). -/
  | csrProtocol
deriving DecidableEq, Repr

/-- The machine right after reset (10_state.md R57): every CSR 0, `INIT`, `CTXV`, `ERRCODE` and `CIPHER` 0. `RK`, the
context and DMEM are unspecified there: the values here are the model's, logs 2 and 3 (`HostOp.reset` draws any). -/
def State.reset : State where
  par := paramsDefault
  cmd := 0#32
  busy := false
  init := false
  ctxv := false
  errcode := none
  cipher := .base
  keyLen := 0#6
  ivLen := 0#5
  srcAddr := 0#32
  srcLen := 0#32
  dstAddr := 0#32
  dstCap := 0#32
  tblAddr := 0#32
  tblLen := 0#32
  outLen := 0#32
  key := #v[0#32, 0#32, 0#32, 0#32, 0#32, 0#32, 0#32, 0#32]
  iv := #v[0#32, 0#32, 0#32, 0#32]
  rk := List.replicate 16 (List.replicate 8 0#8)
  ctxMode := .ecb
  ctxPad := .zeros
  ctxIv := List.replicate 8 0#8
  dmem := []
  hostq := []
  replies := []
  draws := 0

end Sys2Proof.Machine
end

