-- ==== Sys2Proof/Machine/BitPermutation.lean ====
section
/-! DEFINITION. The bit-permutation unit (40_bit_permutation.md R150 to R156). -/

namespace Sys2Proof.Machine

/-- The bits a table selects from a buffer, in table order (R150). -/
def selectBits (src : Bytes) (table : List Nat) (ord : BitOrder) (org : Nat) : List Bool :=
  table.map fun v => bitAt ord src (v - org)

/-- The output of the unit for a table whose entries are in range (R150, R151). -/
def permuteBits (src : Bytes) (table : List Nat) (ord : BitOrder) (org : Nat) : Bytes :=
  packBits ord (selectBits src table ord org)

/-- Every entry satisfies `org <= entry < org + 8 * len(src)` (R153). -/
def tableFits (src : Bytes) (table : List Nat) (org : Nat) : Bool :=
  table.all fun v => decide (org ≤ v ∧ v < org + 8 * src.length)

/-- `BitPermute(src, table, ord, org)` (R150): every entry is validated before any output exists (R153). -/
def bitPermute (src : Bytes) (table : List Nat) (ord : BitOrder) (org : Nat) : Except ErrClass Bytes :=
  if tableFits src table org then .ok (permuteBits src table ord org) else .error .invalidArgument

end Sys2Proof.Machine
end

