-- ==== Sys2Proof/Machine/Feistel.lean ====
section
/-! DEFINITION. The generic Feistel engine (42_feistel_engine.md R200 to R206), over any round function and any list of
round keys; the round count is the number of keys. -/

namespace Sys2Proof.Machine

/-- One encryption round (R202): `F = RF(R, k); L = L ^ F; (L, R) = (R, L)`. -/
def feistelRound (rf : Bytes → Bytes → Bytes) (lr : Bytes × Bytes) (k : Bytes) : Bytes × Bytes :=
  (lr.2, xorBytes lr.1 (rf lr.2 k))

/-- One decryption round (R204): `(L, R) = (R, L); F = RF(R, k); L = L ^ F`. -/
def feistelUnround (rf : Bytes → Bytes → Bytes) (k : Bytes) (lr : Bytes × Bytes) : Bytes × Bytes :=
  (xorBytes lr.2 (rf lr.1 k), lr.1)

/-- The split of a block of `bk` bytes into halves (R201). -/
def splitBlock (bk : Nat) (x : Bytes) : Bytes × Bytes := (x.take (bk / 2), x.drop (bk / 2))

/-- `FeistelEncrypt(x, rk)` (R202): rounds 0 to N-1, the last swap left in place (R203). -/
def feistelEncrypt (rf : Bytes → Bytes → Bytes) (bk : Nat) (rk : List Bytes) (x : Bytes) : Bytes :=
  let lr := rk.foldl (feistelRound rf) (splitBlock bk x)
  lr.1 ++ lr.2

/-- `FeistelDecrypt(y, rk)` (R204): rounds N-1 down to 0. -/
def feistelDecrypt (rf : Bytes → Bytes → Bytes) (bk : Nat) (rk : List Bytes) (y : Bytes) : Bytes :=
  let lr := rk.foldr (feistelUnround rf) (splitBlock bk y)
  lr.1 ++ lr.2

end Sys2Proof.Machine
end

