-- ==== Sys2Proof/Machine/BaseCipher.lean ====
section
/-! DEFINITION. The base cipher: key scheduler, round-function pipeline and block functions (43_base_cipher.md). -/

namespace Sys2Proof.Machine

/-- `BP(x, T)`: MSB-first, 1-based (R240). Inside the cipher every table fits its buffer. -/
def bp (x : Bytes) (table : List Nat) : Bytes := permuteBits x table .msb 1

/-! ### Key scheduler -/

/-- `rotl28(v, n)` (R246). The rule defines it for `n` in {1, 2}, the amounts of the default ROM; for the other amounts that
another ROM may hold the model takes the same formula. DESIGN CHOICE (log 18). -/
def rotl28 (v : BitVec 28) (n : Nat) : BitVec 28 := (v <<< n) ||| (v >>> (28 - n))

/-- The round keys from the halves `C` and `D` on, one for each rotation amount, rotations accumulating (R245). -/
def roundKeysFrom (rom : Rom) : List Nat → BitVec 28 → BitVec 28 → List Bytes
  | [], _, _ => []
  | n :: ns, c, d =>
    bp (bebytes (rotl28 c n ++ rotl28 d n).toNat 7) rom.pc2 :: roundKeysFrom rom ns (rotl28 c n) (rotl28 d n)

/-- `C ‖ D` before the first round: the key through `PC1`, 56 bits (R245). -/
def keyHalves (rom : Rom) (key : Bytes) : BitVec 56 := BitVec.ofNat 56 (be (bp key rom.pc1))

/-- The base key schedule of an 8-byte key (R245): `C` is the first 28 bits, `D` the last 28. -/
def baseRoundKeys (rom : Rom) (key : Bytes) : List Bytes :=
  roundKeysFrom rom rom.shifts ((keyHalves rom key).extractLsb' 28 28) ((keyHalves rom key).extractLsb' 0 28)

/-- `BaseKeySchedule(key)` (R245), with its length check (92_eei_decisions.md D13). -/
def baseKeySchedule (rom : Rom) (key : Bytes) : Except ErrClass (List Bytes) :=
  if key.length ≠ 8 then .error .invalidArgument else .ok (baseRoundKeys rom key)

/-! ### Round function -/

/-- The row of a 6-bit group (R251). -/
def groupRow (g : BitVec 6) : Nat := (BitVec.ofBool (g.getLsbD 5) ++ BitVec.ofBool (g.getLsbD 0)).toNat

/-- The column of a 6-bit group (R251). -/
def groupCol (g : BitVec 6) : Nat := (g.extractLsb' 1 4).toNat

/-- The S-box result of group `j` of the mixed value (R250, R252). -/
def substituteGroup (rom : Rom) (x : BitVec 48) (j : Nat) : BitVec 4 :=
  let g := x.extractLsb' (42 - 6 * j) 6
  romSbox rom j (groupRow g) (groupCol g)

/-- Substitution of the mixed value, group 0 most significant (R250, R252). -/
def substitute (rom : Rom) (x : BitVec 48) : BitVec 32 :=
  (List.range 8).foldl (fun acc j => (acc <<< 4) ||| (substituteGroup rom x j).setWidth 32) 0#32

/-- The mixed value: the expanded half-block XORed with the round key (R250). -/
def mixKey (rom : Rom) (r k : Bytes) : BitVec 48 := BitVec.ofNat 48 (be (bp r rom.e)) ^^^ BitVec.ofNat 48 (be k)

/-- `BaseRound(r, k)` for a 4-byte half-block and a 6-byte round key (R250). -/
def baseRound (rom : Rom) (r k : Bytes) : Bytes :=
  bp (bebytes (substitute rom (mixKey rom r k)).toNat 4) rom.p

/-- `BaseRound` with its size check (R250; 92_eei_decisions.md D47). -/
def baseRoundChecked (rom : Rom) (r k : Bytes) : Except ErrClass Bytes :=
  if r.length ≠ 4 ∨ k.length ≠ 6 then .error .invalidArgument else .ok (baseRound rom r k)

/-! ### Block functions -/

/-- `BaseEncrypt(x, rk)` (R260). -/
def baseEncrypt (rom : Rom) (rk : List Bytes) (x : Bytes) : Bytes :=
  bp (feistelEncrypt (baseRound rom) 8 rk (bp x rom.ip)) rom.fp

/-- `BaseDecrypt(y, rk)` (R261). -/
def baseDecrypt (rom : Rom) (rk : List Bytes) (y : Bytes) : Bytes :=
  bp (feistelDecrypt (baseRound rom) 8 rk (bp y rom.ip)) rom.fp

end Sys2Proof.Machine
end

