-- ==== Sys2Proof/Machine/CompoundCipher.lean ====
section
/-! DEFINITION. The compound cipher: round-function adapter, compound key scheduler and block functions
(44_compound_cipher.md). -/

namespace Sys2Proof.Machine

/-- `Adapter(h, k)` for an 8-byte half-block and an 8-byte segment: one whole base-cipher encryption (R280). -/
def adapter (rom : Rom) (h k : Bytes) : Bytes := baseEncrypt rom (baseRoundKeys rom k) h

/-- `Adapter` with its size check (R280). -/
def adapterChecked (rom : Rom) (h k : Bytes) : Except ErrClass Bytes :=
  if h.length ≠ 8 ∨ k.length ≠ 8 then .error .invalidArgument else .ok (adapter rom h k)

/-- Segment `j` of a master key, `key[8j .. 8j+8)` (R285). -/
def keySegment (key : Bytes) (j : Nat) : Bytes := (key.drop (8 * j)).take 8

/-- `CompKeySchedule(key)` (R285): round key `i` is segment `i mod m`, for `m = n / 8` segments. -/
def compKeySchedule (key : Bytes) : Except ErrClass (List Bytes) :=
  if key.length = 16 ∨ key.length = 24 ∨ key.length = 32 then
    .ok ((List.range 16).map fun i => keySegment key (i % (key.length / 8)))
  else .error .invalidArgument

/-- `CompEncrypt(x, rk)` (R290): no outer permutation. -/
def compEncrypt (rom : Rom) (rk : List Bytes) (x : Bytes) : Bytes := feistelEncrypt (adapter rom) 16 rk x

/-- `CompDecrypt(y, rk)` (R291). -/
def compDecrypt (rom : Rom) (rk : List Bytes) (y : Bytes) : Bytes := feistelDecrypt (adapter rom) 16 rk y

/-! ### The selected cipher (42_feistel_engine.md R208, R209) -/

/-- The key scheduler of a cipher (R208). -/
def keySchedule (rom : Rom) (c : Cipher) (key : Bytes) : Except ErrClass (List Bytes) :=
  match c with
  | .base => baseKeySchedule rom key
  | .compound => compKeySchedule key

/-- The legal key lengths of a cipher in bytes (00_scope.md R8; 42_feistel_engine.md R210). -/
def keyLengthLegal (c : Cipher) (n : Nat) : Bool :=
  match c with
  | .base => n == 8
  | .compound => n == 16 || n == 24 || n == 32

/-- The round-key length of a cipher in bytes (00_scope.md R8; 42_feistel_engine.md R208). -/
def roundKeyLength : Cipher → Nat
  | .base => 6
  | .compound => 8

/-- `CipherEnc(x)` (42_feistel_engine.md R209). -/
def cipherEncrypt (rom : Rom) (c : Cipher) (rk : List Bytes) (x : Bytes) : Bytes :=
  match c with
  | .base => baseEncrypt rom rk x
  | .compound => compEncrypt rom rk x

/-- `CipherDec(x)` (42_feistel_engine.md R209). -/
def cipherDecrypt (rom : Rom) (c : Cipher) (rk : List Bytes) (x : Bytes) : Bytes :=
  match c with
  | .base => baseDecrypt rom rk x
  | .compound => compDecrypt rom rk x

end Sys2Proof.Machine
end

