-- ==== Sys2Proof/WellFormed.lean ====
section
/-! DEFINITION. Which instruction terms are commands: no field holds a reserved value (30_encoding.md R127). -/

namespace Sys2Proof

/-- A well-formed instruction: `PERMUTE` with `TSRC` other than 7, `CTXSET` with `MODE` other than 7, and every
term of the other nine commands (30_encoding.md R120, R124, R127). -/
def WellFormed : Instr → Bool
  | .permute _ _ tsrc => tsrc != 7#3
  | .ctxset mode _ => mode != 7#3
  | .ksgen _ => true
  | .rfn _ => true
  | .keyinit => true
  | .encb => true
  | .decb => true
  | .menc => true
  | .mdec => true
  | .pad _ => true
  | .unpad _ => true

end Sys2Proof
end

