-- ==== Sys2Proof/Decode.lean ====
section
/-! DEFINITION. Command words: field values, the decoder (total on every 32-bit word, rejecting by name), the encoder,
and the assembler text (30_encoding.md R110 to R134). -/

namespace Sys2Proof

/-- Why a word is an illegal command (30_encoding.md R127). All four raise ILLEGAL_COMMAND. -/
inductive Illegal where
  /-- A bit of `RSV`, bits 31 to 16, is 1. -/
  | rsvNonzero
  /-- The opcode is not in the map of R126. -/
  | unknownOpcode
  /-- A reserved bit of `FN` is 1. -/
  | reservedBit
  /-- A field holds a reserved value: `TSRC = 7` or `MODE = 7`. -/
  | reservedValue
deriving DecidableEq, Repr

/-! ### Field values -/

/-- `ORD` (R120): 0 MSB-first, 1 LSB-first. -/
def BitOrder.ofField (b : Bool) : BitOrder := if b then .lsb else .msb

/-- The bit of `ORD` (R120). -/
def BitOrder.field : BitOrder → Bool
  | .msb => false
  | .lsb => true

/-- `ORG` (R120): 0 for 0-based, 1 for 1-based. -/
def Origin.ofField (b : Bool) : Origin := if b then .one else .zero

/-- The bit of `ORG` (R120). -/
def Origin.field : Origin → Bool
  | .zero => false
  | .one => true

/-- `KSEL` (R121): 0 base, 1 compound. -/
def Cipher.ofField (b : Bool) : Cipher := if b then .compound else .base

/-- The bit of `KSEL` (R121), and the value of `CFG.CIPHER` (10_state.md R36). -/
def Cipher.field : Cipher → Bool
  | .base => false
  | .compound => true

/-- `FSEL` (R122): 0 base round function, 1 adapter. -/
def RoundFn.ofField (b : Bool) : RoundFn := if b then .adapter else .base

/-- The bit of `FSEL` (R122). -/
def RoundFn.field : RoundFn → Bool
  | .base => false
  | .adapter => true

/-- `PAD` (R124): 0 Zeros, 1 ANSI X.923, 2 PKCS7, 3 ISO 10126. -/
def PadScheme.ofField (v : BitVec 2) : PadScheme :=
  if v = 0#2 then .zeros else if v = 1#2 then .ansiX923 else if v = 2#2 then .pkcs7 else .iso10126

/-- The value of `PAD` (R124). -/
def PadScheme.field : PadScheme → BitVec 2
  | .zeros => 0#2
  | .ansiX923 => 1#2
  | .pkcs7 => 2#2
  | .iso10126 => 3#2

/-- `MODE` (R124): 0 ECB to 6 RandomDelta; 7 is reserved. -/
def Mode.ofField (v : BitVec 3) : Option Mode :=
  if v = 0#3 then some .ecb
  else if v = 1#3 then some .cbc
  else if v = 2#3 then some .pcbc
  else if v = 3#3 then some .cfb
  else if v = 4#3 then some .ofb
  else if v = 5#3 then some .ctr
  else if v = 6#3 then some .randomDelta
  else none

/-- The value of `MODE` (R124). -/
def Mode.field : Mode → BitVec 3
  | .ecb => 0#3
  | .cbc => 1#3
  | .pcbc => 2#3
  | .cfb => 3#3
  | .ofb => 4#3
  | .ctr => 5#3
  | .randomDelta => 6#3

/-! ### Decoding -/

/-- `OP`, bits 7 to 0 (R110). -/
def opField (w : Word) : BitVec 8 := w.extractLsb' 0 8

/-- `FN`, bits 15 to 8 (R110). -/
def fnField (w : Word) : BitVec 8 := w.extractLsb' 8 8

/-- `RSV`, bits 31 to 16 (R110). -/
def rsvField (w : Word) : BitVec 16 := w.extractLsb' 16 16

/-- The padding scheme in bits 13 to 12 (R124, R125). -/
def padField (w : Word) : PadScheme := .ofField (w.extractLsb' 12 2)

/-- `PERMUTE`'s arm of the decoder (R126). -/
def decodePermute (w : Word) : Except Illegal Instr :=
  if w.getLsbD 15 || w.getLsbD 11 || w.getLsbD 10 then .error .reservedBit
  else if w.extractLsb' 12 3 = 7#3 then .error .reservedValue
  else .ok (.permute (.ofField (w.getLsbD 8)) (.ofField (w.getLsbD 9)) (w.extractLsb' 12 3))

/-- The arm of a command whose `FN` is one selector bit, bit 8 (R126). -/
def decodeSelector (w : Word) (i : Bool → Instr) : Except Illegal Instr :=
  if w.extractLsb' 9 7 ≠ 0#7 then .error .reservedBit else .ok (i (w.getLsbD 8))

/-- The arm of a command whose `FN` is 0 (R123, R126). -/
def decodePlain (w : Word) (i : Instr) : Except Illegal Instr :=
  if fnField w ≠ 0#8 then .error .reservedBit else .ok i

/-- `CTXSET`'s arm of the decoder (R126). -/
def decodeCtxset (w : Word) : Except Illegal Instr :=
  if w.extractLsb' 14 2 ≠ 0#2 || w.getLsbD 11 then .error .reservedBit
  else if w.extractLsb' 8 3 = 7#3 then .error .reservedValue
  else .ok (.ctxset (w.extractLsb' 8 3) (padField w))

/-- The arm of a command whose `FN` is a padding scheme (R125, R126). -/
def decodeScheme (w : Word) (i : PadScheme → Instr) : Except Illegal Instr :=
  if w.extractLsb' 14 2 ≠ 0#2 || w.extractLsb' 8 4 ≠ 0#4 then .error .reservedBit
  else .ok (i (padField w))

/-- `decode` of R126, total on every word: one command, or the reason the word is illegal (R127). -/
def decode (w : Word) : Except Illegal Instr :=
  if rsvField w ≠ 0#16 then .error .rsvNonzero
  else if opField w = 0x01#8 then decodePermute w
  else if opField w = 0x02#8 then decodeSelector w (fun b => .ksgen (.ofField b))
  else if opField w = 0x03#8 then decodeSelector w (fun b => .rfn (.ofField b))
  else if opField w = 0x10#8 then decodePlain w .keyinit
  else if opField w = 0x11#8 then decodePlain w .encb
  else if opField w = 0x12#8 then decodePlain w .decb
  else if opField w = 0x20#8 then decodeCtxset w
  else if opField w = 0x21#8 then decodePlain w .menc
  else if opField w = 0x22#8 then decodePlain w .mdec
  else if opField w = 0x23#8 then decodeScheme w .pad
  else if opField w = 0x24#8 then decodeScheme w .unpad
  else .error .unknownOpcode

/-- The instruction decoded from a table row's bits: bit 0 of `w` is bit 0 of the command word, which is the
whole instruction (R110), and every bit from `nbits` up is 0. A number too large for one word is no command. -/
def decodeTableWord (nbits w : Nat) : Option Instr :=
  if w % 2 ^ nbits < 2 ^ 32 then
    match decode (BitVec.ofNat 32 (w % 2 ^ nbits)) with
    | .ok i => some i
    | .error _ => none
  else none

/-! ### Encoding -/

/-- The opcode of a command (R126). -/
def Instr.opcode : Instr → BitVec 8
  | .permute _ _ _ => 0x01#8
  | .ksgen _ => 0x02#8
  | .rfn _ => 0x03#8
  | .keyinit => 0x10#8
  | .encb => 0x11#8
  | .decb => 0x12#8
  | .ctxset _ _ => 0x20#8
  | .menc => 0x21#8
  | .mdec => 0x22#8
  | .pad _ => 0x23#8
  | .unpad _ => 0x24#8

/-- The function field `FN` of a command, bit 15 of the word first (the rows of R111). -/
def Instr.fn : Instr → BitVec 8
  | .permute ord org tsrc => 0#1 ++ tsrc ++ 0#2 ++ BitVec.ofBool org.field ++ BitVec.ofBool ord.field
  | .ksgen ksel => 0#7 ++ BitVec.ofBool ksel.field
  | .rfn fsel => 0#7 ++ BitVec.ofBool fsel.field
  | .keyinit => 0#8
  | .encb => 0#8
  | .decb => 0#8
  | .ctxset mode scheme => 0#2 ++ scheme.field ++ 0#1 ++ mode
  | .menc => 0#8
  | .mdec => 0#8
  | .pad scheme => 0#2 ++ scheme.field ++ 0#4
  | .unpad scheme => 0#2 ++ scheme.field ++ 0#4

/-- The command word of an instruction: `RSV = 0`, `FN`, `OP` (R110, R111). -/
def encode (i : Instr) : Word := 0#16 ++ i.fn ++ i.opcode

/-! ### Assembler text (R132) -/

/-- The text of a padding scheme (R132). -/
def PadScheme.text : PadScheme → String
  | .zeros => "ZEROS"
  | .ansiX923 => "ANSIX923"
  | .pkcs7 => "PKCS7"
  | .iso10126 => "ISO10126"

/-- The text of a `MODE` field (R132); the reserved value has none. -/
def modeText (v : BitVec 3) : String :=
  match Mode.ofField v with
  | some .ecb => "ECB"
  | some .cbc => "CBC"
  | some .pcbc => "PCBC"
  | some .cfb => "CFB"
  | some .ofb => "OFB"
  | some .ctr => "CTR"
  | some .randomDelta => "RD"
  | none => "RESERVED"

/-- The text of a `TSRC` field (R132); the reserved value has none. -/
def tableText (v : BitVec 3) : String :=
  if v = 0#3 then "DMEM"
  else if v = 1#3 then "IP"
  else if v = 2#3 then "FP"
  else if v = 3#3 then "E"
  else if v = 4#3 then "P"
  else if v = 5#3 then "PC1"
  else if v = 6#3 then "PC2"
  else "RESERVED"

/-- The assembler text of a command (R132). -/
def Instr.text : Instr → String
  | .permute ord org tsrc =>
    "PERMUTE." ++ (match ord with | .msb => "MSB" | .lsb => "LSB") ++
      (match org with | .zero => ".O0 " | .one => ".O1 ") ++ tableText tsrc
  | .ksgen .base => "KSGEN BASE"
  | .ksgen .compound => "KSGEN COMPOUND"
  | .rfn .base => "RFN BASE"
  | .rfn .adapter => "RFN ADAPTER"
  | .keyinit => "KEYINIT"
  | .encb => "ENCB"
  | .decb => "DECB"
  | .ctxset mode scheme => "CTXSET " ++ modeText mode ++ ", " ++ scheme.text
  | .menc => "MENC"
  | .mdec => "MDEC"
  | .pad scheme => "PAD " ++ scheme.text
  | .unpad scheme => "UNPAD " ++ scheme.text

/-- Every well-formed command (R126): 28 forms of `PERMUTE`, two of `KSGEN` and `RFN`, 28 of `CTXSET`, four of
`PAD` and `UNPAD`, and one of each other command. -/
def allCommands : List Instr :=
  ([BitOrder.msb, .lsb].flatMap fun ord => [Origin.zero, .one].flatMap fun org =>
    [0#3, 1#3, 2#3, 3#3, 4#3, 5#3, 6#3].map fun t => Instr.permute ord org t) ++
  [.ksgen .base, .ksgen .compound, .rfn .base, .rfn .adapter, .keyinit, .encb, .decb] ++
  ([0#3, 1#3, 2#3, 3#3, 4#3, 5#3, 6#3].flatMap fun m =>
    [PadScheme.zeros, .ansiX923, .pkcs7, .iso10126].map fun p => Instr.ctxset m p) ++
  [.menc, .mdec] ++
  ([PadScheme.zeros, .ansiX923, .pkcs7, .iso10126].map Instr.pad) ++
  ([PadScheme.zeros, .ansiX923, .pkcs7, .iso10126].map Instr.unpad)

/-- The command that a line of assembler text stands for, if it is the text of one (R132). -/
def assemble (line : String) : Option Instr := allCommands.find? fun i => i.text == line

end Sys2Proof
end

