-- ==== Sys2Proof/Machine/Flags.lean ====
section
/-! DEFINITION. The flags: the error codes and the STATUS word (10_state.md R33, R38 to R43, R55; 60_exceptions.md R400). -/

namespace Sys2Proof.Machine

/-- The code of an error class (60_exceptions.md R400). -/
def ErrClass.code : ErrClass → BitVec 4
  | .invalidArgument => 1#4
  | .notInitialized => 2#4
  | .keyScheduleMismatch => 3#4
  | .paddingValidation => 4#4
  | .illegalCommand => 5#4
  | .addressRange => 6#4

/-- `STATUS.ERRCODE` (10_state.md R42). -/
def errcodeField (s : State) : BitVec 4 :=
  match s.errcode with
  | none => 0#4
  | some e => e.code

/-- `STATUS.CTXMODE`: `ctx.MODE` while `CTXV = 1`, else 0 (10_state.md R43). -/
def ctxModeField (s : State) : BitVec 3 := if s.ctxv then s.ctxMode.field else 0#3

/-- `STATUS.CTXPAD`: `ctx.PAD` while `CTXV = 1`, else 0 (10_state.md R43). -/
def ctxPadField (s : State) : BitVec 2 := if s.ctxv then s.ctxPad.field else 0#2

/-- The `STATUS` word, bit 31 first (10_state.md R33): [13:12] CTXPAD, [11] 0, [10:8] CTXMODE, [7:4] ERRCODE, [3] 0,
[2] CTXV, [1] INIT, [0] BUSY. -/
def statusWord (s : State) : Word :=
  0#18 ++ ctxPadField s ++ 0#1 ++ ctxModeField s ++ errcodeField s ++ 0#1 ++ BitVec.ofBool s.ctxv ++
    BitVec.ofBool s.init ++ BitVec.ofBool s.busy

end Sys2Proof.Machine
end

