-- ==== Sys2Proof/Machine/Ops.lean ====
section
/-! DEFINITION. The named operations over memory and registers: DMEM reads and writes, free bytes, raising an error (the
engine's only exception) and committing a result, and the platform's reset. -/

namespace Sys2Proof.Machine

/-! ### DMEM -/

/-- What an unlisted DMEM byte reads as. The spec leaves DMEM unspecified at reset (20_memory.md R84); its own programs
take 00 (95_test_vectors.md section 3). DESIGN CHOICE, unsafe for a claim about a run from `State.reset` (log 2). -/
def unlistedByte : Byte := 0#8

/-- The canonical form of DMEM: addresses strictly rising, and no entry equal to what an unlisted address reads as. -/
abbrev Memory.wf (m : Memory) : Prop :=
  m.Pairwise (fun x y => x.1 < y.1) ∧ ∀ c ∈ m, c.2 ≠ unlistedByte

/-- One DMEM byte. -/
def Memory.read : Memory → Nat → Byte
  | [], _ => unlistedByte
  | (k, v) :: rest, a => if k = a then v else Memory.read rest a

/-- `(a, b)` in front of a memory whose addresses are above `a`, kept canonical. -/
def Memory.put (a : Nat) (b : Byte) (m : Memory) : Memory :=
  if b = unlistedByte then m else (a, b) :: m

/-- Write one DMEM byte, keeping the canonical form. -/
def Memory.write : Memory → Nat → Byte → Memory
  | [], a, b => Memory.put a b []
  | (k, v) :: rest, a, b =>
    if a < k then Memory.put a b ((k, v) :: rest)
    else if a = k then Memory.put a b rest
    else (k, v) :: Memory.write rest a b

/-- `MemRead(addr, n)` (00_scope.md R15). -/
def Memory.readBytes (m : Memory) (a : Nat) : Nat → Bytes
  | 0 => []
  | n + 1 => m.read a :: Memory.readBytes m (a + 1) n

/-- `MemWrite(addr, n, v)` with `n` the length of `v` (00_scope.md R15). -/
def Memory.writeBytes (m : Memory) (a : Nat) : Bytes → Memory
  | [] => m
  | b :: bs => Memory.writeBytes (m.write a b) (a + 1) bs

/-- DMEM of `size` bytes holding the cells of a list, a later cell winning, cells outside it ignored. -/
def Memory.ofCells (size : Nat) (cells : List Host.Cell) : Memory :=
  cells.foldl (fun m c => if c.1 < size then m.write c.1 c.2 else m) []

/-- `InRange(addr, n)`: `addr + n <= DMEM_SIZE` over unbounded integers (00_scope.md R15; 20_memory.md R83). -/
def inRange (s : State) (addr n : Nat) : Bool := decide (addr + n ≤ s.par.dmemSize)

/-! ### Free bytes -/

/-- The next `n` free bytes: nothing constrains their values (46_padding.md R365; 70_reset_and_hazards.md R460).
DESIGN CHOICE (logs 5, 6 and 12): they depend on the engine's number and on how many it has drawn, and on nothing else. So
two engines of a platform, whose numbers differ, draw unrelated bytes, also where their counters agree; and two states
with the same number and counter draw the same bytes. -/
def freeBytes (s : State) (n : Nat) : Bytes := (List.range n).map fun j => Config.freeByte s.par.engine (s.draws + j)

/-! ### How a command ends (60_exceptions.md R410) -/

/-- Raising error class `e`, the engine's only exception: `ERRCODE` and `OUT_LEN` change and nothing else; no control
is transferred and nothing is saved (60_exceptions.md R410, R426). -/
def State.raise (s : State) (e : ErrClass) : State := { s with errcode := some e, outLen := 0#32 }

/-- The commit of a command that writes a DMEM result at `DST_ADDR`: the bytes, `OUT_LEN`, and `ERRCODE` 0, all at once
(20_memory.md R93; 10_state.md R47). `drawn` free bytes were used for the result. -/
def State.commitBytes (s : State) (out : Bytes) (drawn : Nat) : State :=
  { s with
    dmem := s.dmem.writeBytes s.dstAddr.toNat out
    outLen := BitVec.ofNat 32 out.length
    errcode := none
    draws := s.draws + drawn }

/-- The commit of `KEYINIT` (42_feistel_engine.md R210). -/
def State.commitKeys (s : State) (keys : List Bytes) : State :=
  { s with rk := keys, init := true, errcode := none, outLen := 0#32 }

/-- The commit of `CTXSET` (45_modes.md R320): in ECB `ctx.IV` keeps its old value. -/
def State.commitContext (s : State) (mode : Mode) (scheme : PadScheme) (iv : Bytes) : State :=
  { s with
    ctxMode := mode
    ctxPad := scheme
    ctxIv := if mode = .ecb then s.ctxIv else iv
    ctxv := true
    errcode := none
    outLen := 0#32 }

/-- A command that writes a DMEM result ends: it commits its result, or raises. -/
def complete (s : State) (drawn : Nat) (r : Except ErrClass Bytes) : Host.Outcome State Fault Refusal :=
  match r with
  | .ok out => .next (s.commitBytes out drawn)
  | .error e => .next (s.raise e)

/-! ### CMD, CFG, reset -/

/-- A host write to `CMD` stores the word and makes the engine busy (10_state.md R35, R39; 60_exceptions.md R410). -/
def State.beginCommand (s : State) (w : Word) : State := { s with cmd := w, busy := true }

/-- The command has committed or failed (10_state.md R39). -/
def State.endCommand (s : State) : State := { s with busy := false }

/-- A host write that gives `CFG.CIPHER` a legal value: a change clears `INIT` and `CTXV`, the same value has no effect
(10_state.md R37). -/
def State.selectCipher (s : State) (c : Cipher) : State :=
  if s.cipher = c then s else { s with cipher := c, init := false, ctxv := false }

/-- A host write to `CFG` (10_state.md R36): bits [1:0] of 2 or 3 leave the field unchanged. -/
def State.writeCfg (s : State) (v : Word) : State :=
  if v.extractLsb' 0 2 = 0#2 then s.selectCipher .base
  else if v.extractLsb' 0 2 = 1#2 then s.selectCipher .compound
  else s

/-- The platform asserts reset (70_reset_and_hazards.md R450): every CSR to its reset value, and `RK`, the context and
DMEM to whatever the draw says. The parameters are the instance's and stay; the accesses the host has still to issue and
what it has read are not the engine's, and stay (log 4). -/
def State.platformReset (s : State) (d : ResetDraw) : State :=
  { State.reset with
    par := s.par
    rk := d.rk
    ctxMode := d.ctxMode
    ctxPad := d.ctxPad
    ctxIv := d.ctxIv
    dmem := Memory.ofCells s.par.dmemSize d.cells
    hostq := s.hostq
    replies := s.replies
    draws := s.draws }

/-- The next host access is taken from the queue. -/
def State.popHost (s : State) (rest : List HostOp) : State := { s with hostq := rest }

/-- A read of the host returns a value. -/
def State.reply (s : State) (r : HostReply) : State := { s with replies := s.replies ++ [r] }

end Sys2Proof.Machine
end

