-- ==== Sys2Proof/Machine/Operands.lean ====
section
/-! DEFINITION. The operand forms of 30_encoding.md R129: the source buffer, the permutation table, the destination
region, the key and the IV, each read from the CSRs that describe it. -/

namespace Sys2Proof.Machine

/-- `B`, the block size in bytes of a cipher (10_state.md R36). -/
def cipherBlockSize : Cipher → Nat
  | .base => 8
  | .compound => 16

/-- `B` of `CFG.CIPHER` (10_state.md R36). -/
def blockSize (s : State) : Nat := cipherBlockSize s.cipher

/-- `MemRead(SRC_ADDR, SRC_LEN)` (10_state.md R46). -/
def sourceBytes (s : State) : Bytes := s.dmem.readBytes s.srcAddr.toNat s.srcLen.toNat

/-- The source region lies in DMEM (20_memory.md R83). -/
def sourceInRange (s : State) : Bool := inRange s s.srcAddr.toNat s.srcLen.toNat

/-- The destination region, with its whole capacity, lies in DMEM (20_memory.md R83). -/
def destInRange (s : State) : Bool := inRange s s.dstAddr.toNat s.dstCap.toNat

/-- The DMEM table region, two bytes an entry, lies in DMEM (20_memory.md R81, R83). -/
def tableInDmem (s : State) : Bool := inRange s s.tblAddr.toNat (2 * s.tblLen.toNat)

/-- The DMEM table: `TBL_LEN` big-endian 16-bit entries at `TBL_ADDR` (40_bit_permutation.md R152). -/
def dmemTable (s : State) : List Nat :=
  (List.range s.tblLen.toNat).map fun k => be (s.dmem.readBytes (s.tblAddr.toNat + 2 * k) 2)

/-- `RomTable(TSRC)` (30_encoding.md R120; 41_tables_rom.md R181), empty where `TSRC` names no ROM table. -/
def romTable (rom : Rom) (tsrc : BitVec 3) : List Nat :=
  if tsrc = 1#3 then rom.ip
  else if tsrc = 2#3 then rom.fp
  else if tsrc = 3#3 then rom.e
  else if tsrc = 4#3 then rom.p
  else if tsrc = 5#3 then rom.pc1
  else if tsrc = 6#3 then rom.pc2
  else []

/-- The table that `TSRC` selects (40_bit_permutation.md R160). -/
def tableOperand (s : State) (tsrc : BitVec 3) : List Nat :=
  if tsrc = 0#3 then dmemTable s else romTable s.par.rom tsrc

/-- `org` as a number (30_encoding.md R120). -/
def originNat : Origin → Nat
  | .zero => 0
  | .one => 1

/-- The bytes of 32-bit registers, the byte with the lowest index in bits [31:24] (20_memory.md R88). -/
def registerBytes (ws : List Word) : Bytes := ws.flatMap fun w => bebytes w.toNat 4

/-- `KEY[0 .. KEYLEN)` (10_state.md R44, R48). -/
def keyOperand (s : State) : Bytes := (registerBytes s.key.toList).take s.keyLen.toNat

/-- `IV[0 .. B)` (10_state.md R49; 45_modes.md R320). -/
def ivOperand (s : State) : Bytes := (registerBytes s.iv.toList).take (blockSize s)

end Sys2Proof.Machine
end

