-- ==== Sys2Proof/Machine/Engine.lean ====
section
/-! DEFINITION. The Feistel-engine commands: KSGEN, RFN, KEYINIT, ENCB, DECB (42_feistel_engine.md R210 to R217). -/

namespace Sys2Proof.Machine

/-- The output size of `KSGEN`: 96 or 128 bytes (R214). -/
def ksgenSize : Cipher → Nat
  | .base => 96
  | .compound => 128

/-- The result of `KSGEN` (R214), checks in its order: region, key length, capacity. -/
def ksgenResult (ksel : Cipher) (s : State) : Except ErrClass Bytes :=
  if destInRange s = false then .error .addressRange
  else if keyLengthLegal ksel s.keyLen.toNat = false then .error .invalidArgument
  else
    match keySchedule s.par.rom ksel (keyOperand s) with
    | .error e => .error e
    | .ok keys => if s.dstCap.toNat < ksgenSize ksel then .error .invalidArgument else .ok keys.flatten

/-- `KSGEN <BASE|COMPOUND>` (R214): a pure function of `KEY[0 .. KEYLEN)`; independent of `CFG`, `RK` and `INIT`. -/
def execKsgen (ksel : Cipher) (s : State) : Host.Outcome State Fault Refusal := complete s 0 (ksgenResult ksel s)

/-- The half-block size of a round function in bytes (R215). -/
def rfnHalf : RoundFn → Nat
  | .base => 4
  | .adapter => 8

/-- The round-key size of a round function in bytes (R215). -/
def rfnKeyLength : RoundFn → Nat
  | .base => 6
  | .adapter => 8

/-- The round function that `FSEL` selects, with its own size check (R215). -/
def roundFunction (rom : Rom) (fsel : RoundFn) (h k : Bytes) : Except ErrClass Bytes :=
  match fsel with
  | .base => baseRoundChecked rom h k
  | .adapter => adapterChecked rom h k

/-- The result of `RFN` (R215), checks in its order: regions, then sizes. -/
def rfnResult (fsel : RoundFn) (s : State) : Except ErrClass Bytes :=
  if sourceInRange s = false ∨ destInRange s = false then .error .addressRange
  else if s.srcLen.toNat ≠ rfnHalf fsel ∨ s.keyLen.toNat ≠ rfnKeyLength fsel ∨ s.dstCap.toNat < rfnHalf fsel then
    .error .invalidArgument
  else roundFunction s.par.rom fsel (sourceBytes s) (keyOperand s)

/-- `RFN <BASE|ADAPTER>` (R215): a pure function of the source and `KEY[0 .. KEYLEN)`. -/
def execRfn (fsel : RoundFn) (s : State) : Host.Outcome State Fault Refusal := complete s 0 (rfnResult fsel s)

/-- The round keys that `KEYINIT` loads (R210), with the count check of R207. -/
def keyinitResult (s : State) : Except ErrClass (List Bytes) :=
  if keyLengthLegal s.cipher s.keyLen.toNat = false then .error .invalidArgument
  else
    match keySchedule s.par.rom s.cipher (keyOperand s) with
    | .error e => .error e
    | .ok keys => if keys.length ≠ 16 then .error .keyScheduleMismatch else .ok keys

/-- `KEYINIT` (R210): `RK` and `INIT` change only on success (92_eei_decisions.md D50). -/
def execKeyinit (s : State) : Host.Outcome State Fault Refusal :=
  match keyinitResult s with
  | .ok keys => .next (s.commitKeys keys)
  | .error e => .next (s.raise e)

/-- The result of a one-block command over a block function, checks in the order of R211 and R212: regions, lengths,
`INIT`. -/
def blockResult (f : Bytes → Bytes) (s : State) : Except ErrClass Bytes :=
  if sourceInRange s = false ∨ destInRange s = false then .error .addressRange
  else if s.srcLen.toNat ≠ blockSize s ∨ s.dstCap.toNat < blockSize s then .error .invalidArgument
  else if s.init = false then .error .notInitialized
  else .ok (f (sourceBytes s))

/-- `ENCB` (R211). -/
def execEncb (s : State) : Host.Outcome State Fault Refusal :=
  complete s 0 (blockResult (cipherEncrypt s.par.rom s.cipher s.rk) s)

/-- `DECB` (R212). -/
def execDecb (s : State) : Host.Outcome State Fault Refusal :=
  complete s 0 (blockResult (cipherDecrypt s.par.rom s.cipher s.rk) s)

end Sys2Proof.Machine
end

