-- ==== Sys2Proof/Machine/Modes.lean ====
section
/-! DEFINITION. The mode-of-operation disciplines (45_modes.md R311 to R319, R323 to R326), over any block functions `E`
and `D`. Each takes the feedback registers it starts from and the blocks of the buffer. -/

namespace Sys2Proof.Machine

/-- The stream-like modes (R311). -/
def streamMode : Mode → Bool
  | .cfb => true
  | .ofb => true
  | .ctr => true
  | .ecb => false
  | .cbc => false
  | .pcbc => false
  | .randomDelta => false

/-- At most `fuel` blocks of `B` bytes, the last one possibly shorter. -/
def blocksFuel (B : Nat) : Nat → Bytes → List Bytes
  | 0, _ => []
  | fuel + 1, d => if d.isEmpty then [] else d.take B :: blocksFuel B fuel (d.drop B)

/-- The blocks `d_1 .. d_m` of a buffer, `m = ceil(n / B)` (R313). -/
def blocks (B : Nat) (d : Bytes) : List Bytes := blocksFuel B d.length d

/-! ### The modes -/

/-- ECB, either direction (R315). -/
def ecbRun (F : Bytes → Bytes) (bs : List Bytes) : List Bytes := bs.map F

/-- CBC encryption (R316); `reg` is the previous ciphertext block. -/
def cbcEncrypt (E : Bytes → Bytes) : Bytes → List Bytes → List Bytes
  | _, [] => []
  | reg, p :: ps => E (xorBytes p reg) :: cbcEncrypt E (E (xorBytes p reg)) ps

/-- CBC decryption (R316). -/
def cbcDecrypt (D : Bytes → Bytes) : Bytes → List Bytes → List Bytes
  | _, [] => []
  | reg, c :: cs => xorBytes (D c) reg :: cbcDecrypt D c cs

/-- PCBC encryption (R317); `pp` and `pc` are the previous plaintext and ciphertext blocks. -/
def pcbcEncrypt (E : Bytes → Bytes) : Bytes → Bytes → List Bytes → List Bytes
  | _, _, [] => []
  | pp, pc, p :: ps =>
    E (xorBytes (xorBytes p pp) pc) :: pcbcEncrypt E p (E (xorBytes (xorBytes p pp) pc)) ps

/-- PCBC decryption (R317). -/
def pcbcDecrypt (D : Bytes → Bytes) : Bytes → Bytes → List Bytes → List Bytes
  | _, _, [] => []
  | pp, pc, c :: cs =>
    xorBytes (xorBytes (D c) pp) pc :: pcbcDecrypt D (xorBytes (xorBytes (D c) pp) pc) c cs

/-- A block XORed with the first `r` bytes of a keystream block, `r` the block's length (R313). -/
def xorKeystream (x ks : Bytes) : Bytes := xorBytes x (ks.take x.length)

/-- CFB encryption (R318); `reg` is the previous ciphertext block. -/
def cfbEncrypt (E : Bytes → Bytes) : Bytes → List Bytes → List Bytes
  | _, [] => []
  | reg, p :: ps => xorKeystream p (E reg) :: cfbEncrypt E (xorKeystream p (E reg)) ps

/-- CFB decryption (R318). -/
def cfbDecrypt (E : Bytes → Bytes) : Bytes → List Bytes → List Bytes
  | _, [] => []
  | reg, c :: cs => xorKeystream c (E reg) :: cfbDecrypt E c cs

/-- OFB, either direction (R319); `reg` is the previous keystream block. -/
def ofbRun (E : Bytes → Bytes) : Bytes → List Bytes → List Bytes
  | _, [] => []
  | reg, x :: xs => xorKeystream x (E reg) :: ofbRun E (E reg) xs

/-- The CTR increment (R323): the block as one big-endian integer plus 1, modulo `2^(8B)`. -/
def ctrIncrement (B : Nat) (ctr : Bytes) : Bytes := bebytes ((be ctr + 1) % 2 ^ (8 * B)) B

/-- CTR, either direction (R323). -/
def ctrRun (E : Bytes → Bytes) (B : Nat) : Bytes → List Bytes → List Bytes
  | _, [] => []
  | ctr, x :: xs => xorKeystream x (E ctr) :: ctrRun E B (ctrIncrement B ctr) xs

/-- RandomDelta encryption (R324); `i` numbers the next block, from 1. -/
def deltaEncrypt (E : Bytes → Bytes) (delta : Nat → Bytes) : Nat → Bytes → List Bytes → List Bytes
  | _, _, [] => []
  | i, reg, p :: ps =>
    E (xorBytes (xorBytes p reg) (delta i)) ::
      deltaEncrypt E delta (i + 1) (E (xorBytes (xorBytes p reg) (delta i))) ps

/-- RandomDelta decryption (R324). -/
def deltaDecrypt (D : Bytes → Bytes) (delta : Nat → Bytes) : Nat → Bytes → List Bytes → List Bytes
  | _, _, [] => []
  | i, reg, c :: cs => xorBytes (xorBytes (D c) reg) (delta i) :: deltaDecrypt D delta (i + 1) c cs

/-! ### The open parameters of RandomDelta -/

/-- `SeedOf(iv[0..4))` (R326; log 7). -/
def seedOf (iv : Bytes) : BitVec 32 := Config.seedPerm (BitVec.ofNat 32 (be (iv.take 4)))

/-- `DeltaGen(seed, i) : Bytes B` (R325; log 7). -/
def deltaGen (B : Nat) (seed : BitVec 32) (i : Nat) : Bytes := (List.range B).map (Config.deltaByte B seed i)

/-! ### One whole call -/

/-- `ModeEncrypt(mode, p, iv)` (R314): the result has the length of the buffer. The registers start from the IV in every
call (R312). `delta` is the delta sequence of RandomDelta. -/
def modeEncrypt (E : Bytes → Bytes) (delta : Nat → Bytes) (B : Nat) (mode : Mode) (iv p : Bytes) : Bytes :=
  match mode with
  | .ecb => (ecbRun E (blocks B p)).flatten
  | .cbc => (cbcEncrypt E iv (blocks B p)).flatten
  | .pcbc => (pcbcEncrypt E iv iv (blocks B p)).flatten
  | .cfb => (cfbEncrypt E iv (blocks B p)).flatten
  | .ofb => (ofbRun E iv (blocks B p)).flatten
  | .ctr => (ctrRun E B iv (blocks B p)).flatten
  | .randomDelta => (deltaEncrypt E delta 1 iv (blocks B p)).flatten

/-- `ModeDecrypt(mode, c, iv)` (R314). CFB, OFB and CTR use `E` in both directions (R318, R319, R323). -/
def modeDecrypt (E D : Bytes → Bytes) (delta : Nat → Bytes) (B : Nat) (mode : Mode) (iv c : Bytes) : Bytes :=
  match mode with
  | .ecb => (ecbRun D (blocks B c)).flatten
  | .cbc => (cbcDecrypt D iv (blocks B c)).flatten
  | .pcbc => (pcbcDecrypt D iv iv (blocks B c)).flatten
  | .cfb => (cfbDecrypt E iv (blocks B c)).flatten
  | .ofb => (ofbRun E iv (blocks B c)).flatten
  | .ctr => (ctrRun E B iv (blocks B c)).flatten
  | .randomDelta => (deltaDecrypt D delta 1 iv (blocks B c)).flatten

end Sys2Proof.Machine
end

