-- ==== Sys2Proof/Machine/PaddingUnit.lean ====
section
/-! DEFINITION. The padding unit (46_padding.md R360 to R369, R373). `full` says which schemes are in `FULL_BLOCK_PAD`. -/

namespace Sys2Proof.Machine

/-- `PadLen(L, B, s)` (R360). -/
def padLen (full : PadScheme → Bool) (len B : Nat) (scheme : PadScheme) : Nat :=
  if B - len % B = B ∧ full scheme = false then 0 else B - len % B

/-- How many fill bytes `Pad` draws: `n - 1` under ISO 10126, none under the other schemes (R365). -/
def padDraws (full : PadScheme → Bool) (len B : Nat) (scheme : PadScheme) : Nat :=
  match scheme with
  | .iso10126 => padLen full len B scheme - 1
  | .zeros => 0
  | .ansiX923 => 0
  | .pkcs7 => 0

/-- The `n` bytes a scheme appends (R362 to R365); `fill` is what `FillDraw(n-1)` returned. -/
def padTail (scheme : PadScheme) (n : Nat) (fill : Bytes) : Bytes :=
  match scheme with
  | .zeros => zeroBytes n
  | .ansiX923 => zeroBytes (n - 1) ++ [BitVec.ofNat 8 n]
  | .pkcs7 => List.replicate n (BitVec.ofNat 8 n)
  | .iso10126 => fill ++ [BitVec.ofNat 8 n]

/-- `Pad(d, B, s)` (R361). -/
def padBytes (full : PadScheme → Bool) (d : Bytes) (B : Nat) (scheme : PadScheme) (fill : Bytes) : Bytes :=
  if padLen full d.length B scheme = 0 then d else d ++ padTail scheme (padLen full d.length B scheme) fill

/-- Every trailing zero byte removed (R368). -/
def stripZeros (d : Bytes) : Bytes := (d.reverse.dropWhile fun b => b == 0#8).reverse

/-- The pad length that the last byte of a buffer gives (R366). -/
def padLengthByte (d : Bytes) : Nat := (d.getLastD 0#8).toNat

/-- The last `n` bytes of a buffer. -/
def lastBytes (d : Bytes) (n : Nat) : Bytes := d.drop (d.length - n)

/-- The filler check of a scheme on the last `n` bytes (R373). -/
def fillerGood (scheme : PadScheme) (d : Bytes) (n : Nat) : Bool :=
  match scheme with
  | .zeros => true
  | .ansiX923 => (lastBytes d n).take (n - 1) == zeroBytes (n - 1)
  | .pkcs7 => lastBytes d n == List.replicate n (BitVec.ofNat 8 n)
  | .iso10126 => true

/-- `Unpad` for the schemes that carry a length byte (R366, R369, R373). -/
def unpadByLength (d : Bytes) (B : Nat) (scheme : PadScheme) : Except ErrClass Bytes :=
  if padLengthByte d = 0 ∨ d.length < padLengthByte d ∨ B < padLengthByte d then .error .paddingValidation
  else if fillerGood scheme d (padLengthByte d) then .ok (d.take (d.length - padLengthByte d))
  else .error .paddingValidation

/-- `Unpad(d, B, s)` (R366 to R369, R373). -/
def unpadBytes (d : Bytes) (B : Nat) (scheme : PadScheme) : Except ErrClass Bytes :=
  if d.isEmpty then .ok []
  else
    match scheme with
    | .zeros => .ok (stripZeros d)
    | .ansiX923 => unpadByLength d B .ansiX923
    | .pkcs7 => unpadByLength d B .pkcs7
    | .iso10126 => unpadByLength d B .iso10126

end Sys2Proof.Machine
end

