-- ==== Sys2Proof/Machine/ModeControl.lean ====
section
/-! DEFINITION. The mode-controller commands: CTXSET, MENC, MDEC (45_modes.md R320 to R322). -/

namespace Sys2Proof.Machine

/-- `CTXSET <mode>, <scheme>` (R320). A reserved `MODE` is an illegal command (30_encoding.md R127). -/
def execCtxset (mode : BitVec 3) (scheme : PadScheme) (s : State) : Host.Outcome State Fault Refusal :=
  match Mode.ofField mode with
  | none => .next (s.raise .illegalCommand)
  | some m =>
    if m ≠ .ecb ∧ s.ivLen.toNat ≠ blockSize s then .next (s.raise .invalidArgument)
    else .next (s.commitContext m scheme (ivOperand s))

/-- `E` of the mode controller (R310). -/
def modeE (s : State) : Bytes → Bytes := cipherEncrypt s.par.rom s.cipher s.rk

/-- `D` of the mode controller (R310). -/
def modeD (s : State) : Bytes → Bytes := cipherDecrypt s.par.rom s.cipher s.rk

/-- The delta sequence of one call, seeded from `ctx.IV` (R324). -/
def modeDelta (s : State) : Nat → Bytes := deltaGen (blockSize s) (seedOf s.ctxIv)

/-- The pad length of the source under the latched scheme (46_padding.md R360). -/
def mencPadLen (s : State) : Nat := padLen (fullBlockPad s.par) s.srcLen.toNat (blockSize s) s.ctxPad

/-- The output length of `MENC` (R321, R328). -/
def mencLength (s : State) : Nat :=
  if streamMode s.ctxMode then s.srcLen.toNat else s.srcLen.toNat + mencPadLen s

/-- How many fill bytes `MENC` draws (46_padding.md R365): none in a stream-like mode. -/
def mencDraws (s : State) : Nat :=
  if streamMode s.ctxMode then 0 else padDraws (fullBlockPad s.par) s.srcLen.toNat (blockSize s) s.ctxPad

/-- The data `MENC` encrypts: the source, padded in the padded modes (R311, R321). -/
def mencData (s : State) : Bytes :=
  if streamMode s.ctxMode then sourceBytes s
  else padBytes (fullBlockPad s.par) (sourceBytes s) (blockSize s) s.ctxPad (freeBytes s (mencDraws s))

/-- The result of `MENC` (R321), checks in its order: regions, context, capacity, `INIT`. -/
def mencResult (s : State) : Except ErrClass Bytes :=
  if sourceInRange s = false ∨ destInRange s = false then .error .addressRange
  else if s.ctxv = false then .error .notInitialized
  else if s.dstCap.toNat < mencLength s then .error .invalidArgument
  else if s.init = false then .error .notInitialized
  else .ok (modeEncrypt (modeE s) (modeDelta s) (blockSize s) s.ctxMode s.ctxIv (mencData s))

/-- `MENC` (R321). -/
def execMenc (s : State) : Host.Outcome State Fault Refusal := complete s (mencDraws s) (mencResult s)

/-- The data `MDEC` decrypts to, before any padding is removed (R322). -/
def mdecData (s : State) : Bytes :=
  modeDecrypt (modeE s) (modeD s) (modeDelta s) (blockSize s) s.ctxMode s.ctxIv (sourceBytes s)

/-- The result of `MDEC` (R322), checks in its order: regions, context, block multiple, capacity, `INIT`, padding. -/
def mdecResult (s : State) : Except ErrClass Bytes :=
  if sourceInRange s = false ∨ destInRange s = false then .error .addressRange
  else if s.ctxv = false then .error .notInitialized
  else if streamMode s.ctxMode = false ∧ s.srcLen.toNat % blockSize s ≠ 0 then .error .invalidArgument
  else if s.dstCap.toNat < s.srcLen.toNat then .error .invalidArgument
  else if s.init = false then .error .notInitialized
  else if streamMode s.ctxMode then .ok (mdecData s)
  else unpadBytes (mdecData s) (blockSize s) s.ctxPad

/-- `MDEC` (R322). -/
def execMdec (s : State) : Host.Outcome State Fault Refusal := complete s 0 (mdecResult s)

end Sys2Proof.Machine
end

