-- ==== Sys2Proof/Machine/Padding.lean ====
section
/-! DEFINITION. The padding commands: PAD, UNPAD (46_padding.md R370, R371). -/

namespace Sys2Proof.Machine

/-- The pad length of the source under a scheme (R360, R370). -/
def sourcePadLen (scheme : PadScheme) (s : State) : Nat :=
  padLen (fullBlockPad s.par) s.srcLen.toNat (blockSize s) scheme

/-- How many fill bytes `PAD` draws (R365). -/
def sourcePadDraws (scheme : PadScheme) (s : State) : Nat :=
  padDraws (fullBlockPad s.par) s.srcLen.toNat (blockSize s) scheme

/-- The result of `PAD` (R370), checks in its order: regions, capacity. -/
def padResult (scheme : PadScheme) (s : State) : Except ErrClass Bytes :=
  if sourceInRange s = false ∨ destInRange s = false then .error .addressRange
  else if s.dstCap.toNat < s.srcLen.toNat + sourcePadLen scheme s then .error .invalidArgument
  else .ok (padBytes (fullBlockPad s.par) (sourceBytes s) (blockSize s) scheme
    (freeBytes s (sourcePadDraws scheme s)))

/-- `PAD <scheme>` (R370): needs neither `INIT` nor `CTXV`. -/
def execPad (scheme : PadScheme) (s : State) : Host.Outcome State Fault Refusal :=
  complete s (sourcePadDraws scheme s) (padResult scheme s)

/-- The result of `UNPAD` (R371), checks in its order: regions, capacity, padding. -/
def unpadResult (scheme : PadScheme) (s : State) : Except ErrClass Bytes :=
  if sourceInRange s = false ∨ destInRange s = false then .error .addressRange
  else if s.dstCap.toNat < s.srcLen.toNat then .error .invalidArgument
  else unpadBytes (sourceBytes s) (blockSize s) scheme

/-- `UNPAD <scheme>` (R371). -/
def execUnpad (scheme : PadScheme) (s : State) : Host.Outcome State Fault Refusal :=
  complete s 0 (unpadResult scheme s)

end Sys2Proof.Machine
end

