-- ==== Sys2Proof/Machine/Permute.lean ====
section
/-! DEFINITION. The bit-permutation command: PERMUTE (40_bit_permutation.md R160, R161; 70_reset_and_hazards.md R460). -/

namespace Sys2Proof.Machine

/-- The result of `PERMUTE`, with every check in the order of R160: regions (source, table, destination), capacity,
entries. A reserved `TSRC` is an illegal command (30_encoding.md R127). -/
def permuteResult (ord : BitOrder) (org : Origin) (tsrc : BitVec 3) (s : State) : Except ErrClass Bytes :=
  if tsrc = 7#3 then .error .illegalCommand
  else if sourceInRange s = false then .error .addressRange
  else if tsrc = 0#3 ∧ tableInDmem s = false then .error .addressRange
  else if destInRange s = false then .error .addressRange
  else if s.dstCap.toNat < ((tableOperand s tsrc).length + 7) / 8 then .error .invalidArgument
  else bitPermute (sourceBytes s) (tableOperand s tsrc) ord (originNat org)

/-- Two regions share a byte. -/
def regionsOverlap (a m b n : Nat) : Bool := decide (a < b + n ∧ b < a + m ∧ 0 < m ∧ 0 < n)

/-- The hazard of 70_reset_and_hazards.md R460: the `n` destination bytes overlap the source region, or the DMEM table
region of `TSRC = 0`. -/
def permuteHazard (tsrc : BitVec 3) (s : State) (n : Nat) : Bool :=
  regionsOverlap s.dstAddr.toNat n s.srcAddr.toNat s.srcLen.toNat ||
    (tsrc == 0#3 && regionsOverlap s.dstAddr.toNat n s.tblAddr.toNat (2 * s.tblLen.toNat))

/-- `PERMUTE.<ord>.<org> <tsrc>` (R160). Under the hazard of R460 the command completes, changes nothing else, and its
destination bytes are free (93_implementation_defined.md U3; log 6). -/
def execPermute (ord : BitOrder) (org : Origin) (tsrc : BitVec 3) (s : State) : Host.Outcome State Fault Refusal :=
  match permuteResult ord org tsrc s with
  | .error e => .next (s.raise e)
  | .ok out =>
    if permuteHazard tsrc s out.length then .next (s.commitBytes (freeBytes s out.length) out.length)
    else .next (s.commitBytes out 0)

end Sys2Proof.Machine
end

