-- ==== Sys2Proof/Machine/Dispatch.lean ====
section
/-! DEFINITION. One arm per command: each a direct call of its meaning (30_encoding.md R126). -/

namespace Sys2Proof.Machine

/-- The effect of a decoded command (60_exceptions.md R410, `run cmd`). -/
def exec (i : Instr) (s : State) : Host.Outcome State Fault Refusal :=
  match i with
  | .permute ord org tsrc => Sys2Proof.Machine.execPermute ord org tsrc s
  | .ksgen ksel => Sys2Proof.Machine.execKsgen ksel s
  | .rfn fsel => Sys2Proof.Machine.execRfn fsel s
  | .keyinit => Sys2Proof.Machine.execKeyinit s
  | .encb => Sys2Proof.Machine.execEncb s
  | .decb => Sys2Proof.Machine.execDecb s
  | .ctxset mode scheme => Sys2Proof.Machine.execCtxset mode scheme s
  | .menc => Sys2Proof.Machine.execMenc s
  | .mdec => Sys2Proof.Machine.execMdec s
  | .pad scheme => Sys2Proof.Machine.execPad scheme s
  | .unpad scheme => Sys2Proof.Machine.execUnpad scheme s

end Sys2Proof.Machine
end

