-- ==== Sys2Proof/Machine/HostPort.lean ====
section
/-! DEFINITION. The host port: the CSR map, the accesses of the host, the issue of a command word, and the host macros
(10_state.md R33 to R49; 20_memory.md R89, R95; 30_encoding.md R132, R133; 60_exceptions.md R410). -/

namespace Sys2Proof.Machine

/-- The registers of the CSR map (10_state.md R33). -/
inductive Csr where
  | cmd | status | cfg | keyLen | ivLen | srcAddr | srcLen | dstAddr | dstCap | tblAddr | tblLen | outLen
  /-- `KEY0` to `KEY7`. -/
  | key (w : Fin 8)
  /-- `IV0` to `IV3`. -/
  | iv (w : Fin 4)
  /-- A reserved offset of the window: reads 0, ignores writes (10_state.md R34). -/
  | reserved
deriving DecidableEq, Repr

/-- The register at the `n`-th word of the window, offset `4 n` (10_state.md R33). -/
def csrAt (n : Nat) : Csr :=
  if n = 0 then .cmd
  else if n = 1 then .status
  else if n = 2 then .cfg
  else if n = 3 then .keyLen
  else if n = 4 then .ivLen
  else if n = 5 then .srcAddr
  else if n = 6 then .srcLen
  else if n = 7 then .dstAddr
  else if n = 8 then .dstCap
  else if n = 9 then .tblAddr
  else if n = 10 then .tblLen
  else if n = 11 then .outLen
  else if 16 ≤ n ∧ n < 24 then .key (Fin.ofNat 8 (n - 16))
  else if 24 ≤ n ∧ n < 28 then .iv (Fin.ofNat 4 (n - 24))
  else .reserved

/-- The offset of a register in the window (10_state.md R33); reserved offsets have no register. -/
def csrOffset : Csr → Nat
  | .cmd => 0x000
  | .status => 0x004
  | .cfg => 0x008
  | .keyLen => 0x00C
  | .ivLen => 0x010
  | .srcAddr => 0x014
  | .srcLen => 0x018
  | .dstAddr => 0x01C
  | .dstCap => 0x020
  | .tblAddr => 0x024
  | .tblLen => 0x028
  | .outLen => 0x02C
  | .key w => 0x040 + 4 * w.val
  | .iv w => 0x060 + 4 * w.val
  | .reserved => 0x030

/-- A CSR access the spec defines: 32 bits, 4-byte-aligned, inside the window (10_state.md R34). -/
def csrAccessLegal (off size : Nat) : Bool := decide (size = 4 ∧ off % 4 = 0 ∧ off < 0x100)

/-- The value a register reads as (10_state.md R33 to R49). CSR reads have no side effect (20_memory.md R92). -/
def readCsr (s : State) : Csr → Word
  | .cmd => s.cmd
  | .status => statusWord s
  | .cfg => (BitVec.ofBool s.cipher.field).setWidth 32
  | .keyLen => s.keyLen.setWidth 32
  | .ivLen => s.ivLen.setWidth 32
  | .srcAddr => s.srcAddr
  | .srcLen => s.srcLen
  | .dstAddr => s.dstAddr
  | .dstCap => s.dstCap
  | .tblAddr => s.tblAddr
  | .tblLen => s.tblLen
  | .outLen => s.outLen
  | .key w => s.key[w.val]
  | .iv w => s.iv[w.val]
  | .reserved => 0#32

/-- A command has committed or failed, and the engine is no longer busy (10_state.md R39). -/
def endOutcome (o : Host.Outcome State Fault Refusal) : Host.Outcome State Fault Refusal :=
  match o with
  | .next t => .next t.endCommand
  | .fault r => .fault r
  | .refused r => .refused r

/-- A host write of `w` to `CMD` (10_state.md R35; 60_exceptions.md R410): the word is stored, decoded, and its command
run; a word that is no command raises ILLEGAL_COMMAND (R405). -/
def issue (w : Word) (s : State) : Host.Outcome State Fault Refusal :=
  match decode w with
  | .error _ => .next (((s.beginCommand w).raise .illegalCommand).endCommand)
  | .ok i => endOutcome (exec i (s.beginCommand w))

/-- A host write of `v` to a register (10_state.md R33 to R49). `STATUS`, `OUT_LEN` and the reserved offsets ignore it,
and a write of a narrower register keeps its bits only (R34). -/
def writeCsr (v : Word) (s : State) : Csr → Host.Outcome State Fault Refusal
  | .cmd => issue v s
  | .status => .next s
  | .cfg => .next (s.writeCfg v)
  | .keyLen => .next { s with keyLen := v.setWidth 6 }
  | .ivLen => .next { s with ivLen := v.setWidth 5 }
  | .srcAddr => .next { s with srcAddr := v }
  | .srcLen => .next { s with srcLen := v }
  | .dstAddr => .next { s with dstAddr := v }
  | .dstCap => .next { s with dstCap := v }
  | .tblAddr => .next { s with tblAddr := v }
  | .tblLen => .next { s with tblLen := v }
  | .outLen => .next s
  | .key w => .next { s with key := s.key.set w.val v w.isLt }
  | .iv w => .next { s with iv := s.iv.set w.val v w.isLt }
  | .reserved => .next s

/-- One access of the host, or the platform's reset. -/
def hostAccess (op : HostOp) (s : State) : Host.Outcome State Fault Refusal :=
  match op with
  | .csrRead off size =>
    if csrAccessLegal off size then .next (s.reply (.csr off (readCsr s (csrAt (off / 4)))))
    else .refused .csrProtocol
  | .csrWrite off size v =>
    if csrAccessLegal off size then writeCsr v s (csrAt (off / 4)) else .refused .csrProtocol
  | .dmemRead addr width =>
    if inRange s addr width then .next (s.reply (.dmem addr width (be (s.dmem.readBytes addr width))))
    else .fault .hostAddressOutsideDmem
  | .dmemWrite addr width v =>
    if inRange s addr width then .next { s with dmem := s.dmem.writeBytes addr (bebytes v width) }
    else .fault .hostAddressOutsideDmem
  | .reset d => .next (s.platformReset d)

/-- The oldest access the host has issued is served; with none pending the engine is idle and holds its state
(20_memory.md R95, R96; 70_reset_and_hazards.md R451; 60_exceptions.md R435). -/
def serveHost (s : State) : Host.Outcome State Fault Refusal :=
  match s.hostq with
  | [] => .next s
  | op :: rest => hostAccess op (s.popHost rest)

/-! ### Host operations and macros (30_encoding.md R132, R133) -/

/-- `WR <csr>, <value32>`. -/
def wr (c : Csr) (v : Word) : HostOp := .csrWrite (csrOffset c) 4 v

/-- `RD <csr>`. -/
def rd (c : Csr) : HostOp := .csrRead (csrOffset c) 4

/-- `WRB <addr>, <hex bytes>`: one byte write for each byte. -/
def wrb (addr : Nat) : Bytes → List HostOp
  | [] => []
  | b :: bs => .dmemWrite addr 1 b.toNat :: wrb (addr + 1) bs

/-- `RDB <addr>, <n>`: `n` byte reads. -/
def rdb (addr : Nat) : Nat → List HostOp
  | 0 => []
  | n + 1 => .dmemRead addr 1 :: rdb (addr + 1) n

/-- A command mnemonic on its own: `WR CMD, <its encoding>` (R132). -/
def commandOp (i : Instr) : HostOp := wr .cmd (encode i)

/-- The words of a byte list, four bytes big-endian a word, missing bytes of the last word 0 (R133). -/
def packWords (ks : Bytes) : List Word :=
  (List.range ((ks.length + 3) / 4)).map fun w =>
    BitVec.ofNat 32 (be (((ks ++ zeroBytes 3).drop (4 * w)).take 4))

/-- `SETKEY <k0 .. k(n-1)>` for `n <= 32` (R133). -/
def setKey (ks : Bytes) : List HostOp :=
  (packWords ks).zipIdx.map (fun p => wr (.key (Fin.ofNat 8 p.2)) p.1) ++ [wr .keyLen (BitVec.ofNat 32 ks.length)]

/-- `SETIV <v0 .. v(n-1)>` for `n <= 16` (R133). -/
def setIv (vs : Bytes) : List HostOp :=
  (packWords vs).zipIdx.map (fun p => wr (.iv (Fin.ofNat 4 p.2)) p.1) ++ [wr .ivLen (BitVec.ofNat 32 vs.length)]

/-- `SETSRC a, n` (R133). -/
def setSrc (a n : Word) : List HostOp := [wr .srcAddr a, wr .srcLen n]

/-- `SETDST a, c` (R133). -/
def setDst (a c : Word) : List HostOp := [wr .dstAddr a, wr .dstCap c]

/-- `SETTBL a, n` (R133). -/
def setTbl (a n : Word) : List HostOp := [wr .tblAddr a, wr .tblLen n]

/-- `CIPHER <BASE|COMPOUND>` (R133). -/
def cipherOp (c : Cipher) : List HostOp := [wr .cfg ((BitVec.ofBool c.field).setWidth 32)]

/-- `WAIT` (R133): commands are atomic here, so the first read of `STATUS` finds `BUSY = 0` (10_state.md R39). -/
def waitOp : List HostOp := [rd .status]

end Sys2Proof.Machine
end

