-- ==== Sys2Proof/Machine/Step.lean ====
section
/-! DEFINITION. One step: the oldest access of the host is served (20_memory.md R96). -/

namespace Sys2Proof.Machine

/-- One step of the engine: it serves the oldest access its host has issued, a write to `CMD` running the whole command
(70_reset_and_hazards.md R470), and idles when there is none (log 1). -/
def step (s : State) : Host.Outcome State Fault Refusal := serveHost s

/-- The state in which the host's next access writes the command word `w` to `CMD`, which is where the engine takes a
command from (10_state.md R35; log 1). Nothing else changes. -/
def State.withFetchWord (s : State) (nbits w : Nat) : State :=
  { s with hostq := .csrWrite 0x000 4 (BitVec.ofNat 32 (w % 2 ^ nbits)) :: s.hostq }

end Sys2Proof.Machine
end

