-- ==== Sys2Proof/Machine/Platform.lean ====
section
/-! DEFINITION. A platform of several engines (60_exceptions.md R432; 20_memory.md R97): each a separate machine with its
own CSRs, DMEM, round keys and context; and where their windows lie for the host. -/

namespace Sys2Proof.Machine

/-- A platform holds `NUM_ENGINES` engines (R432). -/
abbrev Platform := List State

/-- `NUM_ENGINES` where the platform gives no other number (00_scope.md R8). -/
def numEnginesDefault : Nat := 1

/-- The engines share only the ROM contents (20_memory.md R97; 41_tables_rom.md R199), and each has its own number, so
that it draws free bytes of its own (log 12). -/
def platformWellFormed (p : Platform) : Prop :=
  1 ≤ p.length ∧ (∀ s ∈ p, ∀ t ∈ p, s.par.rom = t.par.rom) ∧ ∀ (k : Nat) (s : State), p[k]? = some s → s.par.engine = k

/-- Engine `k` right after reset. -/
def engineReset (k : Nat) : State := { State.reset with par := { paramsDefault with engine := k } }

/-- `n` engines right after reset (R432: each starts at reset). -/
def platformReset (n : Nat) : Platform := (List.range n).map engineReset

/-- Where the host finds the CSR at an offset of engine `k`'s window (10_state.md R33: offsets count from `CSR_BASE`). The
model's host accesses name the offset; no rule reads the base (93_implementation_defined.md U13). -/
def csrHostAddress (k off : Nat) : Nat := Config.csrBase k + off

/-- Where the host finds the DMEM byte at address `a` of engine `k` (00_scope.md R8). -/
def dmemHostAddress (k a : Nat) : Nat := Config.dmemBase k + a

/-- Engine `k` takes a step and the other engines do not. A platform has no engine `k` beyond its last: nothing happens. -/
def platformStep (k : Nat) (p : Platform) : Host.Outcome Platform Fault Refusal :=
  match p[k]? with
  | none => .next p
  | some s =>
    match step s with
    | .next t => .next (p.set k t)
    | .fault r => .fault r
    | .refused r => .refused r

end Sys2Proof.Machine
end

