-- ==== Sys2Proof/Safety.lean ====
section
/-! DEFINITION. The terms the claims use: the machine's invariant, a legal host, the regions a command uses, which words
are illegal, what the host can observe, bytewise complement, FIPS DES, the equations of the modes and the padding, the key
lengths, the hazard of PERMUTE, and the CSR map. -/

namespace Sys2Proof.Machine

/-! ### Safe states -/

/-- The invariant of the engine: what every step keeps. It says nothing of `BUSY`, which is 1 while a command runs. -/
structure Inv (s : State) : Prop where
  /-- The instance's parameters are legal (20_memory.md R82; 93_implementation_defined.md U9). -/
  params : paramsValid s.par = true
  /-- DMEM is canonical. -/
  canonical : s.dmem.wf
  /-- Every listed byte exists (20_memory.md R81). -/
  inside : ∀ c ∈ s.dmem, c.1 < s.par.dmemSize
  /-- While `INIT = 1`, `RK` is what the selected cipher's scheduler made of a legal key (10_state.md R51). -/
  keys : s.init = true →
    ∃ key, keyLengthLegal s.cipher key.length = true ∧ keySchedule s.par.rom s.cipher key = .ok s.rk
  /-- A latched non-ECB context has an IV of `B` bytes (10_state.md R52; 45_modes.md R320). -/
  context : s.ctxv = true → s.ctxMode ≠ .ecb → s.ctxIv.length = blockSize s
  /-- `KEY_SCHEDULE_MISMATCH` is never reported (60_exceptions.md R403). -/
  noMismatch : s.errcode ≠ some .keyScheduleMismatch
  /-- `OUT_LEN` counts bytes written in DMEM (10_state.md R47). -/
  outLen : s.outLen.toNat ≤ s.par.dmemSize

/-- A host access the spec defines (10_state.md R34; 20_memory.md R81). -/
def hostOpLegal (p : Params) : HostOp → Bool
  | .csrRead off size => csrAccessLegal off size
  | .csrWrite off size _ => csrAccessLegal off size
  | .dmemRead addr width => decide (addr + width ≤ p.dmemSize)
  | .dmemWrite addr width _ => decide (addr + width ≤ p.dmemSize)
  | .reset _ => true

/-- A host that has issued only accesses the spec defines. -/
def hostLegal (s : State) : Prop := ∀ op ∈ s.hostq, hostOpLegal s.par op = true

/-! ### Regions (20_memory.md R83; 60_exceptions.md R406) -/

/-- The commands with a source buffer. -/
def usesSource : Instr → Bool
  | .permute _ _ _ => true
  | .rfn _ => true
  | .encb => true
  | .decb => true
  | .menc => true
  | .mdec => true
  | .pad _ => true
  | .unpad _ => true
  | .ksgen _ => false
  | .keyinit => false
  | .ctxset _ _ => false

/-- The commands with a DMEM table: `PERMUTE` with `TSRC = 0` only. -/
def usesTable : Instr → Bool
  | .permute _ _ tsrc => tsrc == 0#3
  | .rfn _ => false
  | .encb => false
  | .decb => false
  | .menc => false
  | .mdec => false
  | .pad _ => false
  | .unpad _ => false
  | .ksgen _ => false
  | .keyinit => false
  | .ctxset _ _ => false

/-- The commands with a destination: all but `KEYINIT` and `CTXSET`. -/
def usesDest : Instr → Bool
  | .permute _ _ _ => true
  | .rfn _ => true
  | .encb => true
  | .decb => true
  | .menc => true
  | .mdec => true
  | .pad _ => true
  | .unpad _ => true
  | .ksgen _ => true
  | .keyinit => false
  | .ctxset _ _ => false

/-! ### Illegal words (30_encoding.md R111, R127) -/

/-- The reserved bits of a command word by its opcode, the `0` cells of R111 and `RSV`; none for an opcode that is not in
the map. -/
def reservedMask (op : BitVec 8) : Option Word :=
  if op = 0x01#8 then some 0xFFFF8C00#32
  else if op = 0x02#8 ∨ op = 0x03#8 then some 0xFFFFFE00#32
  else if op = 0x10#8 ∨ op = 0x11#8 ∨ op = 0x12#8 ∨ op = 0x21#8 ∨ op = 0x22#8 then some 0xFFFFFF00#32
  else if op = 0x20#8 then some 0xFFFFC800#32
  else if op = 0x23#8 ∨ op = 0x24#8 then some 0xFFFFCF00#32
  else none

/-- An illegal word (R127): an opcode outside the map, a reserved bit that is 1, or a reserved field value. -/
def illegalWord (w : Word) : Prop :=
  match reservedMask (w.extractLsb' 0 8) with
  | none => True
  | some m =>
    w &&& m ≠ 0#32 ∨ (w.extractLsb' 0 8 = 0x01#8 ∧ w.extractLsb' 12 3 = 7#3) ∨
      (w.extractLsb' 0 8 = 0x20#8 ∧ w.extractLsb' 8 3 = 7#3)

/-! ### Writable registers (10_state.md R33) -/

/-- The bits of a plain register that hold what the host writes: all of them but for `KEYLEN` and `IVLEN`. -/
def writableMask : Csr → Word
  | .keyLen => 0x3F#32
  | .ivLen => 0x1F#32
  | .srcAddr => 0xFFFFFFFF#32
  | .srcLen => 0xFFFFFFFF#32
  | .dstAddr => 0xFFFFFFFF#32
  | .dstCap => 0xFFFFFFFF#32
  | .tblAddr => 0xFFFFFFFF#32
  | .tblLen => 0xFFFFFFFF#32
  | .key _ => 0xFFFFFFFF#32
  | .iv _ => 0xFFFFFFFF#32
  | .cmd => 0#32
  | .cfg => 0#32
  | .status => 0#32
  | .outLen => 0#32
  | .reserved => 0#32

/-- A register a host write only stores into: every writable one but `CMD` and `CFG`, whose writes do more. -/
def plainRegister (c : Csr) : Bool := writableMask c != 0#32

/-! ### What can be observed (10_state.md R50, R52, R56) -/

/-- A state with the storage that no access can observe blanked: `RK` while `INIT = 0`, the mode context while
`CTXV = 0`, and `ctx.IV` under ECB. -/
def publicView (s : State) : State :=
  { s with
    rk := if s.init then s.rk else []
    ctxMode := if s.ctxv then s.ctxMode else .ecb
    ctxPad := if s.ctxv then s.ctxPad else .zeros
    ctxIv := if s.ctxv = true ∧ s.ctxMode ≠ .ecb then s.ctxIv else [] }

/-! ### Bytes -/

/-- Every bit complemented (43_base_cipher.md R263). -/
def complementBytes (b : Bytes) : Bytes := b.map fun x => ~~~x

/-- `swap32(z)`: the two 4-byte halves of an 8-byte block exchanged (43_base_cipher.md R262). -/
def swap32 (z : Bytes) : Bytes := z.drop 4 ++ z.take 4

/-- The rounds of FIPS 46-3 DES, without the engine's Feistel functions: every round but the last exchanges the halves,
and the last does not (43_base_cipher.md R262; general knowledge, not the engine's operation). -/
def desRounds (rom : Rom) : List Bytes → Bytes → Bytes → Bytes
  | [], l, r => l ++ r
  | [k], l, r => xorBytes l (baseRound rom r k) ++ r
  | k :: k' :: ks, l, r => desRounds rom (k' :: ks) r (xorBytes l (baseRound rom r k))

/-- FIPS 46-3 DES encryption with given round keys (43_base_cipher.md R262). -/
def desEncrypt (rom : Rom) (rk : List Bytes) (x : Bytes) : Bytes :=
  bp (desRounds rom rk ((bp x rom.ip).take 4) ((bp x rom.ip).drop 4)) rom.fp

/-! ### The equations of the modes (45_modes.md R313, R315 to R319, R323, R324) -/

/-- Block `i` of a buffer, counted from 0 (R313). -/
def blockOf (B : Nat) (d : Bytes) (i : Nat) : Bytes := (d.drop (B * i)).take B

/-- The block before block `i`, the IV before the first (`C_0 = IV`, `P_0 = IV`). -/
def blockBefore (B : Nat) (iv d : Bytes) (i : Nat) : Bytes := if i = 0 then iv else blockOf B d (i - 1)

/-- Block `i` of the keystream of a stream-like mode over the ciphertext `c`: `E(C_(i-1))` in CFB (R318), `E` applied
`i` times to the IV in OFB (R319), `E` of the IV plus the block's place in CTR (R323). -/
def keystreamBlock (E : Bytes → Bytes) (B : Nat) (mode : Mode) (iv c : Bytes) (i : Nat) : Bytes :=
  match mode with
  | .cfb => E (blockBefore B iv c i)
  | .ofb => E^[i + 1] iv
  | .ctr => E (bebytes ((be iv + i) % 2 ^ (8 * B)) B)
  | .ecb => []
  | .cbc => []
  | .pcbc => []
  | .randomDelta => []

/-- What a padded mode adds to block `i` of the plaintext `p`, ahead of `E` and behind `D`, over the ciphertext `c`: nothing
in ECB (R315), `C_(i-1)` in CBC (R316), `P_(i-1)` and `C_(i-1)` in PCBC (R317), `C_(i-1)` and the delta in RandomDelta
(R324). -/
def chained (delta : Nat → Bytes) (B : Nat) (mode : Mode) (iv p c : Bytes) (i : Nat) (x : Bytes) : Bytes :=
  match mode with
  | .cbc => xorBytes x (blockBefore B iv c i)
  | .pcbc => xorBytes (xorBytes x (blockBefore B iv p i)) (blockBefore B iv c i)
  | .randomDelta => xorBytes (xorBytes x (blockBefore B iv c i)) (delta (i + 1))
  | .ecb => x
  | .cfb => x
  | .ofb => x
  | .ctr => x

/-- The equations of a mode hold between a plaintext and its ciphertext, block by block, on the encryption side: `C_i` is
`E` of the chained `P_i`, or in a stream-like mode `P_i` XORed with the first bytes of the keystream block. -/
def encryptsTo (E : Bytes → Bytes) (delta : Nat → Bytes) (B : Nat) (mode : Mode) (iv p c : Bytes) : Prop :=
  c.length = p.length ∧ ∀ i, B * i < p.length →
    blockOf B c i =
      if streamMode mode then
        xorBytes (blockOf B p i) ((keystreamBlock E B mode iv c i).take (blockOf B p i).length)
      else E (chained delta B mode iv p c i (blockOf B p i))

/-- The same on the decryption side: `P_i` is the chained `D(C_i)`, or in a stream-like mode `C_i` XORed with the first
bytes of the keystream block, which only `E` makes. -/
def decryptsTo (E D : Bytes → Bytes) (delta : Nat → Bytes) (B : Nat) (mode : Mode) (iv c p : Bytes) : Prop :=
  p.length = c.length ∧ ∀ i, B * i < c.length →
    blockOf B p i =
      if streamMode mode then
        xorBytes (blockOf B c i) ((keystreamBlock E B mode iv c i).take (blockOf B c i).length)
      else chained delta B mode iv p c i (D (blockOf B c i))

/-! ### The padding rules (46_padding.md R360, R362 to R368) -/

/-- The pad length of R360: what is missing to a whole block; of whole blocks, a block or nothing as `FULL_BLOCK_PAD`
says. -/
def padLengthRule (full : Bool) (len B : Nat) : Nat :=
  if len % B ≠ 0 then B - len % B else if full then B else 0

/-- The appended bytes of a scheme: zeros (R362); zeros and the length (R363); the length in each (R364); the length in
the last and any bytes before it (R365). -/
def paddingRule (p : PadScheme) (n : Nat) (tail : Bytes) : Prop :=
  tail.length = n ∧ (p = .zeros → ∀ j, j < n → tail.getD j 0#8 = 0#8) ∧
    (p = .ansiX923 → ∀ j, j + 1 < n → tail.getD j 0#8 = 0#8) ∧
    (p = .pkcs7 → ∀ j, j < n → tail.getD j 0#8 = BitVec.ofNat 8 n) ∧
    (p ≠ .zeros → 0 < n → tail.getLastD 0#8 = BitVec.ofNat 8 n)

/-- What unpadding returns where it does not fail: under Zeros the buffer without every trailing zero byte (R368), under
the other schemes the buffer without as many last bytes as its last byte says (R366); of the empty buffer the empty one
(R367). -/
def unpaddingRule (p : PadScheme) (d out : Bytes) : Prop :=
  (p = .zeros → (∃ k, d = out ++ List.replicate k 0#8) ∧ (out = [] ∨ out.getLastD 0#8 ≠ 0#8)) ∧
    (p ≠ .zeros → out = d.take (d.length - (d.getLastD 0#8).toNat))

/-! ### The legal key lengths (42_feistel_engine.md R210, R214) -/

/-- 8 bytes for the base cipher, 16, 24 or 32 for the compound cipher. -/
def keyLengthRule (c : Cipher) (n : Nat) : Prop := (c = .base ∧ n = 8) ∨ (c = .compound ∧ (n = 16 ∨ n = 24 ∨ n = 32))

/-! ### The hazard of PERMUTE (70_reset_and_hazards.md R460) -/

/-- An address of the destination region `[DST_ADDR, DST_ADDR + ceil(t/8))` of a `PERMUTE` with a `t`-bit result lies in its
source region or, for `TSRC = 0`, in its DMEM table region. -/
def permuteOverlap (tsrc : BitVec 3) (s : State) (t : Nat) : Prop :=
  ∃ a, s.dstAddr.toNat ≤ a ∧ a < s.dstAddr.toNat + (t + 7) / 8 ∧
    ((s.srcAddr.toNat ≤ a ∧ a < s.srcAddr.toNat + s.srcLen.toNat) ∨
      (tsrc = 0#3 ∧ s.tblAddr.toNat ≤ a ∧ a < s.tblAddr.toNat + 2 * s.tblLen.toNat))

/-! ### The CSR map (10_state.md R33) -/

/-- A read of the CSR at an offset returns `x` and changes nothing. -/
def csrReads (s : State) (off : Nat) (x : Word) : Prop :=
  hostAccess (.csrRead off 4) s = .next { s with replies := s.replies ++ [.csr off x] }

/-- A write of `v` to the CSR at an offset gives the state `t`. -/
def csrWrites (s : State) (off : Nat) (v : Word) (t : State) : Prop := hostAccess (.csrWrite off 4 v) s = .next t

end Sys2Proof.Machine
end

