-- ==== Sys2Proof/Certificates/Slice0/Obligations.lean ====
section
/-! DEFINITION. The statements for the provers, from the numbered rules of spec/. -/

open Sys2Proof Sys2Proof.Machine

/-! ### Encoding (30_encoding.md) -/

/-- R111, R126: every well-formed command is what the decoder reads from its word, each field at every value. -/
def Obligations.DecodeInvertsEncode : Prop :=
  ∀ i : Instr, WellFormed i = true → decode (encode i) = .ok i

/-- R126, R127: a word that decodes is the word of exactly the command it decodes to, and that command is well formed:
no bit of a legal word is ignored. -/
def Obligations.EncodeInvertsDecode : Prop :=
  ∀ (w : Word) (i : Instr), decode w = .ok i → WellFormed i = true ∧ encode i = w

/-- R134: the spec's example words, legal and illegal. -/
def Obligations.SpecExampleWordsDecode : Prop :=
  decode 0x00001201#32 = .ok (.permute .msb .one 1#3) ∧
  decode 0x00000201#32 = .ok (.permute .msb .one 0#3) ∧
  decode 0x00000301#32 = .ok (.permute .lsb .one 0#3) ∧
  decode 0x00000102#32 = .ok (.ksgen .compound) ∧
  decode 0x00000103#32 = .ok (.rfn .adapter) ∧
  decode 0x00000010#32 = .ok .keyinit ∧
  decode 0x00002120#32 = .ok (.ctxset 1#3 .pkcs7) ∧
  decode 0x00000520#32 = .ok (.ctxset 5#3 .zeros) ∧
  decode 0x00003620#32 = .ok (.ctxset 6#3 .iso10126) ∧
  decode 0x00002023#32 = .ok (.pad .pkcs7) ∧
  decode 0x00000024#32 = .ok (.unpad .zeros) ∧
  decode 0x00000000#32 = .error .unknownOpcode ∧
  decode 0x00010011#32 = .error .rsvNonzero ∧
  decode 0x00000720#32 = .error .reservedValue ∧
  decode 0x00007001#32 = .error .reservedValue ∧
  decode 0x00000411#32 = .error .reservedBit

/-- R127: a word is illegal exactly when its opcode is not in the map, a reserved bit is 1 or a field holds a reserved
value, and no other word fails to decode; writing an illegal word to `CMD` raises ILLEGAL_COMMAND and changes nothing
but `ERRCODE`, `OUT_LEN` (and `CMD`, which holds the word). -/
def Obligations.IllegalWordsRaiseIllegalCommand : Prop :=
  (∀ w : Word, illegalWord w ↔ ∀ i, decode w ≠ .ok i) ∧
  ∀ (w : Word) (s : State), illegalWord w →
    issue w s = .next { s with cmd := w, busy := false, errcode := some .illegalCommand, outLen := 0#32 }

/-! ### The step and the host port (10_state.md, 20_memory.md) -/

/-- A step runs the decoded command: with a write of `w` to `CMD` as the host's next access, and `w` a command, the step
is the command's effect on the state with the access taken, the word in `CMD` and `BUSY` set, and then `BUSY` cleared
(R35, R39, R410). The same for a word placed by `withFetchWord`. (The queue of accesses is the model's choice, log 1.) -/
def Obligations.StepRunsDecodedCommand : Prop :=
  (∀ (s : State) (rest : List HostOp) (w : Word) (i : Instr),
    s.hostq = .csrWrite 0x000 4 w :: rest → decode w = .ok i →
      step s = endOutcome (exec i { s with hostq := rest, cmd := w, busy := true })) ∧
  ∀ (s : State) (w : Word) (i : Instr), decode w = .ok i →
    step (s.withFetchWord 32 w.toNat) = endOutcome (exec i { s with cmd := w, busy := true })

/-- R451, R435: with no access pending the engine is idle and holds all its state. (That the pending accesses stand in
`hostq` is the model's choice, log 1.) -/
def Obligations.IdleEngineHoldsState : Prop :=
  ∀ s : State, s.hostq = [] → step s = .next s

/-- R96: a step serves exactly the oldest access: it is that access's effect on the state with the access taken, whatever
the outcome; the accesses behind it stay as they are, in their order, at most one value is returned, and the parameters,
the ROM among them, never change (R199). (The queue and the list of replies are the model's choice, logs 1 and 15.) -/
def Obligations.StepServesAccessesInOrder : Prop :=
  ∀ (s : State) (op : HostOp) (rest : List HostOp), s.hostq = op :: rest →
    step s = hostAccess op { s with hostq := rest } ∧
    ∀ t, step s = .next t → hostAccess op { s with hostq := rest } = .next t ∧ t.hostq = rest ∧ t.par = s.par ∧
      ∃ l : List HostReply, l.length ≤ 1 ∧ t.replies = s.replies ++ l

/-- R34: an access that is not 32 bits, aligned and inside the window is refused; a legal read changes nothing and
returns one value, 0 at a reserved offset and with every reserved field 0; a write to a reserved offset, to `STATUS` or
to `OUT_LEN` has no effect, and a write's reserved fields have none. -/
def Obligations.CsrAccessRules : Prop :=
  (∀ (s : State) (off size : Nat) (v : Word), ¬ (size = 4 ∧ off % 4 = 0 ∧ off < 0x100) →
    hostAccess (.csrRead off size) s = .refused .csrProtocol ∧
      hostAccess (.csrWrite off size v) s = .refused .csrProtocol) ∧
  (∀ (s : State) (off : Nat), off % 4 = 0 → off < 0x100 →
    ∃ x : Word, hostAccess (.csrRead off 4) s = .next { s with replies := s.replies ++ [.csr off x] } ∧
      ((0x030 ≤ off ∧ off < 0x040) ∨ 0x070 ≤ off → x = 0#32) ∧
      (off = 0x004 → x &&& 0xFFFFC808#32 = 0#32) ∧
      (off = 0x008 → x &&& 0xFFFFFFFC#32 = 0#32) ∧
      (off = 0x00C → x &&& 0xFFFFFFC0#32 = 0#32) ∧
      (off = 0x010 → x &&& 0xFFFFFFE0#32 = 0#32)) ∧
  (∀ (s : State) (off : Nat) (v : Word), off % 4 = 0 → off < 0x100 →
    (off = 0x004 ∨ off = 0x02C ∨ (0x030 ≤ off ∧ off < 0x040) ∨ 0x070 ≤ off →
      hostAccess (.csrWrite off 4 v) s = .next s)) ∧
  ∀ (s : State) (v : Word),
    hostAccess (.csrWrite 0x008 4 v) s = hostAccess (.csrWrite 0x008 4 (v &&& 0x3#32)) s ∧
    hostAccess (.csrWrite 0x00C 4 v) s = hostAccess (.csrWrite 0x00C 4 (v &&& 0x3F#32)) s ∧
    hostAccess (.csrWrite 0x010 4 v) s = hostAccess (.csrWrite 0x010 4 (v &&& 0x1F#32)) s

/-- R36, R37: a `CFG` write that changes the cipher clears `INIT` and `CTXV` and changes nothing else (that `RK` and the
context keep their contents there is the model's choice, log 3); a write of the value the field holds, or of 2 or 3, has
no effect. -/
def Obligations.CfgWriteSelectsCipher : Prop :=
  ∀ (s : State) (v : Word),
    (v.extractLsb' 0 2 = 0#2 → s.cipher = .compound →
      hostAccess (.csrWrite 0x008 4 v) s = .next { s with cipher := .base, init := false, ctxv := false }) ∧
    (v.extractLsb' 0 2 = 1#2 → s.cipher = .base →
      hostAccess (.csrWrite 0x008 4 v) s = .next { s with cipher := .compound, init := false, ctxv := false }) ∧
    (v.extractLsb' 0 2 = 0#2 → s.cipher = .base → hostAccess (.csrWrite 0x008 4 v) s = .next s) ∧
    (v.extractLsb' 0 2 = 1#2 → s.cipher = .compound → hostAccess (.csrWrite 0x008 4 v) s = .next s) ∧
    (2 ≤ (v.extractLsb' 0 2).toNat → hostAccess (.csrWrite 0x008 4 v) s = .next s)

/-- R33, R42, R43: the `STATUS` word. `ERRCODE` is 0 for success and else the code of R400; `CTXMODE` and `CTXPAD` read the
latched context while `CTXV = 1` and 0 otherwise, with the encodings of the `CTXSET` fields, the numbers of R124. -/
def Obligations.StatusWordFields : Prop :=
  (∀ s : State,
    (statusWord s).getLsbD 0 = s.busy ∧ (statusWord s).getLsbD 1 = s.init ∧ (statusWord s).getLsbD 2 = s.ctxv ∧
    (statusWord s).getLsbD 3 = false ∧
    (s.errcode = none → (statusWord s).extractLsb' 4 4 = 0#4) ∧
    (s.errcode = some .invalidArgument → (statusWord s).extractLsb' 4 4 = 1#4) ∧
    (s.errcode = some .notInitialized → (statusWord s).extractLsb' 4 4 = 2#4) ∧
    (s.errcode = some .keyScheduleMismatch → (statusWord s).extractLsb' 4 4 = 3#4) ∧
    (s.errcode = some .paddingValidation → (statusWord s).extractLsb' 4 4 = 4#4) ∧
    (s.errcode = some .illegalCommand → (statusWord s).extractLsb' 4 4 = 5#4) ∧
    (s.errcode = some .addressRange → (statusWord s).extractLsb' 4 4 = 6#4) ∧
    (statusWord s).extractLsb' 8 3 = (if s.ctxv then s.ctxMode.field else 0#3) ∧
    (statusWord s).getLsbD 11 = false ∧
    (statusWord s).extractLsb' 12 2 = (if s.ctxv then s.ctxPad.field else 0#2) ∧
    (statusWord s).extractLsb' 14 18 = 0#18) ∧
  (Mode.ecb.field = 0#3 ∧ Mode.cbc.field = 1#3 ∧ Mode.pcbc.field = 2#3 ∧ Mode.cfb.field = 3#3 ∧ Mode.ofb.field = 4#3 ∧
    Mode.ctr.field = 5#3 ∧ Mode.randomDelta.field = 6#3 ∧ PadScheme.zeros.field = 0#2 ∧
    PadScheme.ansiX923.field = 1#2 ∧ PadScheme.pkcs7.field = 2#2 ∧ PadScheme.iso10126.field = 3#2) ∧
  ∀ (m : Mode) (p : PadScheme),
    (encode (.ctxset m.field p)).extractLsb' 8 3 = m.field ∧
      (encode (.ctxset m.field p)).extractLsb' 12 2 = p.field ∧
      Mode.ofField m.field = some m ∧ PadScheme.ofField p.field = p

/-- R88, R44, R48, R49: the byte with the lowest index of a KEY or IV register sits in bits [31:24]; and so the key operand
of a command is `KEY[0 .. KEYLEN)` for `KEYLEN` up to 32, and the IV operand `IV[0 .. B)`, byte by byte. -/
def Obligations.KeyAndIvBytesAreBigEndian : Prop :=
  ∀ (s : State) (i : Nat), i < 4 →
    (∀ w : Fin 8, (registerBytes s.key.toList)[4 * w.val + i]? =
      some ((s.key[w.val]).extractLsb' (24 - 8 * i) 8)) ∧
    (∀ w : Fin 4, (registerBytes s.iv.toList)[4 * w.val + i]? =
      some ((s.iv[w.val]).extractLsb' (24 - 8 * i) 8)) ∧
    (s.keyLen.toNat ≤ 32 → (keyOperand s).length = s.keyLen.toNat ∧
      ∀ w : Fin 8, 4 * w.val + i < s.keyLen.toNat → (keyOperand s)[4 * w.val + i]? =
        some ((s.key[w.val]).extractLsb' (24 - 8 * i) 8)) ∧
    (ivOperand s).length = blockSize s ∧
      ∀ w : Fin 4, 4 * w.val + i < blockSize s → (ivOperand s)[4 * w.val + i]? =
        some ((s.iv[w.val]).extractLsb' (24 - 8 * i) 8)

/-- R33: each register at its offset: what a read there returns and what a write there stores. R44 to R49, R462, R463: a host
write to a plain register reads back with the bits the register has, and changes no other register, no round key, no
latched context, no flag and no DMEM byte. -/
def Obligations.PlainRegisterWriteReadsBack : Prop :=
  (∀ s : State,
    csrReads s 0x000 s.cmd ∧ csrReads s 0x004 (statusWord s) ∧
    csrReads s 0x008 (if s.cipher = .base then 0#32 else 1#32) ∧
    csrReads s 0x00C (s.keyLen.setWidth 32) ∧ csrReads s 0x010 (s.ivLen.setWidth 32) ∧
    csrReads s 0x014 s.srcAddr ∧ csrReads s 0x018 s.srcLen ∧ csrReads s 0x01C s.dstAddr ∧ csrReads s 0x020 s.dstCap ∧
    csrReads s 0x024 s.tblAddr ∧ csrReads s 0x028 s.tblLen ∧ csrReads s 0x02C s.outLen ∧
    (∀ w : Fin 8, csrReads s (0x040 + 4 * w.val) s.key[w.val]) ∧
    ∀ w : Fin 4, csrReads s (0x060 + 4 * w.val) s.iv[w.val]) ∧
  (∀ (s : State) (v : Word),
    hostAccess (.csrWrite 0x000 4 v) s = issue v s ∧ csrWrites s 0x008 v (s.writeCfg v) ∧
    csrWrites s 0x00C v { s with keyLen := v.extractLsb' 0 6 } ∧
    csrWrites s 0x010 v { s with ivLen := v.extractLsb' 0 5 } ∧
    csrWrites s 0x014 v { s with srcAddr := v } ∧ csrWrites s 0x018 v { s with srcLen := v } ∧
    csrWrites s 0x01C v { s with dstAddr := v } ∧ csrWrites s 0x020 v { s with dstCap := v } ∧
    csrWrites s 0x024 v { s with tblAddr := v } ∧ csrWrites s 0x028 v { s with tblLen := v } ∧
    (∀ w : Fin 8, csrWrites s (0x040 + 4 * w.val) v { s with key := s.key.set w.val v w.isLt }) ∧
    ∀ w : Fin 4, csrWrites s (0x060 + 4 * w.val) v { s with iv := s.iv.set w.val v w.isLt }) ∧
  (∀ (s : State) (c : Csr), c ≠ .reserved → csrReads s (csrOffset c) (readCsr s c)) ∧
  (∀ (s : State) (c : Csr) (v : Word), c ≠ .reserved →
    hostAccess (.csrWrite (csrOffset c) 4 v) s = writeCsr v s c) ∧
  ∀ (s : State) (v : Word) (c : Csr), plainRegister c = true →
    ∃ t, writeCsr v s c = .next t ∧ readCsr t c = v &&& writableMask c ∧
      (∀ c', c' ≠ c → readCsr t c' = readCsr s c') ∧
      t.rk = s.rk ∧ t.ctxMode = s.ctxMode ∧ t.ctxPad = s.ctxPad ∧ t.ctxIv = s.ctxIv ∧ t.init = s.init ∧
      t.ctxv = s.ctxv ∧ t.errcode = s.errcode ∧ t.dmem = s.dmem ∧ t.par = s.par ∧ t.hostq = s.hostq ∧
      t.replies = s.replies ∧ t.draws = s.draws

/-- R89, R96: a host write of `w` bytes stores the value's bytes big-endian from `a`, a read of the same bytes returns
the value, and every other byte and register is unchanged. (That a host access may have every width, 0 among them, and
that a value wider than the access stores its low bytes, is the model's choice, log 11.) An access outside DMEM faults:
the spec gives it no effect, and the fault is the model's (log 10). -/
def Obligations.HostDmemReadAfterWrite : Prop :=
  (∀ (s : State) (a w v : Nat), s.dmem.wf → a + w ≤ s.par.dmemSize →
    ∃ t, hostAccess (.dmemWrite a w v) s = .next t ∧ t = { s with dmem := t.dmem } ∧ t.dmem.wf ∧
      (∀ k, k < w → t.dmem.read (a + k) = BitVec.ofNat 8 (v / 2 ^ (8 * (w - 1 - k)))) ∧
      (∀ x, x < a ∨ a + w ≤ x → t.dmem.read x = s.dmem.read x) ∧
      hostAccess (.dmemRead a w) t = .next { t with replies := t.replies ++ [.dmem a w (v % 2 ^ (8 * w))] }) ∧
  ∀ (s : State) (a w v : Nat), s.par.dmemSize < a + w →
    hostAccess (.dmemWrite a w v) s = .fault .hostAddressOutsideDmem ∧
      hostAccess (.dmemRead a w) s = .fault .hostAddressOutsideDmem

/-- R57, R450: reset, whatever unspecified storage comes up as, leaves every CSR reading 0, no key, no context, no error,
the base cipher, and canonical DMEM; and so does `State.reset`. (The access that stands for an asserted reset is the model's, log 4.) -/
def Obligations.ResetClearsEveryCsr : Prop :=
  (∀ (s : State) (d : ResetDraw),
    ∃ t, hostAccess (.reset d) s = .next t ∧ (∀ c, readCsr t c = 0#32) ∧ t.init = false ∧ t.ctxv = false ∧
      t.busy = false ∧ t.errcode = none ∧ t.cipher = .base ∧ t.par = s.par ∧ t.hostq = s.hostq ∧
      t.replies = s.replies ∧ t.dmem.wf) ∧
  (∀ c, readCsr State.reset c = 0#32) ∧ State.reset.init = false ∧ State.reset.ctxv = false ∧
    State.reset.cipher = .base

/-! ### Errors (60_exceptions.md) -/

/-- R410, R412: a command that fails changes `ERRCODE` and `OUT_LEN` and nothing else (`CMD` keeps the word). -/
def Obligations.FailedCommandChangesOnlyErrorState : Prop :=
  ∀ (w : Word) (s t : State) (e : ErrClass), issue w s = .next t → t.errcode = some e →
    t = { s with cmd := w, busy := false, errcode := some e, outLen := 0#32 }

/-- R99, R39, R410: every word written to `CMD` ends in a next state with `BUSY` 0 and the word in `CMD`; no operand CSR,
parameter or pending access changes. -/
def Obligations.EveryCommandWordEnds : Prop :=
  ∀ (w : Word) (s : State), ∃ t, issue w s = .next t ∧ t.cmd = w ∧ t.busy = false ∧ t.cipher = s.cipher ∧
    t.keyLen = s.keyLen ∧ t.ivLen = s.ivLen ∧ t.srcAddr = s.srcAddr ∧ t.srcLen = s.srcLen ∧ t.dstAddr = s.dstAddr ∧
    t.dstCap = s.dstCap ∧ t.tblAddr = s.tblAddr ∧ t.tblLen = s.tblLen ∧ t.key = s.key ∧ t.iv = s.iv ∧ t.par = s.par ∧
    t.hostq = s.hostq ∧ t.replies = s.replies

/-- R406: ADDRESS_RANGE is raised exactly when a region the command uses lies partly or wholly outside DMEM: the source,
the table (`PERMUTE` with `TSRC = 0` only) or the destination with its full capacity. `KEYINIT` and `CTXSET` use none. -/
def Obligations.AddressRangeExactlyWhenARegionIsOutside : Prop :=
  ∀ (i : Instr) (s t : State), WellFormed i = true → exec i s = .next t →
    (t.errcode = some .addressRange ↔
      (usesSource i = true ∧ s.par.dmemSize < s.srcAddr.toNat + s.srcLen.toNat) ∨
      (usesTable i = true ∧ s.par.dmemSize < s.tblAddr.toNat + 2 * s.tblLen.toNat) ∨
      (usesDest i = true ∧ s.par.dmemSize < s.dstAddr.toNat + s.dstCap.toNat))

/-- R211, R212, R420: the check order of `ENCB` and `DECB`: regions, then lengths, then `INIT`. -/
def Obligations.BlockCommandCheckOrder : Prop :=
  ∀ (i : Instr) (s : State), i = .encb ∨ i = .decb →
    (sourceInRange s = false ∨ destInRange s = false → exec i s = .next (s.raise .addressRange)) ∧
    (sourceInRange s = true → destInRange s = true → s.srcLen.toNat ≠ blockSize s ∨ s.dstCap.toNat < blockSize s →
      exec i s = .next (s.raise .invalidArgument)) ∧
    (sourceInRange s = true → destInRange s = true → s.srcLen.toNat = blockSize s → blockSize s ≤ s.dstCap.toNat →
      s.init = false → exec i s = .next (s.raise .notInitialized))

/-- R321, R322, R420: the check order of `MENC` and `MDEC`: regions, context, lengths, `INIT`. -/
def Obligations.ModeCommandCheckOrder : Prop :=
  ∀ s : State,
    (sourceInRange s = false ∨ destInRange s = false →
      exec .menc s = .next (s.raise .addressRange) ∧ exec .mdec s = .next (s.raise .addressRange)) ∧
    (sourceInRange s = true → destInRange s = true → s.ctxv = false →
      exec .menc s = .next (s.raise .notInitialized) ∧ exec .mdec s = .next (s.raise .notInitialized)) ∧
    (sourceInRange s = true → destInRange s = true → s.ctxv = true →
      (s.dstCap.toNat < mencLength s → exec .menc s = .next (s.raise .invalidArgument)) ∧
      (mencLength s ≤ s.dstCap.toNat → s.init = false → exec .menc s = .next (s.raise .notInitialized)) ∧
      (streamMode s.ctxMode = false → s.srcLen.toNat % blockSize s ≠ 0 →
        exec .mdec s = .next (s.raise .invalidArgument)) ∧
      (s.dstCap.toNat < s.srcLen.toNat → exec .mdec s = .next (s.raise .invalidArgument)) ∧
      (streamMode s.ctxMode = true ∨ s.srcLen.toNat % blockSize s = 0 → s.srcLen.toNat ≤ s.dstCap.toNat →
        s.init = false → exec .mdec s = .next (s.raise .notInitialized)))

/-- R403, R207: `KEYINIT` raises KEY_SCHEDULE_MISMATCH exactly when the scheduler returns a count other than 16, no other
command raises it, and neither scheduler can do that with a structurally valid ROM, so the code is never produced. -/
def Obligations.KeyScheduleMismatchUnreachable : Prop :=
  (∀ (i : Instr) (s t : State), exec i s = .next t →
    (t.errcode = some .keyScheduleMismatch ↔
      i = .keyinit ∧ keyLengthRule s.cipher s.keyLen.toNat ∧
        ∃ keys, keySchedule s.par.rom s.cipher (keyOperand s) = .ok keys ∧ keys.length ≠ 16)) ∧
  ∀ (i : Instr) (s t : State), romValid s.par.rom = true → exec i s = .next t →
    t.errcode ≠ some .keyScheduleMismatch

/-- R404, R368: PADDING_VALIDATION comes only from `MDEC` in a padded mode and from `UNPAD`, never in a stream-like mode
and never under Zeros. -/
def Obligations.PaddingValidationSources : Prop :=
  ∀ (i : Instr) (s t : State), exec i s = .next t → t.errcode = some .paddingValidation →
    (i = .mdec ∧ streamMode s.ctxMode = false ∧ s.ctxPad ≠ .zeros) ∨ ∃ p, i = .unpad p ∧ p ≠ .zeros

/-- R369, R373: unpadding fails exactly when the buffer is not empty, the scheme carries a length byte, and that byte `n`
is 0, above the length, above `B`, or the filler is wrong (ANSI X.923: a byte that is not 0 among the `n-1` before it;
PKCS7: one of the last `n` bytes that is not `n`); the error is PADDING_VALIDATION. R366 to R368: where it does not fail it
returns, under Zeros, the buffer without every trailing zero byte, however many there are, and under the other schemes the
buffer without its last `n` bytes; of the empty buffer the empty one. -/
def Obligations.UnpadFailsExactly : Prop :=
  ∀ (d : Bytes) (B : Nat) (p : PadScheme),
    (∀ e, unpadBytes d B p = .error e → e = .paddingValidation) ∧
    ((∃ e, unpadBytes d B p = .error e) ↔
      d ≠ [] ∧ p ≠ .zeros ∧
        ((d.getLastD 0#8).toNat = 0 ∨ d.length < (d.getLastD 0#8).toNat ∨ B < (d.getLastD 0#8).toNat ∨
          (p = .ansiX923 ∧ ∃ j, d.length ≤ j + (d.getLastD 0#8).toNat ∧ j + 1 < d.length ∧ d.getD j 0#8 ≠ 0#8) ∨
          (p = .pkcs7 ∧ ∃ j, d.length ≤ j + (d.getLastD 0#8).toNat ∧ j < d.length ∧
            d.getD j 0#8 ≠ d.getLastD 0#8))) ∧
    ∀ out, unpadBytes d B p = .ok out → unpaddingRule p d out ∧ (d = [] → out = [])

/-! ### What each command does -/

/-- R150, R151, R153, R160: with its regions in DMEM, every entry in range, enough capacity and no overlap, `PERMUTE`
completes; output bit `i` is the source bit that entry `i` selects, in the order of the word, and the unused bits are 0.
R120, R152: the table is the ROM table that `TSRC` numbers, or for `TSRC = 0` the `TBL_LEN` big-endian 16-bit entries at
`TBL_ADDR`; the origins are 0 and 1. R12: bit `j` of a buffer is bit `7 - j mod 8` of byte `j div 8` in MSB-first order and
bit `j mod 8` of it in LSB-first order. R460: no overlap means that no address of `[DST_ADDR, DST_ADDR + ceil(t/8))` lies
in the source region, nor, for `TSRC = 0`, in the table region. -/
def Obligations.PermuteSelectsBits : Prop :=
  (∀ (buf : Bytes) (j : Nat) (h : j / 8 < buf.length),
    (bitAt .msb buf j).toNat = (buf[j / 8].toNat >>> (7 - j % 8)) % 2 ∧
    (bitAt .lsb buf j).toNat = (buf[j / 8].toNat >>> (j % 8)) % 2) ∧
  originNat .zero = 0 ∧ originNat .one = 1 ∧
  (∀ s : State,
    tableOperand s 1#3 = s.par.rom.ip ∧ tableOperand s 2#3 = s.par.rom.fp ∧ tableOperand s 3#3 = s.par.rom.e ∧
    tableOperand s 4#3 = s.par.rom.p ∧ tableOperand s 5#3 = s.par.rom.pc1 ∧ tableOperand s 6#3 = s.par.rom.pc2 ∧
    (tableOperand s 0#3).length = s.tblLen.toNat ∧
    ∀ k, k < s.tblLen.toNat → (tableOperand s 0#3)[k]? =
      some (256 * (s.dmem.read (s.tblAddr.toNat + 2 * k)).toNat + (s.dmem.read (s.tblAddr.toNat + 2 * k + 1)).toNat)) ∧
  ∀ (ord : BitOrder) (org : Origin) (tsrc : BitVec 3) (s : State), tsrc ≠ 7#3 → s.dmem.wf →
    sourceInRange s = true → (tsrc = 0#3 → tableInDmem s = true) → destInRange s = true →
    (∀ v ∈ tableOperand s tsrc, originNat org ≤ v ∧ v < originNat org + 8 * s.srcLen.toNat) →
    ((tableOperand s tsrc).length + 7) / 8 ≤ s.dstCap.toNat →
    ¬ permuteOverlap tsrc s (tableOperand s tsrc).length →
    ∃ t, exec (.permute ord org tsrc) s = .next t ∧ t.errcode = none ∧
      t.outLen.toNat = ((tableOperand s tsrc).length + 7) / 8 ∧
      (∀ (i : Nat) (h : i < (tableOperand s tsrc).length),
        bitAt ord (t.dmem.readBytes s.dstAddr.toNat t.outLen.toNat) i =
          bitAt ord (sourceBytes s) ((tableOperand s tsrc)[i] - originNat org)) ∧
      ∀ i, (tableOperand s tsrc).length ≤ i →
        bitAt ord (t.dmem.readBytes s.dstAddr.toNat t.outLen.toNat) i = false

/-- R153, R160: a capacity below `ceil(t/8)`, or an entry outside `[org, org + 8*SRC_LEN)`, raises INVALID_ARGUMENT; so
does every entry of an empty source. R120: `org` is 0 or 1. -/
def Obligations.PermuteInvalidTableRaises : Prop :=
  originNat .zero = 0 ∧ originNat .one = 1 ∧
  ∀ (ord : BitOrder) (org : Origin) (tsrc : BitVec 3) (s : State), tsrc ≠ 7#3 → sourceInRange s = true →
    (tsrc = 0#3 → tableInDmem s = true) → destInRange s = true →
    (s.dstCap.toNat < ((tableOperand s tsrc).length + 7) / 8 ∨
      ∃ v ∈ tableOperand s tsrc, v < originNat org ∨ originNat org + 8 * s.srcLen.toNat ≤ v) →
    exec (.permute ord org tsrc) s = .next (s.raise .invalidArgument)

/-- R460 and 93 U3, as the model takes them (log 6): a `PERMUTE` that no check of R160 stops and whose destination overlaps
its source or DMEM table (an address of `[DST_ADDR, DST_ADDR + ceil(t/8))` lies in one of them)
completes and changes only its `ceil(t/8)` destination bytes, `OUT_LEN`, `ERRCODE` and the model's count of free bytes.
The statement holds for every value those bytes may have. -/
def Obligations.PermuteOverlapChangesOnlyDestination : Prop :=
  ∀ (ord : BitOrder) (org : Origin) (tsrc : BitVec 3) (s : State), tsrc ≠ 7#3 → s.dmem.wf →
    sourceInRange s = true → (tsrc = 0#3 → tableInDmem s = true) → destInRange s = true →
    (∀ v ∈ tableOperand s tsrc, originNat org ≤ v ∧ v < originNat org + 8 * s.srcLen.toNat) →
    ((tableOperand s tsrc).length + 7) / 8 ≤ s.dstCap.toNat →
    permuteOverlap tsrc s (tableOperand s tsrc).length →
    ∃ t, exec (.permute ord org tsrc) s = .next t ∧ t.errcode = none ∧
      t.outLen.toNat = ((tableOperand s tsrc).length + 7) / 8 ∧
      t = { s with dmem := t.dmem, outLen := t.outLen, errcode := none, draws := t.draws } ∧
      ∀ a, a < s.dstAddr.toNat ∨ s.dstAddr.toNat + ((tableOperand s tsrc).length + 7) / 8 ≤ a →
        t.dmem.read a = s.dmem.read a

/-- R214: with a legal key length (8 bytes for the base scheduler, 16, 24 or 32 for the compound one) and enough capacity
`KSGEN` writes the 16 round keys of 6 or 8 bytes in round order, 96 or 128 bytes; with a destination in DMEM, another key
length or too little capacity raises INVALID_ARGUMENT. -/
def Obligations.KsgenWritesRoundKeys : Prop :=
  ∀ (k : Cipher) (s : State) (n : Nat), n = (if k = .base then 96 else 128) → destInRange s = true →
    (romValid s.par.rom = true → s.dmem.wf → keyLengthRule k s.keyLen.toNat → n ≤ s.dstCap.toNat →
      ∃ t keys, exec (.ksgen k) s = .next t ∧ keySchedule s.par.rom k (keyOperand s) = .ok keys ∧ keys.length = 16 ∧
        (∀ x ∈ keys, x.length = if k = .base then 6 else 8) ∧
        t.errcode = none ∧ t.outLen.toNat = n ∧ t.dmem.readBytes s.dstAddr.toNat n = keys.flatten) ∧
    (¬ keyLengthRule k s.keyLen.toNat ∨ s.dstCap.toNat < n →
      exec (.ksgen k) s = .next (s.raise .invalidArgument))

/-- R215, R250, R280: with the sizes of `FSEL` `RFN` writes the round function of the source under the key: the base
round, or a whole base-cipher encryption. With its regions in DMEM, any other size raises INVALID_ARGUMENT. -/
def Obligations.RfnAppliesRoundFunction : Prop :=
  ∀ s : State, sourceInRange s = true → destInRange s = true →
    (romValid s.par.rom = true → s.dmem.wf → s.srcLen.toNat = 4 → s.keyLen.toNat = 6 → 4 ≤ s.dstCap.toNat →
      ∃ t, exec (.rfn .base) s = .next t ∧ t.errcode = none ∧ t.outLen.toNat = 4 ∧
        t.dmem.readBytes s.dstAddr.toNat 4 = baseRound s.par.rom (sourceBytes s) (keyOperand s)) ∧
    (romValid s.par.rom = true → s.dmem.wf → s.srcLen.toNat = 8 → s.keyLen.toNat = 8 → 8 ≤ s.dstCap.toNat →
      ∃ t, exec (.rfn .adapter) s = .next t ∧ t.errcode = none ∧ t.outLen.toNat = 8 ∧
        t.dmem.readBytes s.dstAddr.toNat 8 =
          baseEncrypt s.par.rom (baseRoundKeys s.par.rom (keyOperand s)) (sourceBytes s)) ∧
    (s.srcLen.toNat ≠ 4 ∨ s.keyLen.toNat ≠ 6 ∨ s.dstCap.toNat < 4 →
      exec (.rfn .base) s = .next (s.raise .invalidArgument)) ∧
    (s.srcLen.toNat ≠ 8 ∨ s.keyLen.toNat ≠ 8 ∨ s.dstCap.toNat < 8 →
      exec (.rfn .adapter) s = .next (s.raise .invalidArgument))

/-- R210: with a legal key length (8 bytes for the base cipher, 16, 24 or 32 for the compound one) `KEYINIT`
loads the 16 round keys of the selected cipher, of 6 or 8 bytes, and sets
`INIT`, changing nothing else; with another length it raises INVALID_ARGUMENT and keeps the old keys. -/
def Obligations.KeyinitLoadsRoundKeys : Prop :=
  ∀ s : State,
    (romValid s.par.rom = true → keyLengthRule s.cipher s.keyLen.toNat →
      ∃ keys, exec .keyinit s = .next { s with rk := keys, init := true, errcode := none, outLen := 0#32 } ∧
        keySchedule s.par.rom s.cipher (keyOperand s) = .ok keys ∧ keys.length = 16 ∧
        roundKeyLength s.cipher = (if s.cipher = .base then 6 else 8) ∧
        ∀ k ∈ keys, k.length = roundKeyLength s.cipher) ∧
    (¬ keyLengthRule s.cipher s.keyLen.toNat → exec .keyinit s = .next (s.raise .invalidArgument))

/-- R211, R212, R209: with `INIT = 1` and one block of source, `ENCB` and `DECB` complete and write the block that the
selected cipher makes of it: the base cipher is the Feistel engine over the base round at block size 8 between `IP` and
`FP` (R260, R261); the compound cipher is the Feistel engine over the adapter, one whole base encryption under the round
key (R280), at block size 16, with no permutation before or after (R290, R291). -/
def Obligations.BlockCommandsTransformOneBlock : Prop :=
  ∀ s : State, romValid s.par.rom = true → s.dmem.wf → sourceInRange s = true → destInRange s = true →
    s.srcLen.toNat = blockSize s → blockSize s ≤ s.dstCap.toNat → s.init = true →
    ∃ t u, exec .encb s = .next t ∧ exec .decb s = .next u ∧ t.errcode = none ∧ u.errcode = none ∧
      t.outLen.toNat = blockSize s ∧ u.outLen.toNat = blockSize s ∧
      t.dmem.readBytes s.dstAddr.toNat (blockSize s) = cipherEncrypt s.par.rom s.cipher s.rk (sourceBytes s) ∧
      u.dmem.readBytes s.dstAddr.toNat (blockSize s) = cipherDecrypt s.par.rom s.cipher s.rk (sourceBytes s) ∧
      (s.cipher = .base → blockSize s = 8 ∧
        t.dmem.readBytes s.dstAddr.toNat 8 = permuteBits (feistelEncrypt (baseRound s.par.rom) 8 s.rk
          (permuteBits (sourceBytes s) s.par.rom.ip .msb 1)) s.par.rom.fp .msb 1 ∧
        u.dmem.readBytes s.dstAddr.toNat 8 = permuteBits (feistelDecrypt (baseRound s.par.rom) 8 s.rk
          (permuteBits (sourceBytes s) s.par.rom.ip .msb 1)) s.par.rom.fp .msb 1) ∧
      (s.cipher = .compound → blockSize s = 16 ∧
        t.dmem.readBytes s.dstAddr.toNat 16 = feistelEncrypt
          (fun h k => baseEncrypt s.par.rom (baseRoundKeys s.par.rom k) h) 16 s.rk (sourceBytes s) ∧
        u.dmem.readBytes s.dstAddr.toNat 16 = feistelDecrypt
          (fun h k => baseEncrypt s.par.rom (baseRoundKeys s.par.rom k) h) 16 s.rk (sourceBytes s))

/-- R320: `CTXSET` latches mode and scheme, copies `IV[0 .. B)` for a non-ECB mode whose `IVLEN` is `B`, keeps `ctx.IV`
for ECB, and sets `CTXV`; a non-ECB mode with another `IVLEN` raises INVALID_ARGUMENT. -/
def Obligations.CtxsetLatchesContext : Prop :=
  ∀ (s : State) (m : Mode) (p : PadScheme),
    (m = .ecb → exec (.ctxset m.field p) s = .next
      { s with ctxMode := m, ctxPad := p, ctxv := true, errcode := none, outLen := 0#32 }) ∧
    (m ≠ .ecb → s.ivLen.toNat = blockSize s →
      (ivOperand s).length = blockSize s ∧
        exec (.ctxset m.field p) s = .next
          { s with ctxMode := m, ctxPad := p, ctxIv := ivOperand s, ctxv := true, errcode := none, outLen := 0#32 }) ∧
    (m ≠ .ecb → s.ivLen.toNat ≠ blockSize s →
      exec (.ctxset m.field p) s = .next (s.raise .invalidArgument))

/-- R321, R328, R310, R311: with a context, a key and enough capacity `MENC` completes. Its data is the source in a
stream-like mode, and in a padded mode the source followed by the padding of the latched scheme, whose length is that of
R360 and whose bytes are those of R362 to R365, so a whole number of blocks. It writes as many bytes as the data has, the
mode's encryption of the data under the selected cipher, `ctx.IV` and the delta sequence seeded from it, and these satisfy
the mode's equations (R315 to R319, R323, R324). -/
def Obligations.MencEncryptsBuffer : Prop :=
  ∀ (s : State) (n : Nat), Inv s → sourceInRange s = true → destInRange s = true → s.ctxv = true → s.init = true →
    n = (if streamMode s.ctxMode then 0
      else padLengthRule (fullBlockPad s.par s.ctxPad) s.srcLen.toNat (blockSize s)) →
    s.srcLen.toNat + n ≤ s.dstCap.toNat →
    ∃ t tail, exec .menc s = .next t ∧ t.errcode = none ∧ t.outLen.toNat = s.srcLen.toNat + n ∧
      mencLength s = s.srcLen.toNat + n ∧ mencData s = sourceBytes s ++ tail ∧ paddingRule s.ctxPad n tail ∧
      (streamMode s.ctxMode = false → (s.srcLen.toNat + n) % blockSize s = 0) ∧
      t.dmem.readBytes s.dstAddr.toNat (s.srcLen.toNat + n) =
        modeEncrypt (cipherEncrypt s.par.rom s.cipher s.rk) (deltaGen (blockSize s) (seedOf s.ctxIv)) (blockSize s)
          s.ctxMode s.ctxIv (sourceBytes s ++ tail) ∧
      encryptsTo (cipherEncrypt s.par.rom s.cipher s.rk) (deltaGen (blockSize s) (seedOf s.ctxIv)) (blockSize s)
        s.ctxMode s.ctxIv (sourceBytes s ++ tail) (t.dmem.readBytes s.dstAddr.toNat (s.srcLen.toNat + n))

/-- R322, R310: with a context, a key, a legal length and enough capacity `MDEC` completes when its padding validates (always
in a stream-like mode), and writes the decrypted data without its padding; when the padding does not validate it raises
PADDING_VALIDATION. The decrypted data is the mode's decryption of the source under the selected cipher, `ctx.IV` and the
delta sequence seeded from it, and satisfies the mode's equations (R315 to R319, R323, R324). The data without its padding
is R366's and R368's: without every trailing zero byte under Zeros, else without as many last bytes as the last one
says. -/
def Obligations.MdecDecryptsBuffer : Prop :=
  ∀ (s : State) (data : Bytes), Inv s → sourceInRange s = true → destInRange s = true → s.ctxv = true →
    s.init = true → s.srcLen.toNat ≤ s.dstCap.toNat →
    (streamMode s.ctxMode = false → s.srcLen.toNat % blockSize s = 0) →
    data = modeDecrypt (cipherEncrypt s.par.rom s.cipher s.rk) (cipherDecrypt s.par.rom s.cipher s.rk)
      (deltaGen (blockSize s) (seedOf s.ctxIv)) (blockSize s) s.ctxMode s.ctxIv (sourceBytes s) →
    mdecData s = data ∧
    decryptsTo (cipherEncrypt s.par.rom s.cipher s.rk) (cipherDecrypt s.par.rom s.cipher s.rk)
      (deltaGen (blockSize s) (seedOf s.ctxIv)) (blockSize s) s.ctxMode s.ctxIv (sourceBytes s) data ∧
    (streamMode s.ctxMode = true →
      ∃ t, exec .mdec s = .next t ∧ t.errcode = none ∧ t.outLen = s.srcLen ∧
        t.dmem.readBytes s.dstAddr.toNat s.srcLen.toNat = data) ∧
    (streamMode s.ctxMode = false →
      (∀ out, unpadBytes data (blockSize s) s.ctxPad = .ok out →
        ∃ t, exec .mdec s = .next t ∧ t.errcode = none ∧ unpaddingRule s.ctxPad data out ∧
          t.outLen.toNat = out.length ∧ t.dmem.readBytes s.dstAddr.toNat out.length = out) ∧
      ∀ e, unpadBytes data (blockSize s) s.ctxPad = .error e →
        exec .mdec s = .next (s.raise .paddingValidation))

/-- R370, R360 to R365: with enough capacity `PAD` completes and writes the source followed by its padding; under the
schemes other than ISO 10126 the padding bytes are the rule's, and under ISO 10126 all but the last are free and the last
is the pad length. With too little capacity, INVALID_ARGUMENT. -/
def Obligations.PadWritesPaddedData : Prop :=
  ∀ (p : PadScheme) (s : State) (n : Nat), sourceInRange s = true → destInRange s = true →
    n = (if s.srcLen.toNat % blockSize s ≠ 0 then blockSize s - s.srcLen.toNat % blockSize s
      else if fullBlockPad s.par p then blockSize s else 0) →
    (s.dmem.wf → s.srcLen.toNat + n ≤ s.dstCap.toNat →
      ∃ t tail, exec (.pad p) s = .next t ∧ t.errcode = none ∧ t.outLen.toNat = s.srcLen.toNat + n ∧
        tail.length = n ∧ (s.srcLen.toNat + n) % blockSize s = 0 ∧
        t.dmem.readBytes s.dstAddr.toNat (s.srcLen.toNat + n) = sourceBytes s ++ tail ∧
        (p = .zeros → ∀ j, j < n → tail.getD j 0#8 = 0#8) ∧
        (p = .ansiX923 → ∀ j, j + 1 < n → tail.getD j 0#8 = 0#8) ∧
        (p = .pkcs7 → ∀ j, j < n → tail.getD j 0#8 = BitVec.ofNat 8 n) ∧
        (p ≠ .zeros → 0 < n → tail.getLastD 0#8 = BitVec.ofNat 8 n)) ∧
    (s.dstCap.toNat < s.srcLen.toNat + n → exec (.pad p) s = .next (s.raise .invalidArgument))

/-- R371: with enough capacity `UNPAD` completes when the padding validates and writes the data without it: without every
trailing zero byte under Zeros (R368), else without as many last bytes as the last one says (R366); when it does not
validate (UnpadFailsExactly), PADDING_VALIDATION; with too little capacity, INVALID_ARGUMENT. -/
def Obligations.UnpadWritesUnpaddedData : Prop :=
  ∀ (p : PadScheme) (s : State), s.dmem.wf → sourceInRange s = true → destInRange s = true →
    (s.srcLen.toNat ≤ s.dstCap.toNat →
      (∀ out, unpadBytes (sourceBytes s) (blockSize s) p = .ok out →
        ∃ t, exec (.unpad p) s = .next t ∧ t.errcode = none ∧ unpaddingRule p (sourceBytes s) out ∧
          t.outLen.toNat = out.length ∧ t.dmem.readBytes s.dstAddr.toNat out.length = out) ∧
      ∀ e, unpadBytes (sourceBytes s) (blockSize s) p = .error e →
        exec (.unpad p) s = .next (s.raise .paddingValidation)) ∧
    (s.dstCap.toNat < s.srcLen.toNat → exec (.unpad p) s = .next (s.raise .invalidArgument))

/-! ### Frames -/

/-- R47, R81: the frame of the nine commands that write a DMEM result (PERMUTE, KSGEN, RFN, ENCB, DECB, MENC, MDEC, PAD,
UNPAD): of all state only DMEM, `OUT_LEN`, `ERRCODE` and the model's count of free bytes may change, the bytes stored
are the first `OUT_LEN` from `DST_ADDR`, at most `DST_CAP` of them, and every other DMEM byte is unchanged; `ERRCODE` is
0 or an error, and with an error no byte changes and `OUT_LEN` is 0. -/
def Obligations.DmemCommandsFrame : Prop :=
  ∀ (i : Instr) (s t : State), Inv s → usesDest i = true → exec i s = .next t →
    t = { s with dmem := t.dmem, outLen := t.outLen, errcode := t.errcode, draws := t.draws } ∧
    t.outLen.toNat ≤ s.dstCap.toNat ∧
    (∀ a, a < s.dstAddr.toNat ∨ s.dstAddr.toNat + t.outLen.toNat ≤ a → t.dmem.read a = s.dmem.read a) ∧
    (t.errcode ≠ none → t.dmem = s.dmem ∧ t.outLen = 0#32 ∧ t.draws = s.draws)

/-- R210, R216, R320: the frame of `KEYINIT` and `CTXSET`: `KEYINIT` may change `RK`, `INIT`, `ERRCODE` and `OUT_LEN`,
`CTXSET` the context, `CTXV`, `ERRCODE` and `OUT_LEN`; every other register and every DMEM byte is unchanged. -/
def Obligations.KeyAndContextCommandsFrame : Prop :=
  (∀ s t : State, exec .keyinit s = .next t →
    t = { s with rk := t.rk, init := t.init, errcode := t.errcode, outLen := t.outLen } ∧
    (∀ a, t.dmem.read a = s.dmem.read a) ∧ (s.init = true → t.init = true) ∧ t.outLen = 0#32) ∧
  ∀ (f : BitVec 3) (p : PadScheme) (s t : State), exec (.ctxset f p) s = .next t →
    t = { s with ctxMode := t.ctxMode, ctxPad := t.ctxPad, ctxIv := t.ctxIv, ctxv := t.ctxv, errcode := t.errcode,
                 outLen := t.outLen } ∧
    (∀ a, t.dmem.read a = s.dmem.read a) ∧ (s.ctxv = true → t.ctxv = true) ∧ t.outLen = 0#32

/-- R94, R461: for every command but `PERMUTE` the result does not depend on where the destination lies: moved to any
other place in DMEM, overlapping its source or not, the command writes the same bytes. (Under ISO 10126 the two runs are
compared with the same fill bytes drawn, which is the model's choice, log 5, unsafe for such a comparison.) -/
def Obligations.OverlapDoesNotChangeResult : Prop :=
  ∀ (i : Instr) (s t : State) (b : Word), Inv s → usesDest i = true → (∀ o g r, i ≠ .permute o g r) →
    exec i s = .next t → t.errcode = none → b.toNat + s.dstCap.toNat ≤ s.par.dmemSize →
    ∃ u, exec i { s with dstAddr := b } = .next u ∧ u.errcode = none ∧ u.outLen = t.outLen ∧
      u.dmem.readBytes b.toNat t.outLen.toNat = t.dmem.readBytes s.dstAddr.toNat t.outLen.toNat

/-! ### The ciphers (42 to 44) -/

/-- R206: for every round function, every key sequence and every block, `FeistelDecrypt` undoes `FeistelEncrypt`. -/
def Obligations.FeistelDecryptInvertsEncrypt : Prop :=
  ∀ (rf : Bytes → Bytes → Bytes) (bk : Nat) (rk : List Bytes) (x : Bytes), bk % 2 = 0 → x.length = bk →
    (∀ h k, k ∈ rk → h.length = bk / 2 → (rf h k).length = bk / 2) →
    feistelDecrypt rf bk rk (feistelEncrypt rf bk rk x) = x

/-- R190: the properties (a) to (g) of the default ROM. -/
def Obligations.DefaultRomProperties : Prop :=
  (∀ k, k < 64 → romDefault.fp.getD (romDefault.ip.getD k 0 - 1) 0 = k + 1) ∧
  (∀ x : Bytes, x.length = 8 →
    permuteBits (permuteBits x romDefault.ip .msb 1) romDefault.fp .msb 1 = x) ∧
  (∀ j row v, j < 8 → row < 4 → v < 16 → ∃ col, col < 16 ∧ (romSbox romDefault j row col).toNat = v) ∧
  romDefault.shifts.sum = 28 ∧
  (romDefault.pc1.length = 56 ∧ romDefault.pc1.Nodup ∧ ∀ v ∈ romDefault.pc1, 1 ≤ v ∧ v ≤ 64 ∧ v % 8 ≠ 0) ∧
  (romDefault.pc2.length = 48 ∧ romDefault.pc2.Nodup ∧ ∀ v ∈ romDefault.pc2, 1 ≤ v ∧ v ≤ 56) ∧
  ((∀ v ∈ romDefault.e, 1 ≤ v ∧ v ≤ 32) ∧ ∀ v, 1 ≤ v → v ≤ 32 → v ∈ romDefault.e) ∧
  (romDefault.p.length = 32 ∧ ∀ v, v ∈ romDefault.p ↔ 1 ≤ v ∧ v ≤ 32)

/-- R213: for either cipher and whatever legal key `KEYINIT` loaded, `DECB` applied to the output of `ENCB`, wherever it is
written, returns the input block. For the base cipher the ROM is the default one, whose `FP` inverts `IP` (R190, R261);
the compound cipher's round trip needs no such ROM. -/
def Obligations.BlockRoundTripThroughDmem : Prop :=
  ∀ (s t : State) (a c : Word), Inv s → (s.par.rom = romDefault ∨ s.cipher = .compound) → exec .encb s = .next t → t.errcode = none →
    blockSize s ≤ c.toNat → a.toNat + c.toNat ≤ s.par.dmemSize →
    ∃ u, exec .decb { t with srcAddr := s.dstAddr, srcLen := t.outLen, dstAddr := a, dstCap := c } = .next u ∧
      u.errcode = none ∧ u.outLen.toNat = blockSize s ∧
      u.dmem.readBytes a.toNat (blockSize s) = sourceBytes s

/-- R247: two keys that differ only in the least significant bit of each byte give the same round keys and the same
cipher. -/
def Obligations.ParityBitsNeverMatter : Prop :=
  ∀ k k' : Bytes, k.length = 8 → k'.length = 8 →
    (∀ i, i < 8 → (k.getD i 0#8).extractLsb' 1 7 = (k'.getD i 0#8).extractLsb' 1 7) →
    baseRoundKeys romDefault k = baseRoundKeys romDefault k' ∧
      ∀ x : Bytes, baseEncrypt romDefault (baseRoundKeys romDefault k) x =
        baseEncrypt romDefault (baseRoundKeys romDefault k') x

/-- R263: complementing the key and the block complements the ciphertext, for any structurally valid ROM; and the rule's
example with the default ROM. (That a ROM may hold rotation amounts other than 1 and 2, and how they rotate, is the
model's choice, log 18.) -/
def Obligations.ComplementationProperty : Prop :=
  (∀ (rom : Rom) (k x : Bytes), romValid rom = true → k.length = 8 → x.length = 8 →
    baseEncrypt rom (baseRoundKeys rom (complementBytes k)) (complementBytes x) =
      complementBytes (baseEncrypt rom (baseRoundKeys rom k) x)) ∧
  baseEncrypt romDefault (baseRoundKeys romDefault (zeroBytes 8)) (zeroBytes 8) =
    [0x4C#8, 0x59#8, 0x8E#8, 0xD6#8, 0xC2#8, 0x72#8, 0x13#8, 0x5B#8] ∧
  baseEncrypt romDefault (baseRoundKeys romDefault (List.replicate 8 0xFF#8)) (List.replicate 8 0xFF#8) =
    [0xB3#8, 0xA6#8, 0x71#8, 0x29#8, 0x3D#8, 0x8D#8, 0xEC#8, 0xA4#8]

/-- R245, R246: rotations accumulate: round key `i` is `PC2` of the halves rotated left by the sum of the amounts of
rounds 0 to `i`. (R246 defines the amounts 1 and 2 only; that 0 and 3 to 28 rotate likewise is the model's choice,
log 18.) -/
def Obligations.RotationsAccumulate : Prop :=
  ∀ (rom : Rom) (key : Bytes) (i : Nat), (∀ n ∈ rom.shifts, n ≤ 28) → i < rom.shifts.length →
    (baseRoundKeys rom key)[i]? = some (bp (bebytes
      (((keyHalves rom key).extractLsb' 28 28).rotateLeft (rom.shifts.take (i + 1)).sum ++
        ((keyHalves rom key).extractLsb' 0 28).rotateLeft (rom.shifts.take (i + 1)).sum).toNat 7) rom.pc2)

/-- R285: the compound scheduler accepts 16, 24 and 32 bytes only, else INVALID_ARGUMENT, and gives 16 round keys of 8 raw
key bytes, round `i` segment `i mod m` for `m = n / 8`. -/
def Obligations.CompoundScheduleIsCyclic : Prop :=
  ∀ key : Bytes,
    (¬ (key.length = 16 ∨ key.length = 24 ∨ key.length = 32) → compKeySchedule key = .error .invalidArgument) ∧
    (key.length = 16 ∨ key.length = 24 ∨ key.length = 32 →
      ∃ rk, compKeySchedule key = .ok rk ∧ rk.length = 16 ∧
        ∀ i, i < 16 → (rk.getD i []).length = 8 ∧
          ∀ j, j < 8 → (rk.getD i []).getD j 0#8 = key.getD (8 * (i % (key.length / 8)) + j) 0#8)

/-- R262, R203: the engine's base cipher is FIPS DES with the last swap left in place. DES is written out here without the
engine's Feistel functions, its last round exchanging nothing; the rule's example says which it is. -/
def Obligations.BaseCipherIsDesWithSwapKept : Prop :=
  (∀ key x : Bytes, key.length = 8 → x.length = 8 →
    baseEncrypt romDefault (baseRoundKeys romDefault key) x =
      bp (swap32 (bp (desEncrypt romDefault (baseRoundKeys romDefault key) x) romDefault.ip)) romDefault.fp) ∧
  desEncrypt romDefault
      (baseRoundKeys romDefault [0x13#8, 0x34#8, 0x57#8, 0x79#8, 0x9B#8, 0xBC#8, 0xDF#8, 0xF1#8])
      [0x01#8, 0x23#8, 0x45#8, 0x67#8, 0x89#8, 0xAB#8, 0xCD#8, 0xEF#8] =
    [0x85#8, 0xE8#8, 0x13#8, 0x54#8, 0x0F#8, 0x0A#8, 0xB4#8, 0x05#8] ∧
  baseEncrypt romDefault
      (baseRoundKeys romDefault [0x13#8, 0x34#8, 0x57#8, 0x79#8, 0x9B#8, 0xBC#8, 0xDF#8, 0xF1#8])
      [0x01#8, 0x23#8, 0x45#8, 0x67#8, 0x89#8, 0xAB#8, 0xCD#8, 0xEF#8] =
    [0x4A#8, 0xD4#8, 0x23#8, 0xA8#8, 0x0F#8, 0x05#8, 0x78#8, 0x0A#8]

/-- R215, R280: `RFN ADAPTER` writes what `KEYINIT` and then `ENCB` of the base cipher write, and needs no `KEYINIT`. -/
def Obligations.RfnAdapterEqualsKeyinitThenEncb : Prop :=
  ∀ s : State, romValid s.par.rom = true → s.cipher = .base → s.keyLen.toNat = 8 → s.srcLen.toNat = 8 →
    8 ≤ s.dstCap.toNat → sourceInRange s = true → destInRange s = true →
    ∃ t u v, exec .keyinit s = .next t ∧ exec .encb t = .next u ∧ exec (.rfn .adapter) s = .next v ∧
      u.errcode = none ∧ v.errcode = none ∧ u.outLen = v.outLen ∧ u.dmem = v.dmem ∧ v.init = s.init ∧ v.rk = s.rk

/-! ### Modes and padding (45, 46) -/

/-- R315 to R319, R323, R324, R313: for any block functions, any delta sequence and any IV of `B` bytes, `ModeEncrypt` and
`ModeDecrypt` satisfy the equations of their mode block by block, in the padded modes on a whole number of blocks, in the
stream-like modes on any length. R330: and `ModeDecrypt` inverts `ModeEncrypt`. -/
def Obligations.ModeDecryptInvertsEncrypt : Prop :=
  ∀ (E D : Bytes → Bytes) (delta : Nat → Bytes) (B : Nat) (mode : Mode) (iv p : Bytes), 0 < B → iv.length = B →
    (∀ x : Bytes, x.length = B → (E x).length = B) → (∀ i, (delta i).length = B) →
    (streamMode mode = false → p.length % B = 0) →
    encryptsTo E delta B mode iv p (modeEncrypt E delta B mode iv p) ∧
    ((∀ x : Bytes, x.length = B → (D x).length = B) →
      decryptsTo E D delta B mode iv p (modeDecrypt E D delta B mode iv p)) ∧
    (modeEncrypt E delta B mode iv p).length = p.length ∧
    ((∀ x : Bytes, x.length = B → D (E x) = x) →
      modeDecrypt E D delta B mode iv (modeEncrypt E delta B mode iv p) = p)

/-- R330, R372: `MDEC` applied to the output of `MENC`, with the same context and keys, restores the source data in every
stream-like mode, under PKCS7, under ANSI X.923 and ISO 10126 when the length is no positive multiple of `B` or the scheme
is in `FULL_BLOCK_PAD`, and under Zeros when the data is empty or does not end in a zero byte. For every value the ISO
10126 fill may have. For the base cipher the ROM is the default one, whose `FP` inverts `IP` (R190). -/
def Obligations.MencThenMdecRestoresData : Prop :=
  ∀ (s t : State) (a c : Word), Inv s → (s.par.rom = romDefault ∨ s.cipher = .compound) → exec .menc s = .next t → t.errcode = none →
    (streamMode s.ctxMode = true ∨ s.ctxPad = .pkcs7 ∨
      ((s.ctxPad = .ansiX923 ∨ s.ctxPad = .iso10126) ∧
        (s.srcLen.toNat % blockSize s ≠ 0 ∨ s.srcLen.toNat = 0 ∨ fullBlockPad s.par s.ctxPad = true)) ∨
      (s.ctxPad = .zeros ∧ (s.srcLen.toNat = 0 ∨ (sourceBytes s).getLastD 0#8 ≠ 0#8))) →
    t.outLen.toNat ≤ c.toNat → a.toNat + c.toNat ≤ s.par.dmemSize →
    ∃ u, exec .mdec { t with srcAddr := s.dstAddr, srcLen := t.outLen, dstAddr := a, dstCap := c } = .next u ∧
      u.errcode = none ∧ u.outLen = s.srcLen ∧ u.dmem.readBytes a.toNat s.srcLen.toNat = sourceBytes s

/-- R317: no block of a PCBC ciphertext depends on the IV, and decryption under any IV restores the plaintext. -/
def Obligations.PcbcIgnoresIv : Prop :=
  ∀ (E D : Bytes → Bytes) (delta : Nat → Bytes) (B : Nat) (iv iv' p : Bytes), 0 < B → iv.length = B →
    iv'.length = B → p.length % B = 0 → (∀ x : Bytes, x.length = B → (E x).length = B ∧ D (E x) = x) →
    modeEncrypt E delta B .pcbc iv p = modeEncrypt E delta B .pcbc iv' p ∧
      modeDecrypt E D delta B .pcbc iv' (modeEncrypt E delta B .pcbc iv p) = p

/-- R331: flipping bits of byte `j` of CBC ciphertext block `k` changes decrypted block `k`, flips the same bits of byte
`j` of block `k+1` and nothing else of it, and leaves every other block as it was. -/
def Obligations.CbcErrorPropagation : Prop :=
  ∀ (D : Bytes → Bytes) (B : Nat) (iv : Bytes) (cs : List Bytes) (k j : Nat) (flip : Byte), iv.length = B →
    (∀ c ∈ cs, c.length = B) → (∀ x : Bytes, x.length = B → (D x).length = B) →
    (∀ x y : Bytes, x.length = B → y.length = B → D x = D y → x = y) →
    k < cs.length → j < B → flip ≠ 0#8 →
    ∀ c' : Bytes, c' = (cs.getD k []).set j ((cs.getD k []).getD j 0#8 ^^^ flip) →
      (cbcDecrypt D iv (cs.set k c')).getD k [] ≠ (cbcDecrypt D iv cs).getD k [] ∧
      (k + 1 < cs.length → (cbcDecrypt D iv (cs.set k c')).getD (k + 1) [] =
        ((cbcDecrypt D iv cs).getD (k + 1) []).set j
          (((cbcDecrypt D iv cs).getD (k + 1) []).getD j 0#8 ^^^ flip)) ∧
      ∀ i, i ≠ k → i ≠ k + 1 → (cbcDecrypt D iv (cs.set k c'))[i]? = (cbcDecrypt D iv cs)[i]?

/-- R313, R328: in a stream-like mode the output has the length of the input, and a prefix of the data encrypts to the
prefix of the ciphertext: a short last block uses the first bytes of its keystream block. -/
def Obligations.StreamModeEncryptsPrefixes : Prop :=
  ∀ (E : Bytes → Bytes) (delta : Nat → Bytes) (B : Nat) (mode : Mode) (iv p : Bytes) (n : Nat), 0 < B →
    streamMode mode = true → iv.length = B → (∀ x : Bytes, x.length = B → (E x).length = B) →
    (modeEncrypt E delta B mode iv p).length = p.length ∧
      modeEncrypt E delta B mode iv (p.take n) = (modeEncrypt E delta B mode iv p).take n

/-- R323: the CTR increment is one big-endian addition over the whole block, modulo `2^(8B)`, so `FF .. FF` wraps to
`00 .. 00`. -/
def Obligations.CtrIncrementIsBigEndian : Prop :=
  ∀ (B : Nat) (ctr : Bytes), ctr.length = B →
    (ctrIncrement B ctr).length = B ∧ be (ctrIncrement B ctr) = (be ctr + 1) % 2 ^ (8 * B) ∧
      ((∀ x ∈ ctr, x = 0xFF#8) → ctrIncrement B ctr = zeroBytes B)

/-- R332: a change of the IV behind its first 4 bytes changes the RandomDelta ciphertext of every non-empty buffer, for
every `SeedOf` and every `DeltaGen`. -/
def Obligations.RandomDeltaIvTailMatters : Prop :=
  ∀ (E : Bytes → Bytes) (B : Nat) (iv iv' p : Bytes), 0 < B → iv.length = B → iv'.length = B →
    iv.take 4 = iv'.take 4 → iv ≠ iv' → p ≠ [] → p.length % B = 0 →
    (∀ x : Bytes, x.length = B → (E x).length = B) →
    (∀ x y : Bytes, x.length = B → y.length = B → E x = E y → x = y) →
    modeEncrypt E (deltaGen B (seedOf iv)) B .randomDelta iv p ≠
      modeEncrypt E (deltaGen B (seedOf iv')) B .randomDelta iv' p

/-- R372: when `Unpad(Pad(d))` restores `d`, scheme by scheme, for every block size of up to 255 bytes (a pad length is one
byte): always under PKCS7; under Zeros exactly when `d` is empty or does not end in a zero byte; under ANSI X.923 and ISO
10126, when the scheme is not in `FULL_BLOCK_PAD` as by default, exactly when the length is no positive multiple of `B`,
and always when the scheme is in it. For every value the ISO 10126 fill may have. -/
def Obligations.UnpadInvertsPad : Prop :=
  ∀ (par : Params) (B : Nat) (d fill : Bytes), 0 < B → B < 256 →
    fill.length = padDraws (fullBlockPad par) d.length B .iso10126 →
    (unpadBytes (padBytes (fullBlockPad par) d B .pkcs7 fill) B .pkcs7 = .ok d) ∧
    (unpadBytes (padBytes (fullBlockPad par) d B .zeros fill) B .zeros = .ok d ↔ d = [] ∨ d.getLastD 0#8 ≠ 0#8) ∧
    ∀ p, p = .ansiX923 ∨ p = .iso10126 →
      (fullBlockPad par p = false →
        (unpadBytes (padBytes (fullBlockPad par) d B p fill) B p = .ok d ↔ d.length % B ≠ 0 ∨ d.length = 0) ∧
        (d.length % B = 0 → 0 < d.length →
          padBytes (fullBlockPad par) d B p fill = d ∧
            (unpadBytes d B p = .error .paddingValidation ∨
              ∃ n, 1 ≤ n ∧ n ≤ B ∧ unpadBytes d B p = .ok (d.take (d.length - n))))) ∧
      (fullBlockPad par p = true → unpadBytes (padBytes (fullBlockPad par) d B p fill) B p = .ok d)

/-! ### The machine as a whole -/

/-- Every step keeps the invariant: canonical DMEM inside `DMEM_SIZE`, the round keys those of a legal key under the
selected cipher while `INIT = 1` (R51), a context IV of `B` bytes, no impossible error code, a plausible `OUT_LEN`; and
`BUSY` stays 0 between commands (R39). -/
def Obligations.StepKeepsInvariant : Prop :=
  ∀ s t : State, Inv s → step s = .next t → Inv t ∧ (s.busy = false → t.busy = false)

/-- The state after reset meets the invariant (R57), and `BUSY` is 0 there. -/
def Obligations.ResetMeetsInvariant : Prop :=
  Inv State.reset ∧ State.reset.busy = false

/-- R95, R99: a host that issues only accesses the spec defines is never stopped: every step answers a next state, and the
accesses left are legal. -/
def Obligations.LegalHostNeverStops : Prop :=
  ∀ s : State, hostLegal s → ∃ t, step s = .next t ∧ hostLegal t

/-- R37, R50, R52, R56: `RK` while `INIT = 0`, the mode context while `CTXV = 0`, and `ctx.IV` under ECB are never read:
two states that differ only there take the same step, and still differ only there. (The two states have the same engine
number and count of free bytes; that they then draw the same fill bytes and the same bytes of an overlapping `PERMUTE` is
the model's choice, logs 5 and 6, unsafe for such a comparison.) -/
def Obligations.StaleKeysAndContextAreUnobservable : Prop :=
  ∀ s t : State, publicView s = publicView t →
    (∀ s', step s = .next s' → ∃ t', step t = .next t' ∧ publicView s' = publicView t') ∧
    (∀ r, step s = .fault r → step t = .fault r) ∧ ∀ r, step s = .refused r → step t = .refused r

/-- R40, R41, R50, R55: only a write of `KEYINIT` to `CMD` sets `INIT`, only `CTXSET` sets `CTXV`, only `KEYINIT` and
reset change `RK` (that a `CFG` write keeps it is the model's choice, log 3), and `INIT` and `CTXV` are cleared only by
reset and by a `CFG` write that changes the cipher. -/
def Obligations.OnlyTheirCommandsChangeLifecycle : Prop :=
  ∀ s t : State, step s = .next t →
    (s.init = false → t.init = true →
      ∃ w rest, s.hostq = .csrWrite 0x000 4 w :: rest ∧ decode w = .ok .keyinit) ∧
    (s.ctxv = false → t.ctxv = true →
      ∃ w rest f p, s.hostq = .csrWrite 0x000 4 w :: rest ∧ decode w = .ok (.ctxset f p)) ∧
    (t.rk ≠ s.rk → ∃ rest, (∃ w, s.hostq = .csrWrite 0x000 4 w :: rest ∧ decode w = .ok .keyinit) ∨
      ∃ d, s.hostq = .reset d :: rest) ∧
    (s.init = true → t.init = false → ∃ rest,
      (∃ v, s.hostq = .csrWrite 0x008 4 v :: rest ∧ t.cipher ≠ s.cipher) ∨ ∃ d, s.hostq = .reset d :: rest) ∧
    (s.ctxv = true → t.ctxv = false → ∃ rest,
      (∃ v, s.hostq = .csrWrite 0x008 4 v :: rest ∧ t.cipher ≠ s.cipher) ∨ ∃ d, s.hostq = .reset d :: rest)

/-- R97, R432: a step of one engine leaves every other engine as it was, and the steps of two engines may be taken in
either order. (The platform as a list of engines is the model's choice, log 12.) -/
def Obligations.EnginesDoNotInteract : Prop :=
  ∀ (p q r : Platform) (j k : Nat), j ≠ k → platformStep j p = .next q → platformStep k p = .next r →
    q.length = p.length ∧ q[k]? = p[k]? ∧
      ∃ z, platformStep k q = .next z ∧ platformStep j r = .next z
end

