-- ==== Sys2Proof/Laws/Bytes.lean ====
section
/-! SUPPORT. Byte sequences: lengths, XOR, and the bits of a packed buffer (00_scope.md R10 to R13; 40 R150, R151). -/

namespace Sys2Proof.Machine

/-! ### Lengths -/

@[simp] theorem length_bebytes (v n : Nat) : (bebytes v n).length = n := by simp [bebytes]

@[simp] theorem length_zeroBytes (n : Nat) : (zeroBytes n).length = n := by simp [zeroBytes]

@[simp] theorem length_xorBytes (x y : Bytes) : (xorBytes x y).length = min x.length y.length := by
  simp [xorBytes]

@[simp] theorem length_packBits (ord : BitOrder) (bits : List Bool) :
    (packBits ord bits).length = (bits.length + 7) / 8 := by simp [packBits]

@[simp] theorem length_permuteBits (src : Bytes) (table : List Nat) (ord : BitOrder) (org : Nat) :
    (permuteBits src table ord org).length = (table.length + 7) / 8 := by simp [permuteBits, selectBits]

/-! ### XOR -/

theorem getElem_xorBytes (x y : Bytes) (i : Nat) (h : i < (xorBytes x y).length) :
    (xorBytes x y)[i] = x[i]'(by simp at h; omega) ^^^ y[i]'(by simp at h; omega) := by
  simp [xorBytes]

/-- XOR with the same bytes twice restores the first operand. -/
theorem xorBytes_cancel {x y : Bytes} (h : x.length ≤ y.length) : xorBytes (xorBytes x y) y = x := by
  refine List.ext_getElem (by simp; omega) fun i h₁ h₂ => ?_
  simp [getElem_xorBytes]

theorem xorBytes_comm (x y : Bytes) : xorBytes x y = xorBytes y x := by
  refine List.ext_getElem (by simp [Nat.min_comm]) fun i h₁ h₂ => ?_
  simp [getElem_xorBytes, BitVec.xor_comm]

theorem xorBytes_assoc (x y z : Bytes) : xorBytes (xorBytes x y) z = xorBytes x (xorBytes y z) := by
  refine List.ext_getElem (by simp [Nat.min_assoc]) fun i h₁ h₂ => ?_
  simp [getElem_xorBytes, BitVec.xor_assoc]

/-! ### Bits -/

theorem packByte_fold (ord : BitOrder) (bits : List Bool) (p : Nat) (l : List Nat) (acc : Byte) :
    (l.foldl (fun acc i => if bits.getD i false then acc ||| (1#8 <<< bitPlace ord i) else acc) acc).getLsbD p =
      (acc.getLsbD p || l.any fun i => bits.getD i false && (1#8 <<< bitPlace ord i).getLsbD p) := by
  induction l generalizing acc with
  | nil => simp
  | cons i l ih =>
    rw [List.foldl_cons, ih, List.any_cons]
    by_cases h : bits.getD i false = true
    · rw [if_pos h, h, BitVec.getLsbD_or, Bool.true_and, Bool.or_assoc]
    · rw [if_neg h, Bool.eq_false_iff.2 h, Bool.false_and, Bool.false_or]

/-- The bits of a packed byte. -/
theorem getLsbD_packByte (ord : BitOrder) (bits : List Bool) {i : Nat} (hi : i < 8) :
    (packByte ord bits).getLsbD (bitPlace ord i) = bits.getD i false := by
  rw [packByte, packByte_fold]
  have key : ∀ j < 8, ∀ i < 8, (1#8 <<< bitPlace ord j).getLsbD (bitPlace ord i) = decide (j = i) := by
    cases ord <;> decide
  rw [BitVec.getLsbD_zero, Bool.false_or, Bool.eq_iff_iff, List.any_eq_true]
  constructor
  · rintro ⟨j, hj, h⟩
    rw [List.mem_range] at hj
    rw [key j hj i hi] at h
    simp only [Bool.and_eq_true, decide_eq_true_eq] at h
    exact h.2 ▸ h.1
  · intro h
    exact ⟨i, List.mem_range.2 hi, by rw [h, key i hi i hi]; simp⟩

theorem bitAt_eq (ord : BitOrder) (buf : Bytes) (j : Nat) :
    bitAt ord buf j = (buf.getD (j / 8) 0#8).getLsbD (bitPlace ord (j % 8)) := by
  cases ord <;> rfl

/-- A bit behind the end of a buffer reads 0. -/
theorem bitAt_outside (ord : BitOrder) {buf : Bytes} {j : Nat} (h : 8 * buf.length ≤ j) : bitAt ord buf j = false := by
  rw [bitAt_eq, List.getD_eq_default _ _ (by omega), BitVec.getLsbD_zero]

/-- The bits of a packed buffer are the bits packed, zero-filled (40_bit_permutation.md R151). -/
theorem bitAt_packBits (ord : BitOrder) (bits : List Bool) (i : Nat) :
    bitAt ord (packBits ord bits) i = bits.getD i false := by
  by_cases h : i / 8 < (bits.length + 7) / 8
  · rw [bitAt_eq, packBits, List.getD_eq_getElem _ _ (by simpa using h), List.getElem_map, List.getElem_range,
      getLsbD_packByte _ _ (Nat.mod_lt _ (by omega))]
    simp only [List.getD_eq_getElem?_getD, List.getElem?_take, List.getElem?_drop,
      if_pos (Nat.mod_lt i (by omega : 0 < 8))]
    congr 2; omega
  · rw [bitAt_outside _ (by simp; omega), List.getD_eq_default _ _ (by omega)]

/-- Output bit `i` is the source bit that entry `i` selects (40_bit_permutation.md R150). -/
theorem bitAt_permuteBits (src : Bytes) (table : List Nat) (ord : BitOrder) (org : Nat) {i : Nat}
    (h : i < table.length) :
    bitAt ord (permuteBits src table ord org) i = bitAt ord src (table[i] - org) := by
  rw [permuteBits, bitAt_packBits, selectBits, List.getD_eq_getElem _ _ (by simpa using h), List.getElem_map]

/-- The unused bits of the last output byte are 0 (40_bit_permutation.md R151). -/
theorem bitAt_permuteBits_outside (src : Bytes) (table : List Nat) (ord : BitOrder) (org : Nat) {i : Nat}
    (h : table.length ≤ i) : bitAt ord (permuteBits src table ord org) i = false := by
  rw [permuteBits, bitAt_packBits, List.getD_eq_default _ _ (by simpa [selectBits] using h)]

theorem bitPlace_bitPlace (ord : BitOrder) {i : Nat} (h : i < 8) : bitPlace ord (bitPlace ord i) = i := by
  cases ord <;> simp [bitPlace]; omega

theorem bitPlace_lt (ord : BitOrder) {i : Nat} (h : i < 8) : bitPlace ord i < 8 := by
  cases ord <;> simp [bitPlace] <;> omega

/-- Two buffers of one length with the same bits are the same buffer. -/
theorem bytes_ext_bits (ord : BitOrder) {x y : Bytes} (hl : x.length = y.length)
    (h : ∀ j < 8 * x.length, bitAt ord x j = bitAt ord y j) : x = y := by
  refine List.ext_getElem hl fun k h₁ h₂ => BitVec.eq_of_getLsbD_eq fun p hp => ?_
  have := h (8 * k + bitPlace ord p) (by have := bitPlace_lt ord hp; omega)
  have hb := bitPlace_lt ord hp
  rw [bitAt_eq, bitAt_eq, show (8 * k + bitPlace ord p) / 8 = k by omega,
    show (8 * k + bitPlace ord p) % 8 = bitPlace ord p by omega, bitPlace_bitPlace ord hp,
    List.getD_eq_getElem _ _ h₁, List.getD_eq_getElem _ _ h₂] at this
  exact this

end Sys2Proof.Machine
end

