-- ==== Sys2Proof/Laws/Cipher.lean ====
section
/-! SUPPORT. The ciphers: lengths of every stage, and one Feistel round undone (42 to 44). -/

namespace Sys2Proof.Machine

@[simp] theorem length_bp (x : Bytes) (table : List Nat) : (bp x table).length = (table.length + 7) / 8 := by
  simp [bp]

/-! ### A structurally valid ROM (93_implementation_defined.md U9) -/

theorem romValid_lengths {rom : Rom} (h : romValid rom = true) :
    rom.ip.length = 64 ∧ rom.fp.length = 64 ∧ rom.e.length = 48 ∧ rom.p.length = 32 ∧ rom.pc1.length = 56 ∧
      rom.pc2.length = 48 ∧ rom.shifts.length = 16 := by
  simp only [romValid, Bool.and_eq_true, beq_iff_eq] at h
  tauto

theorem romValid_ranges {rom : Rom} (h : romValid rom = true) :
    tableInRange 64 rom.ip = true ∧ tableInRange 64 rom.fp = true ∧ tableInRange 32 rom.e = true ∧
      tableInRange 32 rom.p = true ∧ tableInRange 64 rom.pc1 = true ∧ tableInRange 56 rom.pc2 = true := by
  simp only [romValid, Bool.and_eq_true, beq_iff_eq] at h
  tauto

theorem romValid_default : romValid romDefault = true := by decide +kernel

theorem paramsValid_iff {p : Params} :
    paramsValid p = true ↔ 1 ≤ p.dmemSize ∧ p.dmemSize ≤ 2 ^ 32 ∧ romValid p.rom = true := by
  simp [paramsValid, and_assoc]

/-! ### Key schedules -/

@[simp] theorem length_roundKeysFrom (rom : Rom) (ns : List Nat) (c d : BitVec 28) :
    (roundKeysFrom rom ns c d).length = ns.length := by
  induction ns generalizing c d with
  | nil => rfl
  | cons n ns ih => simp [roundKeysFrom, ih]

/-- One round key for each rotation amount (43_base_cipher.md R248). -/
@[simp] theorem length_baseRoundKeys (rom : Rom) (key : Bytes) :
    (baseRoundKeys rom key).length = rom.shifts.length := by simp [baseRoundKeys]

theorem length_of_mem_roundKeysFrom {rom : Rom} {ns : List Nat} {c d : BitVec 28} {k : Bytes}
    (h : k ∈ roundKeysFrom rom ns c d) : k.length = (rom.pc2.length + 7) / 8 := by
  induction ns generalizing c d with
  | nil => simp [roundKeysFrom] at h
  | cons n ns ih =>
    rcases List.mem_cons.1 h with rfl | h
    · simp
    · exact ih h

/-! ### Round functions and block functions -/

theorem length_baseRound {rom : Rom} (h : romValid rom = true) (r k : Bytes) : (baseRound rom r k).length = 4 := by
  simp [baseRound, (romValid_lengths h).2.2.2.1]

theorem length_baseEncrypt {rom : Rom} (h : romValid rom = true) (rk : List Bytes) (x : Bytes) :
    (baseEncrypt rom rk x).length = 8 := by
  simp [baseEncrypt, (romValid_lengths h).2.1]

theorem length_baseDecrypt {rom : Rom} (h : romValid rom = true) (rk : List Bytes) (x : Bytes) :
    (baseDecrypt rom rk x).length = 8 := by
  simp [baseDecrypt, (romValid_lengths h).2.1]

theorem length_adapter {rom : Rom} (h : romValid rom = true) (x k : Bytes) : (adapter rom x k).length = 8 :=
  length_baseEncrypt h _ x

/-! ### One Feistel round -/

/-- A round keeps both halves at `n` bytes when the round function gives at least `n` bytes. -/
theorem feistelRound_lengths {rf : Bytes → Bytes → Bytes} {n : Nat} (hrf : ∀ h k, n ≤ (rf h k).length)
    {lr : Bytes × Bytes} (h : lr.1.length = n ∧ lr.2.length = n) (k : Bytes) :
    (feistelRound rf lr k).1.length = n ∧ (feistelRound rf lr k).2.length = n := by
  have := hrf lr.2 k
  simp [feistelRound]
  omega

theorem feistelUnround_lengths {rf : Bytes → Bytes → Bytes} {n : Nat} (hrf : ∀ h k, n ≤ (rf h k).length)
    {lr : Bytes × Bytes} (h : lr.1.length = n ∧ lr.2.length = n) (k : Bytes) :
    (feistelUnround rf k lr).1.length = n ∧ (feistelUnround rf k lr).2.length = n := by
  have := hrf lr.1 k
  simp [feistelUnround]
  omega

/-- A decryption round undoes an encryption round: the swap restores `R`, and XOR with the same `F` restores `L`
(42_feistel_engine.md R206). -/
theorem feistelUnround_feistelRound (rf : Bytes → Bytes → Bytes) (lr : Bytes × Bytes) (k : Bytes)
    (h : lr.1.length ≤ (rf lr.2 k).length) : feistelUnround rf k (feistelRound rf lr k) = lr := by
  simp [feistelUnround, feistelRound, xorBytes_cancel h]

theorem splitBlock_lengths {bk : Nat} {x : Bytes} (h : x.length = bk) (he : bk % 2 = 0) :
    (splitBlock bk x).1.length = bk / 2 ∧ (splitBlock bk x).2.length = bk / 2 := by
  simp [splitBlock]; omega

theorem splitBlock_append {bk : Nat} {l r : Bytes} (h : l.length = bk / 2) : splitBlock bk (l ++ r) = (l, r) := by
  simp [splitBlock, ← h]

theorem append_splitBlock (bk : Nat) (x : Bytes) : (splitBlock bk x).1 ++ (splitBlock bk x).2 = x := by
  simp [splitBlock]

end Sys2Proof.Machine
end

