-- ==== Sys2Proof/Laws/Memory.lean ====
section
/-! SUPPORT. DMEM: a read after a write, and every memory operation keeps the canonical form. -/

namespace Sys2Proof.Machine

/-! ### The canonical form, unfolded once -/

theorem Memory.wf_nil : Memory.wf [] := by simp [Memory.wf]

theorem Memory.wf_cons {k : Nat} {v : Byte} {m : Memory} :
    Memory.wf ((k, v) :: m) ↔ (∀ c ∈ m, k < c.1) ∧ v ≠ unlistedByte ∧ Memory.wf m := by
  simp only [Memory.wf, List.pairwise_cons, List.mem_cons, forall_eq_or_imp]
  tauto

/-- A memory all of whose addresses are above `a` reads the unlisted byte at `a`. -/
theorem Memory.read_below {m : Memory} {a : Nat} (h : ∀ c ∈ m, a < c.1) : m.read a = unlistedByte := by
  induction m with
  | nil => rfl
  | cons c m ih =>
    obtain ⟨k, v⟩ := c
    have hk : a < k := h (k, v) (by simp)
    simp only [Memory.read, if_neg (by omega : ¬ k = a)]
    exact ih fun c hc => h c (by simp [hc])

/-! ### put -/

theorem Memory.mem_put {a : Nat} {b : Byte} {m : Memory} {c : Host.Cell} (h : c ∈ Memory.put a b m) :
    c = (a, b) ∨ c ∈ m := by
  unfold Memory.put at h
  split at h
  · exact .inr h
  · simpa using h

theorem Memory.wf_put {a : Nat} {b : Byte} {m : Memory} (hm : m.wf) (h : ∀ c ∈ m, a < c.1) :
    (Memory.put a b m).wf := by
  unfold Memory.put
  split
  · exact hm
  · exact Memory.wf_cons.2 ⟨h, ‹_›, hm⟩

theorem Memory.read_put {a : Nat} {b : Byte} {m : Memory} (h : ∀ c ∈ m, a < c.1) (x : Nat) :
    (Memory.put a b m).read x = if x = a then b else m.read x := by
  unfold Memory.put
  split
  · split
    · subst_vars; exact Memory.read_below h
    · rfl
  · simp only [Memory.read, eq_comm]

/-! ### write -/

theorem Memory.mem_write {a : Nat} {b : Byte} {m : Memory} {c : Host.Cell} (h : c ∈ m.write a b) :
    c = (a, b) ∨ c ∈ m := by
  induction m with
  | nil => exact Memory.mem_put h
  | cons k m ih =>
    obtain ⟨k, v⟩ := k
    simp only [Memory.write] at h
    split at h
    · exact Memory.mem_put h
    · split at h
      · exact (Memory.mem_put h).imp_right (by simp +contextual)
      · rcases List.mem_cons.1 h with h | h
        · exact .inr (by simp [h])
        · exact (ih h).imp_right (by simp +contextual)

/-- A write keeps the canonical form. -/
theorem Memory.wf_write {m : Memory} (hm : m.wf) (a : Nat) (b : Byte) : (m.write a b).wf := by
  induction m with
  | nil => exact Memory.wf_put Memory.wf_nil (by simp)
  | cons c m ih =>
    obtain ⟨k, v⟩ := c
    obtain ⟨hk, hv, hm'⟩ := Memory.wf_cons.1 hm
    simp only [Memory.write]
    split
    · refine Memory.wf_put hm ?_
      intro c hc
      rcases List.mem_cons.1 hc with rfl | hc
      · assumption
      · have := hk c hc; omega
    · split
      · subst_vars; exact Memory.wf_put hm' hk
      · refine Memory.wf_cons.2 ⟨?_, hv, ih hm'⟩
        intro c hc
        rcases Memory.mem_write hc with rfl | hc
        · simp only; omega
        · exact hk c hc

/-- A read after a write: the byte written at its address, every other byte as before. -/
theorem Memory.read_write {m : Memory} (hm : m.wf) (a : Nat) (b : Byte) (x : Nat) :
    (m.write a b).read x = if x = a then b else m.read x := by
  induction m with
  | nil => exact Memory.read_put (by simp) x
  | cons c m ih =>
    obtain ⟨k, v⟩ := c
    obtain ⟨hk, hv, hm'⟩ := Memory.wf_cons.1 hm
    simp only [Memory.write]
    split
    · refine Memory.read_put ?_ x
      intro c hc
      rcases List.mem_cons.1 hc with rfl | hc
      · assumption
      · have := hk c hc; omega
    · split
      · subst_vars
        rw [Memory.read_put hk]
        split
        · rfl
        · simp only [Memory.read]; rw [if_neg (by omega)]
      · simp only [Memory.read, ih hm']
        split
        · rw [if_neg (by omega)]
        · rfl

/-! ### Byte sequences -/

@[simp] theorem Memory.length_readBytes (m : Memory) (a n : Nat) : (m.readBytes a n).length = n := by
  induction n generalizing a with
  | zero => rfl
  | succ n ih => simp [Memory.readBytes, ih]

/-- Byte `k` of a buffer is at `addr + k` (20_memory.md R86). -/
theorem Memory.getElem_readBytes (m : Memory) (a n k : Nat) (h : k < (m.readBytes a n).length) :
    (m.readBytes a n)[k] = m.read (a + k) := by
  induction n generalizing a k with
  | zero => simp at h
  | succ n ih =>
    cases k with
    | zero => rfl
    | succ k =>
      simp only [Memory.readBytes, List.getElem_cons_succ]
      rw [ih]; congr 1; omega

theorem Memory.wf_writeBytes {m : Memory} (hm : m.wf) (a : Nat) (bs : Bytes) : (m.writeBytes a bs).wf := by
  induction bs generalizing m a with
  | nil => exact hm
  | cons b bs ih => exact ih (Memory.wf_write hm a b) (a + 1)

theorem Memory.mem_writeBytes {m : Memory} {a : Nat} {bs : Bytes} {c : Host.Cell} (h : c ∈ m.writeBytes a bs) :
    (a ≤ c.1 ∧ c.1 < a + bs.length) ∨ c ∈ m := by
  induction bs generalizing m a with
  | nil => exact .inr h
  | cons b bs ih =>
    rcases ih h with h | h
    · left; simp only [List.length_cons]; omega
    · rcases Memory.mem_write h with rfl | h
      · left; simp
      · exact .inr h

/-- A read after a write of a byte sequence (00_scope.md R15). -/
theorem Memory.read_writeBytes {m : Memory} (hm : m.wf) (a : Nat) (bs : Bytes) (x : Nat) :
    (m.writeBytes a bs).read x = if a ≤ x ∧ x < a + bs.length then bs.getD (x - a) 0#8 else m.read x := by
  induction bs generalizing m a with
  | nil => rw [if_neg (by simp)]; rfl
  | cons b bs ih =>
    simp only [Memory.writeBytes, List.length_cons]
    rw [ih (Memory.wf_write hm a b), Memory.read_write hm]
    by_cases hx : x = a
    · subst hx
      rw [if_neg (by omega), if_pos rfl, if_pos (by omega)]; simp
    · by_cases h : a + 1 ≤ x ∧ x < a + 1 + bs.length
      · rw [if_pos h, if_pos (by omega)]
        obtain ⟨d, hd⟩ : ∃ d, x - a = d + 1 := ⟨x - a - 1, by omega⟩
        rw [hd, show x - (a + 1) = d by omega]; simp
      · rw [if_neg h, if_neg hx, if_neg (by omega)]

/-- A write leaves every byte outside it as it was. -/
theorem Memory.read_writeBytes_outside {m : Memory} (hm : m.wf) {a x : Nat} {bs : Bytes}
    (h : x < a ∨ a + bs.length ≤ x) : (m.writeBytes a bs).read x = m.read x := by
  rw [Memory.read_writeBytes hm, if_neg (by omega)]

/-- A byte sequence written is read back. -/
theorem Memory.readBytes_writeBytes {m : Memory} (hm : m.wf) (a : Nat) (bs : Bytes) :
    (m.writeBytes a bs).readBytes a bs.length = bs := by
  refine List.ext_getElem (by simp) fun k h₁ h₂ => ?_
  rw [Memory.getElem_readBytes, Memory.read_writeBytes hm, if_pos (by omega)]
  simp [List.getD_eq_getElem?_getD, h₂]

/-- A buffer disjoint from a write reads as before. -/
theorem Memory.readBytes_writeBytes_disjoint {m : Memory} (hm : m.wf) {a b n : Nat} {bs : Bytes}
    (h : b + n ≤ a ∨ a + bs.length ≤ b) : (m.writeBytes a bs).readBytes b n = m.readBytes b n := by
  refine List.ext_getElem (by simp) fun k h₁ h₂ => ?_
  rw [Memory.getElem_readBytes, Memory.getElem_readBytes, Memory.read_writeBytes_outside hm]
  simp at h₁; omega

/-! ### Reset contents -/

theorem Memory.ofCells_wf_inside (size : Nat) (cells : List Host.Cell) :
    (Memory.ofCells size cells).wf ∧ ∀ c ∈ Memory.ofCells size cells, c.1 < size := by
  suffices h : ∀ m : Memory, m.wf → (∀ c ∈ m, c.1 < size) →
      (cells.foldl (fun m c => if c.1 < size then m.write c.1 c.2 else m) m).wf ∧
        ∀ c ∈ cells.foldl (fun m c => if c.1 < size then Memory.write m c.1 c.2 else m) m, c.1 < size from
    h [] Memory.wf_nil (by simp)
  induction cells with
  | nil => exact fun m hm hi => ⟨hm, hi⟩
  | cons d cells ih =>
    intro m hm hi
    simp only [List.foldl_cons]
    split
    · refine ih _ (Memory.wf_write hm _ _) fun c hc => ?_
      rcases Memory.mem_write hc with rfl | hc
      · assumption
      · exact hi c hc
    · exact ih m hm hi

/-! ### Equal memories are equal data -/

/-- Two canonical memories that read alike are the same list. -/
theorem Memory.ext_of_wf {m n : Memory} (hm : m.wf) (hn : n.wf) (h : ∀ a, m.read a = n.read a) : m = n := by
  induction m generalizing n with
  | nil =>
    cases n with
    | nil => rfl
    | cons c n =>
      obtain ⟨k, v⟩ := c
      have := h k
      simp only [Memory.read, if_true] at this
      exact absurd this.symm (Memory.wf_cons.1 hn).2.1
  | cons c m ih =>
    obtain ⟨k, v⟩ := c
    obtain ⟨hk, hv, hm'⟩ := Memory.wf_cons.1 hm
    cases n with
    | nil =>
      have := h k
      simp only [Memory.read, if_true] at this
      exact absurd this hv
    | cons d n =>
      obtain ⟨l, w⟩ := d
      obtain ⟨hl, hw, hn'⟩ := Memory.wf_cons.1 hn
      have hkl : k = l := by
        rcases Nat.lt_trichotomy k l with hlt | heq | hgt
        · have := h k
          simp only [Memory.read, if_true, if_neg (by omega : ¬ l = k)] at this
          rw [Memory.read_below fun c hc => by have := hl c hc; omega] at this
          exact absurd this hv
        · exact heq
        · have := h l
          simp only [Memory.read, if_true, if_neg (by omega : ¬ k = l)] at this
          rw [Memory.read_below fun c hc => by have := hk c hc; omega] at this
          exact absurd this.symm hw
      subst hkl
      have hvw : v = w := by have := h k; simpa [Memory.read] using this
      subst hvw
      congr 1
      refine ih hm' hn' fun a => ?_
      by_cases ha : k = a
      · subst ha; rw [Memory.read_below hk, Memory.read_below hl]
      · have := h a; simpa [Memory.read, ha] using this

end Sys2Proof.Machine
end

