-- ==== Sys2Proof/Laws/State.lean ====
section
/-! SUPPORT. One lemma per field per state update, so that no later proof unfolds a record update. -/

namespace Sys2Proof.Machine

variable (s : State)

/-! ### raise -/

@[simp] theorem State.raise_par (e : ErrClass) : (s.raise e).par = s.par := rfl
@[simp] theorem State.raise_cmd (e : ErrClass) : (s.raise e).cmd = s.cmd := rfl
@[simp] theorem State.raise_busy (e : ErrClass) : (s.raise e).busy = s.busy := rfl
@[simp] theorem State.raise_init (e : ErrClass) : (s.raise e).init = s.init := rfl
@[simp] theorem State.raise_ctxv (e : ErrClass) : (s.raise e).ctxv = s.ctxv := rfl
@[simp] theorem State.raise_errcode (e : ErrClass) : (s.raise e).errcode = some e := rfl
@[simp] theorem State.raise_cipher (e : ErrClass) : (s.raise e).cipher = s.cipher := rfl
@[simp] theorem State.raise_keyLen (e : ErrClass) : (s.raise e).keyLen = s.keyLen := rfl
@[simp] theorem State.raise_ivLen (e : ErrClass) : (s.raise e).ivLen = s.ivLen := rfl
@[simp] theorem State.raise_srcAddr (e : ErrClass) : (s.raise e).srcAddr = s.srcAddr := rfl
@[simp] theorem State.raise_srcLen (e : ErrClass) : (s.raise e).srcLen = s.srcLen := rfl
@[simp] theorem State.raise_dstAddr (e : ErrClass) : (s.raise e).dstAddr = s.dstAddr := rfl
@[simp] theorem State.raise_dstCap (e : ErrClass) : (s.raise e).dstCap = s.dstCap := rfl
@[simp] theorem State.raise_tblAddr (e : ErrClass) : (s.raise e).tblAddr = s.tblAddr := rfl
@[simp] theorem State.raise_tblLen (e : ErrClass) : (s.raise e).tblLen = s.tblLen := rfl
@[simp] theorem State.raise_outLen (e : ErrClass) : (s.raise e).outLen = 0#32 := rfl
@[simp] theorem State.raise_key (e : ErrClass) : (s.raise e).key = s.key := rfl
@[simp] theorem State.raise_iv (e : ErrClass) : (s.raise e).iv = s.iv := rfl
@[simp] theorem State.raise_rk (e : ErrClass) : (s.raise e).rk = s.rk := rfl
@[simp] theorem State.raise_ctxMode (e : ErrClass) : (s.raise e).ctxMode = s.ctxMode := rfl
@[simp] theorem State.raise_ctxPad (e : ErrClass) : (s.raise e).ctxPad = s.ctxPad := rfl
@[simp] theorem State.raise_ctxIv (e : ErrClass) : (s.raise e).ctxIv = s.ctxIv := rfl
@[simp] theorem State.raise_dmem (e : ErrClass) : (s.raise e).dmem = s.dmem := rfl
@[simp] theorem State.raise_hostq (e : ErrClass) : (s.raise e).hostq = s.hostq := rfl
@[simp] theorem State.raise_replies (e : ErrClass) : (s.raise e).replies = s.replies := rfl
@[simp] theorem State.raise_draws (e : ErrClass) : (s.raise e).draws = s.draws := rfl

/-! ### commitBytes -/

@[simp] theorem State.commitBytes_par (out : Bytes) (n : Nat) : (s.commitBytes out n).par = s.par := rfl
@[simp] theorem State.commitBytes_cmd (out : Bytes) (n : Nat) : (s.commitBytes out n).cmd = s.cmd := rfl
@[simp] theorem State.commitBytes_busy (out : Bytes) (n : Nat) : (s.commitBytes out n).busy = s.busy := rfl
@[simp] theorem State.commitBytes_init (out : Bytes) (n : Nat) : (s.commitBytes out n).init = s.init := rfl
@[simp] theorem State.commitBytes_ctxv (out : Bytes) (n : Nat) : (s.commitBytes out n).ctxv = s.ctxv := rfl
@[simp] theorem State.commitBytes_errcode (out : Bytes) (n : Nat) : (s.commitBytes out n).errcode = none := rfl
@[simp] theorem State.commitBytes_cipher (out : Bytes) (n : Nat) : (s.commitBytes out n).cipher = s.cipher := rfl
@[simp] theorem State.commitBytes_keyLen (out : Bytes) (n : Nat) : (s.commitBytes out n).keyLen = s.keyLen := rfl
@[simp] theorem State.commitBytes_ivLen (out : Bytes) (n : Nat) : (s.commitBytes out n).ivLen = s.ivLen := rfl
@[simp] theorem State.commitBytes_srcAddr (out : Bytes) (n : Nat) : (s.commitBytes out n).srcAddr = s.srcAddr := rfl
@[simp] theorem State.commitBytes_srcLen (out : Bytes) (n : Nat) : (s.commitBytes out n).srcLen = s.srcLen := rfl
@[simp] theorem State.commitBytes_dstAddr (out : Bytes) (n : Nat) : (s.commitBytes out n).dstAddr = s.dstAddr := rfl
@[simp] theorem State.commitBytes_dstCap (out : Bytes) (n : Nat) : (s.commitBytes out n).dstCap = s.dstCap := rfl
@[simp] theorem State.commitBytes_tblAddr (out : Bytes) (n : Nat) : (s.commitBytes out n).tblAddr = s.tblAddr := rfl
@[simp] theorem State.commitBytes_tblLen (out : Bytes) (n : Nat) : (s.commitBytes out n).tblLen = s.tblLen := rfl
@[simp] theorem State.commitBytes_outLen (out : Bytes) (n : Nat) : (s.commitBytes out n).outLen = BitVec.ofNat 32 out.length := rfl
@[simp] theorem State.commitBytes_key (out : Bytes) (n : Nat) : (s.commitBytes out n).key = s.key := rfl
@[simp] theorem State.commitBytes_iv (out : Bytes) (n : Nat) : (s.commitBytes out n).iv = s.iv := rfl
@[simp] theorem State.commitBytes_rk (out : Bytes) (n : Nat) : (s.commitBytes out n).rk = s.rk := rfl
@[simp] theorem State.commitBytes_ctxMode (out : Bytes) (n : Nat) : (s.commitBytes out n).ctxMode = s.ctxMode := rfl
@[simp] theorem State.commitBytes_ctxPad (out : Bytes) (n : Nat) : (s.commitBytes out n).ctxPad = s.ctxPad := rfl
@[simp] theorem State.commitBytes_ctxIv (out : Bytes) (n : Nat) : (s.commitBytes out n).ctxIv = s.ctxIv := rfl
@[simp] theorem State.commitBytes_dmem (out : Bytes) (n : Nat) : (s.commitBytes out n).dmem = s.dmem.writeBytes s.dstAddr.toNat out := rfl
@[simp] theorem State.commitBytes_hostq (out : Bytes) (n : Nat) : (s.commitBytes out n).hostq = s.hostq := rfl
@[simp] theorem State.commitBytes_replies (out : Bytes) (n : Nat) : (s.commitBytes out n).replies = s.replies := rfl
@[simp] theorem State.commitBytes_draws (out : Bytes) (n : Nat) : (s.commitBytes out n).draws = s.draws + n := rfl

/-! ### commitKeys -/

@[simp] theorem State.commitKeys_par (ks : List Bytes) : (s.commitKeys ks).par = s.par := rfl
@[simp] theorem State.commitKeys_cmd (ks : List Bytes) : (s.commitKeys ks).cmd = s.cmd := rfl
@[simp] theorem State.commitKeys_busy (ks : List Bytes) : (s.commitKeys ks).busy = s.busy := rfl
@[simp] theorem State.commitKeys_init (ks : List Bytes) : (s.commitKeys ks).init = true := rfl
@[simp] theorem State.commitKeys_ctxv (ks : List Bytes) : (s.commitKeys ks).ctxv = s.ctxv := rfl
@[simp] theorem State.commitKeys_errcode (ks : List Bytes) : (s.commitKeys ks).errcode = none := rfl
@[simp] theorem State.commitKeys_cipher (ks : List Bytes) : (s.commitKeys ks).cipher = s.cipher := rfl
@[simp] theorem State.commitKeys_keyLen (ks : List Bytes) : (s.commitKeys ks).keyLen = s.keyLen := rfl
@[simp] theorem State.commitKeys_ivLen (ks : List Bytes) : (s.commitKeys ks).ivLen = s.ivLen := rfl
@[simp] theorem State.commitKeys_srcAddr (ks : List Bytes) : (s.commitKeys ks).srcAddr = s.srcAddr := rfl
@[simp] theorem State.commitKeys_srcLen (ks : List Bytes) : (s.commitKeys ks).srcLen = s.srcLen := rfl
@[simp] theorem State.commitKeys_dstAddr (ks : List Bytes) : (s.commitKeys ks).dstAddr = s.dstAddr := rfl
@[simp] theorem State.commitKeys_dstCap (ks : List Bytes) : (s.commitKeys ks).dstCap = s.dstCap := rfl
@[simp] theorem State.commitKeys_tblAddr (ks : List Bytes) : (s.commitKeys ks).tblAddr = s.tblAddr := rfl
@[simp] theorem State.commitKeys_tblLen (ks : List Bytes) : (s.commitKeys ks).tblLen = s.tblLen := rfl
@[simp] theorem State.commitKeys_outLen (ks : List Bytes) : (s.commitKeys ks).outLen = 0#32 := rfl
@[simp] theorem State.commitKeys_key (ks : List Bytes) : (s.commitKeys ks).key = s.key := rfl
@[simp] theorem State.commitKeys_iv (ks : List Bytes) : (s.commitKeys ks).iv = s.iv := rfl
@[simp] theorem State.commitKeys_rk (ks : List Bytes) : (s.commitKeys ks).rk = ks := rfl
@[simp] theorem State.commitKeys_ctxMode (ks : List Bytes) : (s.commitKeys ks).ctxMode = s.ctxMode := rfl
@[simp] theorem State.commitKeys_ctxPad (ks : List Bytes) : (s.commitKeys ks).ctxPad = s.ctxPad := rfl
@[simp] theorem State.commitKeys_ctxIv (ks : List Bytes) : (s.commitKeys ks).ctxIv = s.ctxIv := rfl
@[simp] theorem State.commitKeys_dmem (ks : List Bytes) : (s.commitKeys ks).dmem = s.dmem := rfl
@[simp] theorem State.commitKeys_hostq (ks : List Bytes) : (s.commitKeys ks).hostq = s.hostq := rfl
@[simp] theorem State.commitKeys_replies (ks : List Bytes) : (s.commitKeys ks).replies = s.replies := rfl
@[simp] theorem State.commitKeys_draws (ks : List Bytes) : (s.commitKeys ks).draws = s.draws := rfl

/-! ### commitContext -/

@[simp] theorem State.commitContext_par (m : Mode) (p : PadScheme) (v : Bytes) : (s.commitContext m p v).par = s.par := rfl
@[simp] theorem State.commitContext_cmd (m : Mode) (p : PadScheme) (v : Bytes) : (s.commitContext m p v).cmd = s.cmd := rfl
@[simp] theorem State.commitContext_busy (m : Mode) (p : PadScheme) (v : Bytes) : (s.commitContext m p v).busy = s.busy := rfl
@[simp] theorem State.commitContext_init (m : Mode) (p : PadScheme) (v : Bytes) : (s.commitContext m p v).init = s.init := rfl
@[simp] theorem State.commitContext_ctxv (m : Mode) (p : PadScheme) (v : Bytes) : (s.commitContext m p v).ctxv = true := rfl
@[simp] theorem State.commitContext_errcode (m : Mode) (p : PadScheme) (v : Bytes) : (s.commitContext m p v).errcode = none := rfl
@[simp] theorem State.commitContext_cipher (m : Mode) (p : PadScheme) (v : Bytes) : (s.commitContext m p v).cipher = s.cipher := rfl
@[simp] theorem State.commitContext_keyLen (m : Mode) (p : PadScheme) (v : Bytes) : (s.commitContext m p v).keyLen = s.keyLen := rfl
@[simp] theorem State.commitContext_ivLen (m : Mode) (p : PadScheme) (v : Bytes) : (s.commitContext m p v).ivLen = s.ivLen := rfl
@[simp] theorem State.commitContext_srcAddr (m : Mode) (p : PadScheme) (v : Bytes) : (s.commitContext m p v).srcAddr = s.srcAddr := rfl
@[simp] theorem State.commitContext_srcLen (m : Mode) (p : PadScheme) (v : Bytes) : (s.commitContext m p v).srcLen = s.srcLen := rfl
@[simp] theorem State.commitContext_dstAddr (m : Mode) (p : PadScheme) (v : Bytes) : (s.commitContext m p v).dstAddr = s.dstAddr := rfl
@[simp] theorem State.commitContext_dstCap (m : Mode) (p : PadScheme) (v : Bytes) : (s.commitContext m p v).dstCap = s.dstCap := rfl
@[simp] theorem State.commitContext_tblAddr (m : Mode) (p : PadScheme) (v : Bytes) : (s.commitContext m p v).tblAddr = s.tblAddr := rfl
@[simp] theorem State.commitContext_tblLen (m : Mode) (p : PadScheme) (v : Bytes) : (s.commitContext m p v).tblLen = s.tblLen := rfl
@[simp] theorem State.commitContext_outLen (m : Mode) (p : PadScheme) (v : Bytes) : (s.commitContext m p v).outLen = 0#32 := rfl
@[simp] theorem State.commitContext_key (m : Mode) (p : PadScheme) (v : Bytes) : (s.commitContext m p v).key = s.key := rfl
@[simp] theorem State.commitContext_iv (m : Mode) (p : PadScheme) (v : Bytes) : (s.commitContext m p v).iv = s.iv := rfl
@[simp] theorem State.commitContext_rk (m : Mode) (p : PadScheme) (v : Bytes) : (s.commitContext m p v).rk = s.rk := rfl
@[simp] theorem State.commitContext_ctxMode (m : Mode) (p : PadScheme) (v : Bytes) : (s.commitContext m p v).ctxMode = m := rfl
@[simp] theorem State.commitContext_ctxPad (m : Mode) (p : PadScheme) (v : Bytes) : (s.commitContext m p v).ctxPad = p := rfl
@[simp] theorem State.commitContext_ctxIv (m : Mode) (p : PadScheme) (v : Bytes) : (s.commitContext m p v).ctxIv = if m = .ecb then s.ctxIv else v := rfl
@[simp] theorem State.commitContext_dmem (m : Mode) (p : PadScheme) (v : Bytes) : (s.commitContext m p v).dmem = s.dmem := rfl
@[simp] theorem State.commitContext_hostq (m : Mode) (p : PadScheme) (v : Bytes) : (s.commitContext m p v).hostq = s.hostq := rfl
@[simp] theorem State.commitContext_replies (m : Mode) (p : PadScheme) (v : Bytes) : (s.commitContext m p v).replies = s.replies := rfl
@[simp] theorem State.commitContext_draws (m : Mode) (p : PadScheme) (v : Bytes) : (s.commitContext m p v).draws = s.draws := rfl

/-! ### beginCommand -/

@[simp] theorem State.beginCommand_par (w : Word) : (s.beginCommand w).par = s.par := rfl
@[simp] theorem State.beginCommand_cmd (w : Word) : (s.beginCommand w).cmd = w := rfl
@[simp] theorem State.beginCommand_busy (w : Word) : (s.beginCommand w).busy = true := rfl
@[simp] theorem State.beginCommand_init (w : Word) : (s.beginCommand w).init = s.init := rfl
@[simp] theorem State.beginCommand_ctxv (w : Word) : (s.beginCommand w).ctxv = s.ctxv := rfl
@[simp] theorem State.beginCommand_errcode (w : Word) : (s.beginCommand w).errcode = s.errcode := rfl
@[simp] theorem State.beginCommand_cipher (w : Word) : (s.beginCommand w).cipher = s.cipher := rfl
@[simp] theorem State.beginCommand_keyLen (w : Word) : (s.beginCommand w).keyLen = s.keyLen := rfl
@[simp] theorem State.beginCommand_ivLen (w : Word) : (s.beginCommand w).ivLen = s.ivLen := rfl
@[simp] theorem State.beginCommand_srcAddr (w : Word) : (s.beginCommand w).srcAddr = s.srcAddr := rfl
@[simp] theorem State.beginCommand_srcLen (w : Word) : (s.beginCommand w).srcLen = s.srcLen := rfl
@[simp] theorem State.beginCommand_dstAddr (w : Word) : (s.beginCommand w).dstAddr = s.dstAddr := rfl
@[simp] theorem State.beginCommand_dstCap (w : Word) : (s.beginCommand w).dstCap = s.dstCap := rfl
@[simp] theorem State.beginCommand_tblAddr (w : Word) : (s.beginCommand w).tblAddr = s.tblAddr := rfl
@[simp] theorem State.beginCommand_tblLen (w : Word) : (s.beginCommand w).tblLen = s.tblLen := rfl
@[simp] theorem State.beginCommand_outLen (w : Word) : (s.beginCommand w).outLen = s.outLen := rfl
@[simp] theorem State.beginCommand_key (w : Word) : (s.beginCommand w).key = s.key := rfl
@[simp] theorem State.beginCommand_iv (w : Word) : (s.beginCommand w).iv = s.iv := rfl
@[simp] theorem State.beginCommand_rk (w : Word) : (s.beginCommand w).rk = s.rk := rfl
@[simp] theorem State.beginCommand_ctxMode (w : Word) : (s.beginCommand w).ctxMode = s.ctxMode := rfl
@[simp] theorem State.beginCommand_ctxPad (w : Word) : (s.beginCommand w).ctxPad = s.ctxPad := rfl
@[simp] theorem State.beginCommand_ctxIv (w : Word) : (s.beginCommand w).ctxIv = s.ctxIv := rfl
@[simp] theorem State.beginCommand_dmem (w : Word) : (s.beginCommand w).dmem = s.dmem := rfl
@[simp] theorem State.beginCommand_hostq (w : Word) : (s.beginCommand w).hostq = s.hostq := rfl
@[simp] theorem State.beginCommand_replies (w : Word) : (s.beginCommand w).replies = s.replies := rfl
@[simp] theorem State.beginCommand_draws (w : Word) : (s.beginCommand w).draws = s.draws := rfl

/-! ### endCommand -/

@[simp] theorem State.endCommand_par : (s.endCommand).par = s.par := rfl
@[simp] theorem State.endCommand_cmd : (s.endCommand).cmd = s.cmd := rfl
@[simp] theorem State.endCommand_busy : (s.endCommand).busy = false := rfl
@[simp] theorem State.endCommand_init : (s.endCommand).init = s.init := rfl
@[simp] theorem State.endCommand_ctxv : (s.endCommand).ctxv = s.ctxv := rfl
@[simp] theorem State.endCommand_errcode : (s.endCommand).errcode = s.errcode := rfl
@[simp] theorem State.endCommand_cipher : (s.endCommand).cipher = s.cipher := rfl
@[simp] theorem State.endCommand_keyLen : (s.endCommand).keyLen = s.keyLen := rfl
@[simp] theorem State.endCommand_ivLen : (s.endCommand).ivLen = s.ivLen := rfl
@[simp] theorem State.endCommand_srcAddr : (s.endCommand).srcAddr = s.srcAddr := rfl
@[simp] theorem State.endCommand_srcLen : (s.endCommand).srcLen = s.srcLen := rfl
@[simp] theorem State.endCommand_dstAddr : (s.endCommand).dstAddr = s.dstAddr := rfl
@[simp] theorem State.endCommand_dstCap : (s.endCommand).dstCap = s.dstCap := rfl
@[simp] theorem State.endCommand_tblAddr : (s.endCommand).tblAddr = s.tblAddr := rfl
@[simp] theorem State.endCommand_tblLen : (s.endCommand).tblLen = s.tblLen := rfl
@[simp] theorem State.endCommand_outLen : (s.endCommand).outLen = s.outLen := rfl
@[simp] theorem State.endCommand_key : (s.endCommand).key = s.key := rfl
@[simp] theorem State.endCommand_iv : (s.endCommand).iv = s.iv := rfl
@[simp] theorem State.endCommand_rk : (s.endCommand).rk = s.rk := rfl
@[simp] theorem State.endCommand_ctxMode : (s.endCommand).ctxMode = s.ctxMode := rfl
@[simp] theorem State.endCommand_ctxPad : (s.endCommand).ctxPad = s.ctxPad := rfl
@[simp] theorem State.endCommand_ctxIv : (s.endCommand).ctxIv = s.ctxIv := rfl
@[simp] theorem State.endCommand_dmem : (s.endCommand).dmem = s.dmem := rfl
@[simp] theorem State.endCommand_hostq : (s.endCommand).hostq = s.hostq := rfl
@[simp] theorem State.endCommand_replies : (s.endCommand).replies = s.replies := rfl
@[simp] theorem State.endCommand_draws : (s.endCommand).draws = s.draws := rfl

/-! ### popHost -/

@[simp] theorem State.popHost_par (q : List HostOp) : (s.popHost q).par = s.par := rfl
@[simp] theorem State.popHost_cmd (q : List HostOp) : (s.popHost q).cmd = s.cmd := rfl
@[simp] theorem State.popHost_busy (q : List HostOp) : (s.popHost q).busy = s.busy := rfl
@[simp] theorem State.popHost_init (q : List HostOp) : (s.popHost q).init = s.init := rfl
@[simp] theorem State.popHost_ctxv (q : List HostOp) : (s.popHost q).ctxv = s.ctxv := rfl
@[simp] theorem State.popHost_errcode (q : List HostOp) : (s.popHost q).errcode = s.errcode := rfl
@[simp] theorem State.popHost_cipher (q : List HostOp) : (s.popHost q).cipher = s.cipher := rfl
@[simp] theorem State.popHost_keyLen (q : List HostOp) : (s.popHost q).keyLen = s.keyLen := rfl
@[simp] theorem State.popHost_ivLen (q : List HostOp) : (s.popHost q).ivLen = s.ivLen := rfl
@[simp] theorem State.popHost_srcAddr (q : List HostOp) : (s.popHost q).srcAddr = s.srcAddr := rfl
@[simp] theorem State.popHost_srcLen (q : List HostOp) : (s.popHost q).srcLen = s.srcLen := rfl
@[simp] theorem State.popHost_dstAddr (q : List HostOp) : (s.popHost q).dstAddr = s.dstAddr := rfl
@[simp] theorem State.popHost_dstCap (q : List HostOp) : (s.popHost q).dstCap = s.dstCap := rfl
@[simp] theorem State.popHost_tblAddr (q : List HostOp) : (s.popHost q).tblAddr = s.tblAddr := rfl
@[simp] theorem State.popHost_tblLen (q : List HostOp) : (s.popHost q).tblLen = s.tblLen := rfl
@[simp] theorem State.popHost_outLen (q : List HostOp) : (s.popHost q).outLen = s.outLen := rfl
@[simp] theorem State.popHost_key (q : List HostOp) : (s.popHost q).key = s.key := rfl
@[simp] theorem State.popHost_iv (q : List HostOp) : (s.popHost q).iv = s.iv := rfl
@[simp] theorem State.popHost_rk (q : List HostOp) : (s.popHost q).rk = s.rk := rfl
@[simp] theorem State.popHost_ctxMode (q : List HostOp) : (s.popHost q).ctxMode = s.ctxMode := rfl
@[simp] theorem State.popHost_ctxPad (q : List HostOp) : (s.popHost q).ctxPad = s.ctxPad := rfl
@[simp] theorem State.popHost_ctxIv (q : List HostOp) : (s.popHost q).ctxIv = s.ctxIv := rfl
@[simp] theorem State.popHost_dmem (q : List HostOp) : (s.popHost q).dmem = s.dmem := rfl
@[simp] theorem State.popHost_hostq (q : List HostOp) : (s.popHost q).hostq = q := rfl
@[simp] theorem State.popHost_replies (q : List HostOp) : (s.popHost q).replies = s.replies := rfl
@[simp] theorem State.popHost_draws (q : List HostOp) : (s.popHost q).draws = s.draws := rfl

/-! ### reply -/

@[simp] theorem State.reply_par (r : HostReply) : (s.reply r).par = s.par := rfl
@[simp] theorem State.reply_cmd (r : HostReply) : (s.reply r).cmd = s.cmd := rfl
@[simp] theorem State.reply_busy (r : HostReply) : (s.reply r).busy = s.busy := rfl
@[simp] theorem State.reply_init (r : HostReply) : (s.reply r).init = s.init := rfl
@[simp] theorem State.reply_ctxv (r : HostReply) : (s.reply r).ctxv = s.ctxv := rfl
@[simp] theorem State.reply_errcode (r : HostReply) : (s.reply r).errcode = s.errcode := rfl
@[simp] theorem State.reply_cipher (r : HostReply) : (s.reply r).cipher = s.cipher := rfl
@[simp] theorem State.reply_keyLen (r : HostReply) : (s.reply r).keyLen = s.keyLen := rfl
@[simp] theorem State.reply_ivLen (r : HostReply) : (s.reply r).ivLen = s.ivLen := rfl
@[simp] theorem State.reply_srcAddr (r : HostReply) : (s.reply r).srcAddr = s.srcAddr := rfl
@[simp] theorem State.reply_srcLen (r : HostReply) : (s.reply r).srcLen = s.srcLen := rfl
@[simp] theorem State.reply_dstAddr (r : HostReply) : (s.reply r).dstAddr = s.dstAddr := rfl
@[simp] theorem State.reply_dstCap (r : HostReply) : (s.reply r).dstCap = s.dstCap := rfl
@[simp] theorem State.reply_tblAddr (r : HostReply) : (s.reply r).tblAddr = s.tblAddr := rfl
@[simp] theorem State.reply_tblLen (r : HostReply) : (s.reply r).tblLen = s.tblLen := rfl
@[simp] theorem State.reply_outLen (r : HostReply) : (s.reply r).outLen = s.outLen := rfl
@[simp] theorem State.reply_key (r : HostReply) : (s.reply r).key = s.key := rfl
@[simp] theorem State.reply_iv (r : HostReply) : (s.reply r).iv = s.iv := rfl
@[simp] theorem State.reply_rk (r : HostReply) : (s.reply r).rk = s.rk := rfl
@[simp] theorem State.reply_ctxMode (r : HostReply) : (s.reply r).ctxMode = s.ctxMode := rfl
@[simp] theorem State.reply_ctxPad (r : HostReply) : (s.reply r).ctxPad = s.ctxPad := rfl
@[simp] theorem State.reply_ctxIv (r : HostReply) : (s.reply r).ctxIv = s.ctxIv := rfl
@[simp] theorem State.reply_dmem (r : HostReply) : (s.reply r).dmem = s.dmem := rfl
@[simp] theorem State.reply_hostq (r : HostReply) : (s.reply r).hostq = s.hostq := rfl
@[simp] theorem State.reply_replies (r : HostReply) : (s.reply r).replies = s.replies ++ [r] := rfl
@[simp] theorem State.reply_draws (r : HostReply) : (s.reply r).draws = s.draws := rfl

/-! ### platformReset -/

@[simp] theorem State.platformReset_par (d : ResetDraw) : (s.platformReset d).par = s.par := rfl
@[simp] theorem State.platformReset_cmd (d : ResetDraw) : (s.platformReset d).cmd = 0#32 := rfl
@[simp] theorem State.platformReset_busy (d : ResetDraw) : (s.platformReset d).busy = false := rfl
@[simp] theorem State.platformReset_init (d : ResetDraw) : (s.platformReset d).init = false := rfl
@[simp] theorem State.platformReset_ctxv (d : ResetDraw) : (s.platformReset d).ctxv = false := rfl
@[simp] theorem State.platformReset_errcode (d : ResetDraw) : (s.platformReset d).errcode = none := rfl
@[simp] theorem State.platformReset_cipher (d : ResetDraw) : (s.platformReset d).cipher = .base := rfl
@[simp] theorem State.platformReset_keyLen (d : ResetDraw) : (s.platformReset d).keyLen = 0#6 := rfl
@[simp] theorem State.platformReset_ivLen (d : ResetDraw) : (s.platformReset d).ivLen = 0#5 := rfl
@[simp] theorem State.platformReset_srcAddr (d : ResetDraw) : (s.platformReset d).srcAddr = 0#32 := rfl
@[simp] theorem State.platformReset_srcLen (d : ResetDraw) : (s.platformReset d).srcLen = 0#32 := rfl
@[simp] theorem State.platformReset_dstAddr (d : ResetDraw) : (s.platformReset d).dstAddr = 0#32 := rfl
@[simp] theorem State.platformReset_dstCap (d : ResetDraw) : (s.platformReset d).dstCap = 0#32 := rfl
@[simp] theorem State.platformReset_tblAddr (d : ResetDraw) : (s.platformReset d).tblAddr = 0#32 := rfl
@[simp] theorem State.platformReset_tblLen (d : ResetDraw) : (s.platformReset d).tblLen = 0#32 := rfl
@[simp] theorem State.platformReset_outLen (d : ResetDraw) : (s.platformReset d).outLen = 0#32 := rfl
@[simp] theorem State.platformReset_key (d : ResetDraw) : (s.platformReset d).key = State.reset.key := rfl
@[simp] theorem State.platformReset_iv (d : ResetDraw) : (s.platformReset d).iv = State.reset.iv := rfl
@[simp] theorem State.platformReset_rk (d : ResetDraw) : (s.platformReset d).rk = d.rk := rfl
@[simp] theorem State.platformReset_ctxMode (d : ResetDraw) : (s.platformReset d).ctxMode = d.ctxMode := rfl
@[simp] theorem State.platformReset_ctxPad (d : ResetDraw) : (s.platformReset d).ctxPad = d.ctxPad := rfl
@[simp] theorem State.platformReset_ctxIv (d : ResetDraw) : (s.platformReset d).ctxIv = d.ctxIv := rfl
@[simp] theorem State.platformReset_dmem (d : ResetDraw) : (s.platformReset d).dmem = Memory.ofCells s.par.dmemSize d.cells := rfl
@[simp] theorem State.platformReset_hostq (d : ResetDraw) : (s.platformReset d).hostq = s.hostq := rfl
@[simp] theorem State.platformReset_replies (d : ResetDraw) : (s.platformReset d).replies = s.replies := rfl
@[simp] theorem State.platformReset_draws (d : ResetDraw) : (s.platformReset d).draws = s.draws := rfl

/-! ### selectCipher, writeCfg -/

@[simp] theorem State.selectCipher_par (c : Cipher) : (s.selectCipher c).par = s.par := by
  unfold State.selectCipher; split <;> rfl
@[simp] theorem State.selectCipher_cmd (c : Cipher) : (s.selectCipher c).cmd = s.cmd := by
  unfold State.selectCipher; split <;> rfl
@[simp] theorem State.selectCipher_busy (c : Cipher) : (s.selectCipher c).busy = s.busy := by
  unfold State.selectCipher; split <;> rfl
@[simp] theorem State.selectCipher_errcode (c : Cipher) : (s.selectCipher c).errcode = s.errcode := by
  unfold State.selectCipher; split <;> rfl
@[simp] theorem State.selectCipher_keyLen (c : Cipher) : (s.selectCipher c).keyLen = s.keyLen := by
  unfold State.selectCipher; split <;> rfl
@[simp] theorem State.selectCipher_ivLen (c : Cipher) : (s.selectCipher c).ivLen = s.ivLen := by
  unfold State.selectCipher; split <;> rfl
@[simp] theorem State.selectCipher_srcAddr (c : Cipher) : (s.selectCipher c).srcAddr = s.srcAddr := by
  unfold State.selectCipher; split <;> rfl
@[simp] theorem State.selectCipher_srcLen (c : Cipher) : (s.selectCipher c).srcLen = s.srcLen := by
  unfold State.selectCipher; split <;> rfl
@[simp] theorem State.selectCipher_dstAddr (c : Cipher) : (s.selectCipher c).dstAddr = s.dstAddr := by
  unfold State.selectCipher; split <;> rfl
@[simp] theorem State.selectCipher_dstCap (c : Cipher) : (s.selectCipher c).dstCap = s.dstCap := by
  unfold State.selectCipher; split <;> rfl
@[simp] theorem State.selectCipher_tblAddr (c : Cipher) : (s.selectCipher c).tblAddr = s.tblAddr := by
  unfold State.selectCipher; split <;> rfl
@[simp] theorem State.selectCipher_tblLen (c : Cipher) : (s.selectCipher c).tblLen = s.tblLen := by
  unfold State.selectCipher; split <;> rfl
@[simp] theorem State.selectCipher_outLen (c : Cipher) : (s.selectCipher c).outLen = s.outLen := by
  unfold State.selectCipher; split <;> rfl
@[simp] theorem State.selectCipher_key (c : Cipher) : (s.selectCipher c).key = s.key := by
  unfold State.selectCipher; split <;> rfl
@[simp] theorem State.selectCipher_iv (c : Cipher) : (s.selectCipher c).iv = s.iv := by
  unfold State.selectCipher; split <;> rfl
@[simp] theorem State.selectCipher_rk (c : Cipher) : (s.selectCipher c).rk = s.rk := by
  unfold State.selectCipher; split <;> rfl
@[simp] theorem State.selectCipher_ctxMode (c : Cipher) : (s.selectCipher c).ctxMode = s.ctxMode := by
  unfold State.selectCipher; split <;> rfl
@[simp] theorem State.selectCipher_ctxPad (c : Cipher) : (s.selectCipher c).ctxPad = s.ctxPad := by
  unfold State.selectCipher; split <;> rfl
@[simp] theorem State.selectCipher_ctxIv (c : Cipher) : (s.selectCipher c).ctxIv = s.ctxIv := by
  unfold State.selectCipher; split <;> rfl
@[simp] theorem State.selectCipher_dmem (c : Cipher) : (s.selectCipher c).dmem = s.dmem := by
  unfold State.selectCipher; split <;> rfl
@[simp] theorem State.selectCipher_hostq (c : Cipher) : (s.selectCipher c).hostq = s.hostq := by
  unfold State.selectCipher; split <;> rfl
@[simp] theorem State.selectCipher_replies (c : Cipher) : (s.selectCipher c).replies = s.replies := by
  unfold State.selectCipher; split <;> rfl
@[simp] theorem State.selectCipher_draws (c : Cipher) : (s.selectCipher c).draws = s.draws := by
  unfold State.selectCipher; split <;> rfl
@[simp] theorem State.selectCipher_cipher (c : Cipher) : (s.selectCipher c).cipher = c := by
  unfold State.selectCipher; split <;> simp_all

/-- A host write of the value `CFG.CIPHER` holds has no effect (10_state.md R37). -/
theorem State.selectCipher_same {c : Cipher} (h : s.cipher = c) : s.selectCipher c = s := by
  simp [State.selectCipher, h]

/-- A change of `CFG.CIPHER` clears `INIT` and `CTXV` (10_state.md R37). -/
theorem State.selectCipher_change {c : Cipher} (h : s.cipher ≠ c) :
    s.selectCipher c = { s with cipher := c, init := false, ctxv := false } := by
  simp [State.selectCipher, h]

/-- What a host write to `CFG` can do: nothing, or select a legal cipher (10_state.md R36). -/
theorem State.writeCfg_cases (v : Word) : s.writeCfg v = s ∨ ∃ c, s.writeCfg v = s.selectCipher c := by
  unfold State.writeCfg
  split
  · exact .inr ⟨.base, rfl⟩
  · split
    · exact .inr ⟨.compound, rfl⟩
    · exact .inl rfl

end Sys2Proof.Machine
end

