-- ==== Sys2Proof/Laws/Exec.lean ====
section
/-! SUPPORT. What each shared operation, each command, each host access and each step can do, said once. -/

namespace Sys2Proof.Machine

/-! ### complete -/

@[simp] theorem complete_ok (s : State) (n : Nat) (out : Bytes) :
    complete s n (.ok out) = .next (s.commitBytes out n) := rfl

@[simp] theorem complete_error (s : State) (n : Nat) (e : ErrClass) :
    complete s n (.error e) = .next (s.raise e) := rfl

/-- A command that writes a DMEM result commits it or raises, and nothing else. -/
theorem complete_cases {s t : State} {n : Nat} {r : Except ErrClass Bytes} (h : complete s n r = .next t) :
    (∃ out, r = .ok out ∧ t = s.commitBytes out n) ∨ ∃ e, r = .error e ∧ t = s.raise e := by
  cases r with
  | ok out => exact .inl ⟨out, rfl, by simpa using h.symm⟩
  | error e => exact .inr ⟨e, rfl, by simpa using h.symm⟩

/-! ### Commands -/

theorem execPermute_cases {ord : BitOrder} {org : Origin} {tsrc : BitVec 3} {s t : State}
    (h : execPermute ord org tsrc s = .next t) :
    (∃ e, permuteResult ord org tsrc s = .error e ∧ t = s.raise e) ∨
      ∃ out, permuteResult ord org tsrc s = .ok out ∧
        (permuteHazard tsrc s out.length = true ∧ t = s.commitBytes (freeBytes s out.length) out.length ∨
          permuteHazard tsrc s out.length = false ∧ t = s.commitBytes out 0) := by
  unfold execPermute at h
  split at h
  · exact .inl ⟨_, ‹_›, by simpa using h.symm⟩
  · split at h
    · exact .inr ⟨_, ‹_›, .inl ⟨‹_›, by simpa using h.symm⟩⟩
    · rename_i hz
      exact .inr ⟨_, ‹_›, .inr ⟨by simpa using hz, by simpa using h.symm⟩⟩

theorem execKeyinit_cases {s t : State} (h : execKeyinit s = .next t) :
    (∃ keys, keyinitResult s = .ok keys ∧ t = s.commitKeys keys) ∨
      ∃ e, keyinitResult s = .error e ∧ t = s.raise e := by
  unfold execKeyinit at h
  split at h
  · exact .inl ⟨_, ‹_›, by simpa using h.symm⟩
  · exact .inr ⟨_, ‹_›, by simpa using h.symm⟩

/-- `KEYINIT` succeeds only with a legal key length and sixteen round keys (42_feistel_engine.md R207, R210). -/
theorem keyinitResult_ok {s : State} {keys : List Bytes} (h : keyinitResult s = .ok keys) :
    keyLengthLegal s.cipher s.keyLen.toNat = true ∧ keySchedule s.par.rom s.cipher (keyOperand s) = .ok keys ∧
      keys.length = 16 := by
  unfold keyinitResult at h
  split at h
  · cases h
  · split at h
    · cases h
    · split at h
      · cases h
      · cases h
        exact ⟨by simpa using ‹¬ keyLengthLegal s.cipher s.keyLen.toNat = false›, ‹_›, by simpa using ‹¬ _ ≠ 16›⟩

theorem execCtxset_cases {mode : BitVec 3} {scheme : PadScheme} {s t : State}
    (h : execCtxset mode scheme s = .next t) :
    (Mode.ofField mode = none ∧ t = s.raise .illegalCommand) ∨
      ∃ m, Mode.ofField mode = some m ∧
        ((m ≠ .ecb ∧ s.ivLen.toNat ≠ blockSize s) ∧ t = s.raise .invalidArgument ∨
          ¬ (m ≠ .ecb ∧ s.ivLen.toNat ≠ blockSize s) ∧ t = s.commitContext m scheme (ivOperand s)) := by
  unfold execCtxset at h
  split at h
  · exact .inl ⟨‹_›, by simpa using h.symm⟩
  · split at h
    · exact .inr ⟨_, ‹_›, .inl ⟨‹_›, by simpa using h.symm⟩⟩
    · exact .inr ⟨_, ‹_›, .inr ⟨‹_›, by simpa using h.symm⟩⟩

/-- Every command ends at once in a next state: it never faults and is never refused (20_memory.md R99). -/
theorem exec_next (i : Instr) (s : State) : ∃ t, exec i s = .next t := by
  have hc : ∀ n r, ∃ t, complete s n r = .next t := by intro n r; cases r <;> exact ⟨_, rfl⟩
  cases i with
  | permute ord org tsrc =>
    simp only [exec, execPermute]
    split
    · exact ⟨_, rfl⟩
    · split <;> exact ⟨_, rfl⟩
  | keyinit => simp only [exec, execKeyinit]; split <;> exact ⟨_, rfl⟩
  | ctxset mode scheme =>
    simp only [exec, execCtxset]
    split
    · exact ⟨_, rfl⟩
    · split <;> exact ⟨_, rfl⟩
  | ksgen k => exact hc _ _
  | rfn f => exact hc _ _
  | encb => exact hc _ _
  | decb => exact hc _ _
  | menc => exact hc _ _
  | mdec => exact hc _ _
  | pad p => exact hc _ _
  | unpad p => exact hc _ _

/-- Everything a command can do: raise, commit a DMEM result, load the round keys, or latch the context. -/
theorem exec_cases {i : Instr} {s t : State} (h : exec i s = .next t) :
    (∃ e, t = s.raise e) ∨
      (∃ out n, usesDest i = true ∧ t = s.commitBytes out n) ∨
      (∃ keys, i = .keyinit ∧ keyinitResult s = .ok keys ∧ t = s.commitKeys keys) ∨
      ∃ f m p, i = .ctxset f p ∧ Mode.ofField f = some m ∧ (m = .ecb ∨ s.ivLen.toNat = blockSize s) ∧
        t = s.commitContext m p (ivOperand s) := by
  have hc : ∀ {n : Nat} {r : Except ErrClass Bytes}, usesDest i = true → complete s n r = .next t →
      (∃ e, t = s.raise e) ∨ (∃ out n, usesDest i = true ∧ t = s.commitBytes out n) := by
    intro n r hu hr
    rcases complete_cases hr with ⟨out, -, ht⟩ | ⟨e, -, ht⟩
    · exact .inr ⟨out, n, hu, ht⟩
    · exact .inl ⟨e, ht⟩
  cases i with
  | permute ord org tsrc =>
    rcases execPermute_cases h with ⟨e, -, ht⟩ | ⟨out, -, ⟨-, ht⟩ | ⟨-, ht⟩⟩
    · exact .inl ⟨e, ht⟩
    · exact .inr (.inl ⟨_, _, rfl, ht⟩)
    · exact .inr (.inl ⟨_, _, rfl, ht⟩)
  | keyinit =>
    rcases execKeyinit_cases h with ⟨keys, hk, ht⟩ | ⟨e, -, ht⟩
    · exact .inr (.inr (.inl ⟨keys, rfl, hk, ht⟩))
    · exact .inl ⟨e, ht⟩
  | ctxset f p =>
    rcases execCtxset_cases h with ⟨-, ht⟩ | ⟨m, hm, ⟨-, ht⟩ | ⟨hi, ht⟩⟩
    · exact .inl ⟨_, ht⟩
    · exact .inl ⟨_, ht⟩
    · exact .inr (.inr (.inr ⟨f, m, p, rfl, hm, by tauto, ht⟩))
  | ksgen k => exact (hc rfl h).imp_right .inl
  | rfn f => exact (hc rfl h).imp_right .inl
  | encb => exact (hc rfl h).imp_right .inl
  | decb => exact (hc rfl h).imp_right .inl
  | menc => exact (hc rfl h).imp_right .inl
  | mdec => exact (hc rfl h).imp_right .inl
  | pad p => exact (hc rfl h).imp_right .inl
  | unpad p => exact (hc rfl h).imp_right .inl

/-! ### The host port -/

/-- What a write to `CMD` can do: raise ILLEGAL_COMMAND, or run the decoded command (60_exceptions.md R410). -/
theorem issue_cases {w : Word} {s t : State} (h : issue w s = .next t) :
    (∃ r, decode w = .error r ∧ t = ((s.beginCommand w).raise .illegalCommand).endCommand) ∨
      ∃ i u, decode w = .ok i ∧ exec i (s.beginCommand w) = .next u ∧ t = u.endCommand := by
  unfold issue at h
  split at h
  · exact .inl ⟨_, ‹_›, by simpa using h.symm⟩
  · rename_i i hi
    obtain ⟨u, hu⟩ := exec_next i (s.beginCommand w)
    rw [hu] at h
    exact .inr ⟨i, u, hi, hu, by simpa [endOutcome] using h.symm⟩

theorem issue_next (w : Word) (s : State) : ∃ t, issue w s = .next t := by
  unfold issue
  split
  · exact ⟨_, rfl⟩
  · rename_i i _
    obtain ⟨u, hu⟩ := exec_next i (s.beginCommand w)
    exact ⟨u.endCommand, by rw [hu]; rfl⟩

theorem writeCsr_next (v : Word) (s : State) (c : Csr) : ∃ t, writeCsr v s c = .next t := by
  cases c with
  | cmd => exact issue_next v s
  | _ => exact ⟨_, rfl⟩

/-- Everything a step can do: idle, or serve the oldest access. -/
theorem step_cases {s t : State} (h : step s = .next t) :
    (s.hostq = [] ∧ t = s) ∨ ∃ op rest, s.hostq = op :: rest ∧ hostAccess op (s.popHost rest) = .next t := by
  unfold step serveHost at h
  split at h
  · exact .inl ⟨‹_›, by simpa using h.symm⟩
  · exact .inr ⟨_, _, ‹_›, h⟩

/-- Everything an access of the host can do when it is served. -/
theorem hostAccess_cases {op : HostOp} {s t : State} (h : hostAccess op s = .next t) :
    (∃ r, t = s.reply r) ∨
      (∃ off size v, op = .csrWrite off size v ∧ csrAccessLegal off size = true ∧
        writeCsr v s (csrAt (off / 4)) = .next t) ∨
      (∃ a w v, op = .dmemWrite a w v ∧ inRange s a w = true ∧
        t = { s with dmem := s.dmem.writeBytes a (bebytes v w) }) ∨
      ∃ d, op = .reset d ∧ t = s.platformReset d := by
  cases op with
  | csrRead off size =>
    simp only [hostAccess] at h
    split at h
    · exact .inl ⟨_, by simpa using h.symm⟩
    · cases h
  | csrWrite off size v =>
    simp only [hostAccess] at h
    split at h
    · exact .inr (.inl ⟨off, size, v, rfl, ‹_›, h⟩)
    · cases h
  | dmemRead a w =>
    simp only [hostAccess] at h
    split at h
    · exact .inl ⟨_, by simpa using h.symm⟩
    · cases h
  | dmemWrite a w v =>
    simp only [hostAccess] at h
    split at h
    · exact .inr (.inr (.inl ⟨a, w, v, rfl, ‹_›, by simpa using h.symm⟩))
    · cases h
  | reset d => exact .inr (.inr (.inr ⟨d, rfl, by simpa [hostAccess] using h.symm⟩))

/-! ### Reset -/

theorem reset_dmem_wf : State.reset.dmem.wf := Memory.wf_nil

theorem platformReset_dmem_wf (s : State) (d : ResetDraw) : (s.platformReset d).dmem.wf :=
  (Memory.ofCells_wf_inside _ _).1

end Sys2Proof.Machine
end

