-- ==== Sys2Proof/Laws/Modes.lean ====
section
/-! SUPPORT. The modes and the padding unit: the blocks of a buffer, the blocks of the equations, and pad lengths
(45_modes.md R313; 46_padding.md R360 to R368). -/

namespace Sys2Proof.Machine

/-! ### The blocks of a buffer -/

/-- More fuel than bytes changes nothing: each block takes at least one byte. -/
theorem blocksFuel_eq {B : Nat} (hB : 0 < B) {n : Nat} {d : Bytes} (h : d.length ≤ n) :
    blocksFuel B n d = blocksFuel B d.length d := by
  induction n using Nat.strong_induction_on generalizing d with
  | _ n ih =>
    cases d with
    | nil => cases n <;> rfl
    | cons x xs =>
      obtain ⟨n, rfl⟩ : ∃ m, n = m + 1 := ⟨n - 1, by simp at h; omega⟩
      simp only [List.length_cons] at h
      have hl : ((x :: xs).drop B).length ≤ xs.length := by simp; omega
      simp only [List.length_cons, blocksFuel, List.isEmpty_cons, Bool.false_eq_true, if_false]
      rw [ih n (by omega) (hl.trans (by omega))]
      rcases Nat.lt_or_eq_of_le (show xs.length ≤ n by omega) with hlt | rfl
      · rw [ih xs.length (by omega) hl]
      · rw [ih _ (by omega) hl]

@[simp] theorem blocks_nil (B : Nat) : blocks B [] = [] := rfl

/-- The first block, and the blocks of the rest (R313). -/
theorem blocks_of_ne_nil {B : Nat} (hB : 0 < B) {d : Bytes} (h : d ≠ []) :
    blocks B d = d.take B :: blocks B (d.drop B) := by
  obtain ⟨x, xs, rfl⟩ := List.exists_cons_of_ne_nil h
  simp only [blocks, List.length_cons, blocksFuel, List.isEmpty_cons, Bool.false_eq_true, if_false]
  rw [blocksFuel_eq hB]
  simp; omega

/-! ### The blocks of the equations -/

theorem length_blockOf (B : Nat) (d : Bytes) (i : Nat) : (blockOf B d i).length = min B (d.length - B * i) := by
  simp [blockOf]

@[simp] theorem blockBefore_zero (B : Nat) (iv d : Bytes) : blockBefore B iv d 0 = iv := rfl

@[simp] theorem blockBefore_succ (B : Nat) (iv d : Bytes) (i : Nat) : blockBefore B iv d (i + 1) = blockOf B d i := by
  simp [blockBefore]

theorem blockOf_zero (B : Nat) (d : Bytes) : blockOf B d 0 = d.take B := by simp [blockOf]

/-- Block `i + 1` of a buffer is block `i` of what follows its first block. -/
theorem blockOf_succ (B : Nat) (d : Bytes) (i : Nat) : blockOf B d (i + 1) = blockOf B (d.drop B) i := by
  rw [blockOf, blockOf, List.drop_drop, Nat.mul_succ, Nat.add_comm]

/-! ### Keystream and counter -/

@[simp] theorem length_xorKeystream (x ks : Bytes) : (xorKeystream x ks).length = min x.length ks.length := by
  simp [xorKeystream]

@[simp] theorem length_ctrIncrement (B : Nat) (ctr : Bytes) : (ctrIncrement B ctr).length = B := by simp [ctrIncrement]

@[simp] theorem length_deltaGen (B : Nat) (seed : BitVec 32) (i : Nat) : (deltaGen B seed i).length = B := by
  simp [deltaGen]

/-! ### Padding -/

/-- The unit's pad length is that of R360. -/
theorem padLen_eq_rule (full : PadScheme → Bool) (len : Nat) {B : Nat} (hB : 0 < B) (p : PadScheme) :
    padLen full len B p = padLengthRule (full p) len B := by
  have := Nat.mod_lt len hB
  unfold padLen padLengthRule
  cases full p <;> by_cases h : len % B = 0 <;> simp [h]
  omega

theorem padLengthRule_le (full : Bool) (len : Nat) {B : Nat} (hB : 0 < B) : padLengthRule full len B ≤ B := by
  have := Nat.mod_lt len hB
  unfold padLengthRule
  split
  · omega
  · split <;> omega

/-- Padded data is a whole number of blocks (R361). -/
theorem add_padLengthRule_mod (full : Bool) (len : Nat) {B : Nat} (hB : 0 < B) :
    (len + padLengthRule full len B) % B = 0 := by
  have hm := Nat.mod_lt len hB
  unfold padLengthRule
  split
  · rw [show len + (B - len % B) = B * (len / B) + B by have := Nat.div_add_mod len B; omega, Nat.add_mod_right,
      Nat.mul_mod_right]
  · rename_i h
    split <;> simp_all

/-- What a scheme appends is what its rule says, whatever the fill (R362 to R365). -/
theorem padTail_rule {p : PadScheme} {n : Nat} {fill : Bytes} (hn : 0 < n) (hf : p = .iso10126 → fill.length = n - 1) :
    paddingRule p n (padTail p n fill) := by
  refine ⟨?_, ?_, ?_, ?_, ?_⟩
  · cases p <;> simp [padTail] <;> first | omega | (rw [hf rfl]; omega)
  · rintro rfl j hj
    simp [padTail, zeroBytes, hj]
  · rintro rfl j hj
    rw [padTail, List.getD_append _ _ _ _ (by simp; omega)]
    simp [zeroBytes, show j < n - 1 by omega]
  · rintro rfl j hj
    simp [padTail, hj]
  · intro hp _
    cases p with
    | zeros => exact absurd rfl hp
    | ansiX923 => simp [padTail]
    | pkcs7 => simp [padTail, List.getLast?_replicate, show n ≠ 0 by omega]
    | iso10126 => simp [padTail]

/-! ### Unpadding (46_padding.md R366 to R368) -/

/-- What stripping leaves, with the zeros it took, is the buffer, and it does not end in a zero byte (R368). -/
theorem stripZeros_spec (d : Bytes) :
    (∃ k, d = stripZeros d ++ List.replicate k 0#8) ∧ (stripZeros d = [] ∨ (stripZeros d).getLastD 0#8 ≠ 0#8) := by
  induction d using List.reverseRecOn with
  | nil => exact ⟨⟨0, rfl⟩, .inl rfl⟩
  | append_singleton d x ih =>
    by_cases hx : x = 0#8
    · have h : stripZeros (d ++ [x]) = stripZeros d := by simp [stripZeros, hx]
      obtain ⟨⟨k, hk⟩, hl⟩ := ih
      rw [h]
      refine ⟨⟨k + 1, ?_⟩, hl⟩
      rw [List.replicate_succ', ← List.append_assoc, ← hk, hx]
    · have h : stripZeros (d ++ [x]) = d ++ [x] := by simp [stripZeros, hx]
      rw [h]
      exact ⟨⟨0, by simp⟩, .inr (by simpa using hx)⟩

/-- What unpadding returns is the rule's (R366 to R368). -/
theorem unpadBytes_ok {d : Bytes} {B : Nat} {p : PadScheme} {out : Bytes} (h : unpadBytes d B p = .ok out) :
    unpaddingRule p d out := by
  unfold unpadBytes at h
  split at h
  · rename_i hd
    cases h
    rw [List.isEmpty_iff.1 hd]
    exact ⟨fun _ => ⟨⟨0, rfl⟩, .inl rfl⟩, fun _ => rfl⟩
  · have key : ∀ q, unpadByLength d B q = .ok out → out = d.take (d.length - (d.getLastD 0#8).toNat) := by
      intro q hq
      unfold unpadByLength at hq
      split at hq
      · cases hq
      · split at hq <;> cases hq
        rfl
    cases p with
    | zeros => cases h; exact ⟨fun _ => stripZeros_spec d, fun h => absurd rfl h⟩
    | ansiX923 => exact ⟨(fun e => nomatch e), fun _ => key _ h⟩
    | pkcs7 => exact ⟨(fun e => nomatch e), fun _ => key _ h⟩
    | iso10126 => exact ⟨(fun e => nomatch e), fun _ => key _ h⟩

end Sys2Proof.Machine
end

