-- ==== Sys2Proof/Laws/PerInstr.lean ====
section
/-! SUPPORT. What the word of each command looks like, one lemma per command (30_encoding.md R110, R126). -/

namespace Sys2Proof.Laws

/-- The word of a command holds its opcode in `OP`, its function field in `FN`, and 0 in `RSV` (R110). -/
def EncodeFields.Statement (i : Instr) : Prop :=
  opField (encode i) = i.opcode ∧ fnField (encode i) = i.fn ∧ rsvField (encode i) = 0#16

/-- The three fields of a word put together from them. -/
theorem fields_of_append (f o : BitVec 8) :
    opField (0#16 ++ f ++ o) = o ∧ fnField (0#16 ++ f ++ o) = f ∧ rsvField (0#16 ++ f ++ o) = 0#16 := by
  have h : ∀ i, BitVec.getLsbD (w := 32) (0#16 ++ f ++ o) i =
      if i < 8 then o.getLsbD i else f.getLsbD (i - 8) := by
    intro i
    rw [show BitVec.getLsbD (w := 32) (0#16 ++ f ++ o) i = BitVec.getLsbD (w := 16 + 8 + 8) (0#16 ++ f ++ o) i from rfl,
      BitVec.getLsbD_append, BitVec.getLsbD_append]
    by_cases h1 : i < 8 <;> by_cases h2 : i - 8 < 8 <;> simp [h1, h2]
    exact BitVec.getLsbD_of_ge _ _ (by omega)
  refine ⟨BitVec.eq_of_getLsbD_eq fun i hi => ?_, BitVec.eq_of_getLsbD_eq fun i hi => ?_,
    BitVec.eq_of_getLsbD_eq fun i hi => ?_⟩
  · rw [opField, BitVec.getLsbD_extractLsb', h]; simp [hi]
  · rw [fnField, BitVec.getLsbD_extractLsb', h]; simp [hi]
  · rw [rsvField, BitVec.getLsbD_extractLsb', h, BitVec.getLsbD_of_ge f _ (by omega), if_neg (by omega)]; simp

theorem EncodeFields.permute (ord : BitOrder) (org : Origin) (tsrc : BitVec 3) :
    EncodeFields.Statement (.permute ord org tsrc) := fields_of_append _ _

theorem EncodeFields.ksgen (ksel : Cipher) : EncodeFields.Statement (.ksgen ksel) := fields_of_append _ _

theorem EncodeFields.rfn (fsel : RoundFn) : EncodeFields.Statement (.rfn fsel) := fields_of_append _ _

theorem EncodeFields.keyinit : EncodeFields.Statement .keyinit := fields_of_append _ _

theorem EncodeFields.encb : EncodeFields.Statement .encb := fields_of_append _ _

theorem EncodeFields.decb : EncodeFields.Statement .decb := fields_of_append _ _

theorem EncodeFields.ctxset (mode : BitVec 3) (scheme : PadScheme) : EncodeFields.Statement (.ctxset mode scheme) :=
  fields_of_append _ _

theorem EncodeFields.menc : EncodeFields.Statement .menc := fields_of_append _ _

theorem EncodeFields.mdec : EncodeFields.Statement .mdec := fields_of_append _ _

theorem EncodeFields.pad (scheme : PadScheme) : EncodeFields.Statement (.pad scheme) := fields_of_append _ _

theorem EncodeFields.unpad (scheme : PadScheme) : EncodeFields.Statement (.unpad scheme) := fields_of_append _ _

end Sys2Proof.Laws
end

