-- ==== Sys2Proof/Laws/Results.lean ====
section
/-! SUPPORT. When each command's result is bytes, and which: one lemma per `…Result`, the lengths of the results, and the
checks of key lengths and of the hazard as the rules of Safety.lean. -/

namespace Sys2Proof.Machine

/-! ### Operands -/

@[simp] theorem length_sourceBytes (s : State) : (sourceBytes s).length = s.srcLen.toNat := by simp [sourceBytes]

theorem length_registerBytes (ws : List Word) : (registerBytes ws).length = 4 * ws.length := by
  induction ws with
  | nil => rfl
  | cons w ws ih => simp [registerBytes, List.flatMap_cons] at ih ⊢; omega

/-- `KEY[0 .. KEYLEN)` has `KEYLEN` bytes while `KEYLEN` is at most 32. -/
theorem length_keyOperand {s : State} (h : s.keyLen.toNat ≤ 32) : (keyOperand s).length = s.keyLen.toNat := by
  rw [keyOperand, List.length_take, length_registerBytes]; simp; omega

/-- `IV[0 .. B)` has `B` bytes. -/
@[simp] theorem length_ivOperand (s : State) : (ivOperand s).length = blockSize s := by
  rw [ivOperand, List.length_take, length_registerBytes]
  simp only [Vector.length_toList, blockSize]
  cases s.cipher <;> decide

theorem keyLengthLegal_le {c : Cipher} {n : Nat} (h : keyLengthLegal c n = true) : n ≤ 32 := by
  cases c <;> simp [keyLengthLegal] at h <;> omega

/-! ### Results -/

theorem bitPermute_ok {src : Bytes} {table : List Nat} {ord : BitOrder} {org : Nat} {out : Bytes} :
    bitPermute src table ord org = .ok out ↔
      (∀ v ∈ table, org ≤ v ∧ v < org + 8 * src.length) ∧ out = permuteBits src table ord org := by
  unfold bitPermute
  split
  · rename_i h
    simp only [tableFits, List.all_eq_true, decide_eq_true_eq] at h
    simp only [Except.ok.injEq, eq_comm (b := out)]
    exact (and_iff_right h).symm
  · rename_i h
    simp only [tableFits, List.all_eq_true, decide_eq_true_eq] at h
    simp [h]

theorem permuteResult_ok {ord : BitOrder} {org : Origin} {tsrc : BitVec 3} {s : State} {out : Bytes} :
    permuteResult ord org tsrc s = .ok out ↔
      tsrc ≠ 7#3 ∧ sourceInRange s = true ∧ (tsrc = 0#3 → tableInDmem s = true) ∧ destInRange s = true ∧
        ((tableOperand s tsrc).length + 7) / 8 ≤ s.dstCap.toNat ∧
        (∀ v ∈ tableOperand s tsrc, originNat org ≤ v ∧ v < originNat org + 8 * s.srcLen.toNat) ∧
        out = permuteBits (sourceBytes s) (tableOperand s tsrc) ord (originNat org) := by
  unfold permuteResult
  by_cases h1 : tsrc = 7#3
  · simp [h1]
  by_cases h2 : sourceInRange s = false
  · simp [h1, h2]
  by_cases h3 : tsrc = 0#3 ∧ tableInDmem s = false
  · simp [h2, h3]
  by_cases h4 : destInRange s = false
  · simp [h1, h2, h3, h4]
  by_cases h5 : s.dstCap.toNat < ((tableOperand s tsrc).length + 7) / 8
  · simp only [h1, h2, h3, h4, h5, if_true, if_false]
    constructor
    · intro h; cases h
    · intro h; omega
  · rw [if_neg h1, if_neg h2, if_neg h3, if_neg h4, if_neg h5, bitPermute_ok, length_sourceBytes]
    simp only [Bool.not_eq_false] at h2 h4
    have h3' : tsrc = 0#3 → tableInDmem s = true := fun h0 => by simpa [h0] using h3
    exact ⟨fun h => ⟨h1, h2, h3', h4, Nat.not_lt.1 h5, h⟩, fun h => h.2.2.2.2.2⟩

theorem length_permuteResult {ord : BitOrder} {org : Origin} {tsrc : BitVec 3} {s : State} {out : Bytes}
    (h : permuteResult ord org tsrc s = .ok out) : out.length = ((tableOperand s tsrc).length + 7) / 8 := by
  rw [(permuteResult_ok.1 h).2.2.2.2.2.2, length_permuteBits]

theorem blockResult_ok {f : Bytes → Bytes} {s : State} {out : Bytes} :
    blockResult f s = .ok out ↔
      sourceInRange s = true ∧ destInRange s = true ∧ s.srcLen.toNat = blockSize s ∧
        blockSize s ≤ s.dstCap.toNat ∧ s.init = true ∧ out = f (sourceBytes s) := by
  unfold blockResult
  by_cases h1 : sourceInRange s = false ∨ destInRange s = false
  · simp only [h1, if_true]
    constructor
    · intro h; cases h
    · rintro ⟨h, h', -⟩; simp [h, h'] at h1
  by_cases h2 : s.srcLen.toNat ≠ blockSize s ∨ s.dstCap.toNat < blockSize s
  · simp only [h1, h2, if_true, if_false]
    constructor
    · intro h; cases h
    · intro h; omega
  by_cases h3 : s.init = false
  · simp [h1, h2, h3]
  · rw [if_neg h1, if_neg h2, if_neg h3, Except.ok.injEq]
    simp only [not_or, Bool.not_eq_false, ne_eq, Decidable.not_not, Nat.not_lt] at h1 h2 h3
    exact ⟨fun h => ⟨h1.1, h1.2, h2.1, h2.2, h3, h.symm⟩, fun h => h.2.2.2.2.2.symm⟩

theorem ksgenResult_ok {k : Cipher} {s : State} {out : Bytes} :
    ksgenResult k s = .ok out ↔
      destInRange s = true ∧ keyLengthLegal k s.keyLen.toNat = true ∧ ksgenSize k ≤ s.dstCap.toNat ∧
        ∃ keys, keySchedule s.par.rom k (keyOperand s) = .ok keys ∧ out = keys.flatten := by
  unfold ksgenResult
  by_cases h1 : destInRange s = false
  · simp [h1]
  by_cases h2 : keyLengthLegal k s.keyLen.toNat = false
  · simp [h1, h2]
  rw [if_neg h1, if_neg h2]
  simp only [Bool.not_eq_false] at h1 h2
  cases hk : keySchedule s.par.rom k (keyOperand s) with
  | error e => simp
  | ok keys =>
    by_cases h3 : s.dstCap.toNat < ksgenSize k
    · simp only [if_pos h3]
      exact ⟨fun h => by (cases h), fun h => by omega⟩
    · simp only [if_neg h3, Except.ok.injEq]
      exact ⟨fun h => ⟨h1, h2, Nat.not_lt.1 h3, keys, rfl, h.symm⟩, fun ⟨_, _, _, _, hx, ho⟩ => by rw [ho, hx]⟩

theorem rfnResult_ok {f : RoundFn} {s : State} {out : Bytes} :
    rfnResult f s = .ok out ↔
      sourceInRange s = true ∧ destInRange s = true ∧ s.srcLen.toNat = rfnHalf f ∧
        s.keyLen.toNat = rfnKeyLength f ∧ rfnHalf f ≤ s.dstCap.toNat ∧
        roundFunction s.par.rom f (sourceBytes s) (keyOperand s) = .ok out := by
  unfold rfnResult
  by_cases h1 : sourceInRange s = false ∨ destInRange s = false
  · simp only [h1, if_true]
    constructor
    · intro h; cases h
    · rintro ⟨h, h', -⟩; simp [h, h'] at h1
  by_cases h2 : s.srcLen.toNat ≠ rfnHalf f ∨ s.keyLen.toNat ≠ rfnKeyLength f ∨ s.dstCap.toNat < rfnHalf f
  · simp only [h1, h2, if_true, if_false]
    constructor
    · intro h; cases h
    · intro h; omega
  · rw [if_neg h1, if_neg h2]
    simp only [not_or, Bool.not_eq_false, ne_eq, Decidable.not_not, Nat.not_lt] at h1 h2
    exact ⟨fun h => ⟨h1.1, h1.2, h2.1, h2.2.1, h2.2.2, h⟩, fun h => h.2.2.2.2.2⟩

theorem mencResult_ok {s : State} {out : Bytes} :
    mencResult s = .ok out ↔
      sourceInRange s = true ∧ destInRange s = true ∧ s.ctxv = true ∧ mencLength s ≤ s.dstCap.toNat ∧
        s.init = true ∧
        out = modeEncrypt (modeE s) (modeDelta s) (blockSize s) s.ctxMode s.ctxIv (mencData s) := by
  unfold mencResult
  by_cases h1 : sourceInRange s = false ∨ destInRange s = false
  · simp only [h1, if_true]
    constructor
    · intro h; cases h
    · rintro ⟨h, h', -⟩; simp [h, h'] at h1
  by_cases h2 : s.ctxv = false
  · simp [h1, h2]
  by_cases h3 : s.dstCap.toNat < mencLength s
  · simp only [h1, h2, h3, if_true, if_false]
    constructor
    · intro h; cases h
    · intro h; omega
  by_cases h4 : s.init = false
  · simp [h1, h2, h3, h4]
  · rw [if_neg h1, if_neg h2, if_neg h3, if_neg h4, Except.ok.injEq]
    simp only [not_or, Bool.not_eq_false, Nat.not_lt] at h1 h2 h3 h4
    exact ⟨fun h => ⟨h1.1, h1.2, h2, h3, h4, h.symm⟩, fun h => h.2.2.2.2.2.symm⟩

/-- The checks of `MDEC` before its padding is looked at. -/
theorem mdecResult_ok {s : State} {out : Bytes} :
    mdecResult s = .ok out ↔
      sourceInRange s = true ∧ destInRange s = true ∧ s.ctxv = true ∧
        (streamMode s.ctxMode = true ∨ s.srcLen.toNat % blockSize s = 0) ∧ s.srcLen.toNat ≤ s.dstCap.toNat ∧
        s.init = true ∧
        (if streamMode s.ctxMode then .ok (mdecData s) else unpadBytes (mdecData s) (blockSize s) s.ctxPad) =
          Except.ok (ε := ErrClass) out := by
  unfold mdecResult
  by_cases h1 : sourceInRange s = false ∨ destInRange s = false
  · simp only [h1, if_true]
    constructor
    · intro h; cases h
    · rintro ⟨h, h', -⟩; simp [h, h'] at h1
  by_cases h2 : s.ctxv = false
  · simp [h1, h2]
  by_cases h3 : streamMode s.ctxMode = false ∧ s.srcLen.toNat % blockSize s ≠ 0
  · simp [h1, h2, h3]
  by_cases h4 : s.dstCap.toNat < s.srcLen.toNat
  · simp only [h1, h2, h3, h4, if_true, if_false]
    constructor
    · intro h; cases h
    · intro h; omega
  by_cases h5 : s.init = false
  · simp [h1, h2, h3, h4, h5]
  · rw [if_neg h1, if_neg h2, if_neg h3, if_neg h4, if_neg h5]
    simp only [not_or, Bool.not_eq_false, Nat.not_lt] at h1 h2 h4 h5
    have h3' : streamMode s.ctxMode = true ∨ s.srcLen.toNat % blockSize s = 0 := by
      cases hm : streamMode s.ctxMode with
      | true => exact .inl rfl
      | false => exact .inr (by simpa [hm] using h3)
    exact ⟨fun h => ⟨h1.1, h1.2, h2, h3', h4, h5, h⟩, fun h => h.2.2.2.2.2.2⟩

theorem padResult_ok {p : PadScheme} {s : State} {out : Bytes} :
    padResult p s = .ok out ↔
      sourceInRange s = true ∧ destInRange s = true ∧ s.srcLen.toNat + sourcePadLen p s ≤ s.dstCap.toNat ∧
        out = padBytes (fullBlockPad s.par) (sourceBytes s) (blockSize s) p (freeBytes s (sourcePadDraws p s)) := by
  unfold padResult
  by_cases h1 : sourceInRange s = false ∨ destInRange s = false
  · simp only [h1, if_true]
    constructor
    · intro h; cases h
    · rintro ⟨h, h', -⟩; simp [h, h'] at h1
  by_cases h2 : s.dstCap.toNat < s.srcLen.toNat + sourcePadLen p s
  · simp only [h1, h2, if_true, if_false]
    constructor
    · intro h; cases h
    · intro h; omega
  · rw [if_neg h1, if_neg h2, Except.ok.injEq]
    simp only [not_or, Bool.not_eq_false, Nat.not_lt] at h1 h2
    exact ⟨fun h => ⟨h1.1, h1.2, h2, h.symm⟩, fun h => h.2.2.2.symm⟩

theorem unpadResult_ok {p : PadScheme} {s : State} {out : Bytes} :
    unpadResult p s = .ok out ↔
      sourceInRange s = true ∧ destInRange s = true ∧ s.srcLen.toNat ≤ s.dstCap.toNat ∧
        unpadBytes (sourceBytes s) (blockSize s) p = .ok out := by
  unfold unpadResult
  by_cases h1 : sourceInRange s = false ∨ destInRange s = false
  · simp only [h1, if_true]
    constructor
    · intro h; cases h
    · rintro ⟨h, h', -⟩; simp [h, h'] at h1
  by_cases h2 : s.dstCap.toNat < s.srcLen.toNat
  · simp only [h1, h2, if_true, if_false]
    constructor
    · intro h; cases h
    · intro h; omega
  · rw [if_neg h1, if_neg h2]
    simp only [not_or, Bool.not_eq_false, Nat.not_lt] at h1 h2
    exact ⟨fun h => ⟨h1.1, h1.2, h2, h⟩, fun h => h.2.2.2⟩

/-! ### Free bytes -/

@[simp] theorem length_freeBytes (s : State) (n : Nat) : (freeBytes s n).length = n := by simp [freeBytes]

/-! ### The rules of Safety.lean -/

/-- The model's check of a key length is the rule of R210. -/
theorem keyLengthLegal_iff {c : Cipher} {n : Nat} : keyLengthLegal c n = true ↔ keyLengthRule c n := by
  cases c <;> simp [keyLengthLegal, keyLengthRule, or_assoc]

theorem keyLengthLegal_eq_false {c : Cipher} {n : Nat} : keyLengthLegal c n = false ↔ ¬ keyLengthRule c n := by
  rw [← keyLengthLegal_iff, Bool.not_eq_true]

/-- Two regions share a byte when an address lies in both. -/
theorem regionsOverlap_iff {a m b n : Nat} :
    regionsOverlap a m b n = true ↔ ∃ x, a ≤ x ∧ x < a + m ∧ b ≤ x ∧ x < b + n := by
  simp only [regionsOverlap, decide_eq_true_eq]
  exact ⟨fun h => ⟨max a b, by omega⟩, fun ⟨x, h⟩ => by omega⟩

/-- The model's hazard check is the rule of R460. -/
theorem permuteHazard_iff {tsrc : BitVec 3} {s : State} {t : Nat} :
    permuteHazard tsrc s ((t + 7) / 8) = true ↔ permuteOverlap tsrc s t := by
  simp only [permuteHazard, Bool.or_eq_true, Bool.and_eq_true, beq_iff_eq, regionsOverlap_iff, permuteOverlap]
  constructor
  · rintro (⟨x, h1, h2, h⟩ | ⟨h0, x, h1, h2, h⟩)
    · exact ⟨x, h1, h2, .inl h⟩
    · exact ⟨x, h1, h2, .inr ⟨h0, h⟩⟩
  · rintro ⟨x, h1, h2, h | ⟨h0, h⟩⟩
    · exact .inl ⟨x, h1, h2, h⟩
    · exact .inr ⟨h0, x, h1, h2, h⟩

end Sys2Proof.Machine
end

