-- ==== Sys2Proof/Tests/Slice0.lean ====
section
/-! SUPPORT. The model's own tests: ill-formed terms, decoded words, small steps against the vectors of
95_test_vectors.md, and for every statement with hypotheses a witness that meets them. -/

namespace Sys2Proof.Tests

open Sys2Proof Sys2Proof.Machine

/- One test after another: in parallel, each waits in a thread of its own and the threads' stacks fill the memory limit. -/
set_option Elab.async false

/-! ### Well-formedness -/

theorem test_permute_reserved_tsrc_refused : WellFormed (.permute .msb .one 7#3) = false := by decide

theorem test_ctxset_reserved_mode_refused : WellFormed (.ctxset 7#3 .zeros) = false := by decide

theorem test_all_commands_well_formed : ∀ i ∈ allCommands, WellFormed i = true := by decide

/-! ### Words, written bit by bit from 30_encoding.md R111: RSV, FN, OP -/

/-- R111: `0 TSRC 0 0 ORG ORD`, opcode 0x01: `PERMUTE.LSB.O0 PC2`. -/
theorem test_decode_permute :
    decode 0b00000000000000000110000100000001#32 = .ok (.permute .lsb .zero 6#3) := by rfl

/-- `PERMUTE.MSB.O1 IP`. -/
theorem test_decode_permute_ip :
    decode 0b00000000000000000001001000000001#32 = .ok (.permute .msb .one 1#3) := by rfl

theorem test_decode_ksgen : decode 0b00000000000000000000000100000010#32 = .ok (.ksgen .compound) := by rfl

theorem test_decode_rfn : decode 0b00000000000000000000000000000011#32 = .ok (.rfn .base) := by rfl

theorem test_decode_keyinit : decode 0b00000000000000000000000000010000#32 = .ok .keyinit := by rfl

theorem test_decode_encb : decode 0b00000000000000000000000000010001#32 = .ok .encb := by rfl

theorem test_decode_decb : decode 0b00000000000000000000000000010010#32 = .ok .decb := by rfl

/-- R111: `0 0 PAD 0 MODE`, opcode 0x20: `CTXSET CFB, ANSIX923`. -/
theorem test_decode_ctxset :
    decode 0b00000000000000000001001100100000#32 = .ok (.ctxset 3#3 .ansiX923) := by rfl

theorem test_decode_menc : decode 0b00000000000000000000000000100001#32 = .ok .menc := by rfl

theorem test_decode_mdec : decode 0b00000000000000000000000000100010#32 = .ok .mdec := by rfl

/-- `PAD ISO10126`. -/
theorem test_decode_pad : decode 0b00000000000000000011000000100011#32 = .ok (.pad .iso10126) := by rfl

/-- `UNPAD PKCS7`. -/
theorem test_decode_unpad : decode 0b00000000000000000010000000100100#32 = .ok (.unpad .pkcs7) := by rfl

/-- R127: an unknown opcode, `RSV`, a reserved bit of `FN`, reserved values. -/
theorem test_decode_illegal :
    decode 0x00000025#32 = .error .unknownOpcode ∧ decode 0x80000010#32 = .error .rsvNonzero ∧
      decode 0x00000401#32 = .error .reservedBit ∧ decode 0x00007001#32 = .error .reservedValue ∧
      decode 0x00000720#32 = .error .reservedValue := ⟨rfl, rfl, rfl, rfl, rfl⟩

theorem test_table_word : decodeTableWord 32 0x2120 = some (.ctxset 1#3 .pkcs7) := by rfl

/-- R132: the assembler text of R134's examples. -/
theorem test_text : (Instr.permute .msb .one 1#3).text = "PERMUTE.MSB.O1 IP" ∧
    (Instr.ctxset 6#3 .iso10126).text = "CTXSET RD, ISO10126" := by decide

/-! ### States for the tests -/

/-- K1 of 95_test_vectors.md. -/
def k1 : Bytes := [0x13#8, 0x34#8, 0x57#8, 0x79#8, 0x9B#8, 0xBC#8, 0xDF#8, 0xF1#8]

/-- PT of 95_test_vectors.md. -/
def pt : Bytes := [0x01#8, 0x23#8, 0x45#8, 0x67#8, 0x89#8, 0xAB#8, 0xCD#8, 0xEF#8]

/-- IV_A of 95_test_vectors.md. -/
def ivA : Bytes := [0xA0#8, 0xA1#8, 0xA2#8, 0xA3#8, 0xA4#8, 0xA5#8, 0xA6#8, 0xA7#8]

/-- `BaseEncrypt(PT)` under K1 (95_test_vectors.md section 2.5). -/
def ct : Bytes := [0x4A#8, 0xD4#8, 0x23#8, 0xA8#8, 0x0F#8, 0x05#8, 0x78#8, 0x0A#8]

/-- After reset, with a source of 8 bytes at 0, a destination of 32 bytes at 0x40, K1 and IV_A in the CSRs. -/
def withSource (d : Bytes) : State :=
  { State.reset with
    dmem := Memory.writeBytes [] 0 d
    srcLen := BitVec.ofNat 32 d.length
    dstAddr := 0x40#32
    dstCap := 32#32
    key := #v[0x13345779#32, 0x9BBCDFF1#32, 0#32, 0#32, 0#32, 0#32, 0#32, 0#32]
    keyLen := 8#6
    iv := #v[0xA0A1A2A3#32, 0xA4A5A6A7#32, 0#32, 0#32]
    ivLen := 8#5 }

/-- The same with K1 loaded and a context latched. -/
def ready (d : Bytes) (m : Mode) (p : PadScheme) : State :=
  { withSource d with
    init := true
    rk := baseRoundKeys romDefault k1
    ctxv := true
    ctxMode := m
    ctxPad := p
    ctxIv := ivA }

/-- The next state of an outcome, or a state to fall back on. -/
def after (o : Host.Outcome State Fault Refusal) (s : State) : State :=
  match o with
  | .next t => t
  | .fault _ => s
  | .refused _ => s

/-- The state after a command. -/
def ran (i : Instr) (s : State) : State := after (exec i s) s

theorem exec_ran (i : Instr) (s : State) : exec i s = .next (ran i s) := by
  obtain ⟨t, h⟩ := exec_next i s
  rw [ran, h]; rfl

/-- The bytes a command wrote. -/
def output (t : State) : Bytes := t.dmem.readBytes t.dstAddr.toNat t.outLen.toNat

/-! ### Commands, against 95_test_vectors.md -/

/-- Section 2.1: ROM `IP` on PT, MSB-first and LSB-first, origin 1. -/
theorem test_permute_ip :
    output (ran (.permute .msb .one 1#3) (withSource pt)) =
        [0xCC#8, 0x00#8, 0xCC#8, 0xFF#8, 0xF0#8, 0xAA#8, 0xF0#8, 0xAA#8] ∧
      output (ran (.permute .lsb .one 1#3) (withSource pt)) =
        [0x55#8, 0x0F#8, 0x55#8, 0x0F#8, 0xFF#8, 0x33#8, 0x00#8, 0x33#8] := by decide +kernel

/-- Section 2.1: `B5` through the DMEM table `[1, 1, 2]` at 8, MSB-first, gives `C0`; entry 9 is out of range. -/
theorem test_permute_dmem_table :
    output (ran (.permute .msb .one 0#3)
        { withSource [0xB5#8, 0#8, 1#8, 0#8, 1#8, 0#8, 2#8] with srcLen := 1#32, tblAddr := 1#32, tblLen := 3#32 }) =
        [0xC0#8] ∧
      (ran (.permute .msb .one 0#3)
        { withSource [0xB5#8, 0#8, 9#8] with srcLen := 1#32, tblAddr := 1#32, tblLen := 1#32 }).errcode =
        some .invalidArgument := by decide +kernel

/-- Section 2.3: the first round key of K1, and the key lengths KSGEN refuses. -/
theorem test_ksgen_base :
    (output (ran (.ksgen .base) { withSource pt with dstCap := 96#32 })).take 6 =
        [0x1B#8, 0x02#8, 0xEF#8, 0xFC#8, 0x70#8, 0x72#8] ∧
      (ran (.ksgen .base) { withSource pt with dstCap := 95#32 }).errcode = some .invalidArgument ∧
      (ran (.ksgen .compound) { withSource pt with dstCap := 128#32 }).errcode = some .invalidArgument := by
  decide +kernel

/-- Section 2.4: the base round of `F0 AA F0 AA` under `1B 02 EF FC 70 72`. -/
theorem test_rfn_base :
    output (ran (.rfn .base) { withSource [0xF0#8, 0xAA#8, 0xF0#8, 0xAA#8] with
      key := #v[0x1B02EFFC#32, 0x70720000#32, 0#32, 0#32, 0#32, 0#32, 0#32, 0#32], keyLen := 6#6 }) =
      [0x23#8, 0x4A#8, 0xA9#8, 0xBB#8] := by decide +kernel

/-- Section 2.3: the last round key of K1; 42 R210: another key length changes nothing. -/
theorem test_keyinit :
    (ran .keyinit (withSource pt)).rk.getLast? = some [0xCB#8, 0x3D#8, 0x8B#8, 0x0E#8, 0x17#8, 0xF5#8] ∧
      (ran .keyinit (withSource pt)).init = true ∧
      (ran .keyinit { withSource pt with keyLen := 16#6 }).init = false := by decide +kernel

/-- Section 2.5. -/
theorem test_encb : output (ran .encb (ready pt .ecb .zeros)) = ct := by decide +kernel

/-- Section 2.5. -/
theorem test_decb : output (ran .decb (ready ct .ecb .zeros)) = pt := by decide +kernel

/-- 45 R320: the context holds `IV[0 .. B)`; an IV of another length raises. -/
theorem test_ctxset :
    (ran (.ctxset 1#3 .pkcs7) (withSource pt)).ctxIv = ivA ∧
      (ran (.ctxset 1#3 .pkcs7) { withSource pt with ivLen := 16#5 }).errcode = some .invalidArgument := by
  decide +kernel

/-- Section 2.6: the trace of the compound cipher after round 0, and one round back. -/
theorem test_compound_round :
    compEncrypt romDefault [[0#8, 1#8, 2#8, 3#8, 4#8, 5#8, 6#8, 7#8]]
        [0x00#8, 0x11#8, 0x22#8, 0x33#8, 0x44#8, 0x55#8, 0x66#8, 0x77#8,
          0x88#8, 0x99#8, 0xAA#8, 0xBB#8, 0xCC#8, 0xDD#8, 0xEE#8, 0xFF#8] =
        [0x88#8, 0x99#8, 0xAA#8, 0xBB#8, 0xCC#8, 0xDD#8, 0xEE#8, 0xFF#8,
          0x49#8, 0xB0#8, 0xED#8, 0xA4#8, 0x68#8, 0xE2#8, 0x31#8, 0x0F#8] ∧
      compDecrypt romDefault [[0#8, 1#8, 2#8, 3#8, 4#8, 5#8, 6#8, 7#8]]
        [0x88#8, 0x99#8, 0xAA#8, 0xBB#8, 0xCC#8, 0xDD#8, 0xEE#8, 0xFF#8,
          0x49#8, 0xB0#8, 0xED#8, 0xA4#8, 0x68#8, 0xE2#8, 0x31#8, 0x0F#8] =
        [0x00#8, 0x11#8, 0x22#8, 0x33#8, 0x44#8, 0x55#8, 0x66#8, 0x77#8,
          0x88#8, 0x99#8, 0xAA#8, 0xBB#8, 0xCC#8, 0xDD#8, 0xEE#8, 0xFF#8] := by decide +kernel

/-- Section 2.7: three bytes under OFB are the prefix of the vector. -/
theorem test_menc_ofb :
    output (ran .menc (ready (pt.take 3) .ofb .pkcs7)) = [0x7A#8, 0x7E#8, 0x33#8] := by decide +kernel

/-- Section 2.7: the first CBC block. -/
theorem test_mdec_cbc :
    output (ran .mdec (ready [0x65#8, 0xB4#8, 0x0E#8, 0x85#8, 0xD2#8, 0x41#8, 0x0F#8, 0x1D#8] .cbc .zeros)) = pt := by
  decide +kernel

/-- 46 R364, R365: five bytes under PKCS7; under ISO 10126 two fill bytes are drawn. -/
theorem test_pad :
    output (ran (.pad .pkcs7) (withSource (pt.take 5))) =
        [0x01#8, 0x23#8, 0x45#8, 0x67#8, 0x89#8, 3#8, 3#8, 3#8] ∧
      (ran (.pad .iso10126) (withSource (pt.take 5))).outLen = 8#32 ∧
      (ran (.pad .iso10126) (withSource (pt.take 5))).draws = 2 := by decide +kernel

/-- 46 R369, R373: PKCS7 padding removed; a wrong filler byte. -/
theorem test_unpad :
    output (ran (.unpad .pkcs7) (withSource [9#8, 9#8, 9#8, 9#8, 9#8, 9#8, 2#8, 2#8])) =
        [9#8, 9#8, 9#8, 9#8, 9#8, 9#8] ∧
      (ran (.unpad .pkcs7) (withSource [9#8, 9#8, 9#8, 9#8, 9#8, 9#8, 1#8, 2#8])).errcode =
        some .paddingValidation := by decide +kernel

/-! ### Steps -/

/-- Every row of the opcode table, placed after reset, is the command the next step runs. -/
theorem test_step_runs_every_row :
    ∀ w ∈ [0x01, 0x02, 0x03, 0x10, 0x11, 0x12, 0x20, 0x21, 0x22, 0x23, 0x24],
      (after (step (State.reset.withFetchWord 32 w)) State.reset).cmd = BitVec.ofNat 32 w ∧
      (after (step (State.reset.withFetchWord 32 w)) State.reset).busy = false ∧
      (after (step (State.reset.withFetchWord 32 w)) State.reset).hostq = [] := by decide +kernel

/-- 60 R405, R410: an illegal word. -/
theorem test_step_illegal_word :
    (after (step (State.reset.withFetchWord 32 0)) State.reset).errcode = some .illegalCommand := by decide +kernel

/-- 10 R37: a change of the cipher clears `INIT` and `CTXV`, the same value does not. -/
theorem test_cfg_write :
    (after (hostAccess (.csrWrite 0x008 4 1#32) (ready pt .ecb .zeros)) State.reset).init = false ∧
      (after (hostAccess (.csrWrite 0x008 4 0#32) (ready pt .ecb .zeros)) State.reset).init = true := by
  decide +kernel

/-- 20 R89: a four-byte host write is big-endian. -/
theorem test_host_dmem_write :
    (after (hostAccess (.dmemWrite 8 4 0x01020304) State.reset) State.reset).dmem =
      [(8, 1#8), (9, 2#8), (10, 3#8), (11, 4#8)] := by decide +kernel

/-! ### Witnesses: for every statement with hypotheses, a state and operands that meet them -/

/-- A state with a short source, K1 loaded and a context latched meets the invariant. -/
theorem ready_inv (d : Bytes) (m : Mode) (p : PadScheme) (h : d.length ≤ 64) : Inv (ready d m p) where
  params := show paramsValid paramsDefault = true by decide +kernel
  canonical := Memory.wf_writeBytes Memory.wf_nil 0 d
  inside := by
    intro c hc
    rcases Memory.mem_writeBytes (show c ∈ Memory.writeBytes [] 0 d from hc) with hc | hc
    · show c.1 < 65536
      omega
    · simp at hc
  keys := fun _ => ⟨k1, rfl, rfl⟩
  context := fun _ _ => rfl
  noMismatch := by simp [ready, withSource, State.reset]
  outLen := Nat.zero_le _

theorem witness_DecodeInvertsEncode :
    WellFormed (.permute .lsb .zero 6#3) = true ∧ WellFormed (.ctxset 6#3 .iso10126) = true := ⟨rfl, rfl⟩

theorem witness_EncodeInvertsDecode : decode 0x00003023#32 = .ok (.pad .iso10126) := rfl

theorem witness_IllegalWordsRaiseIllegalCommand :
    illegalWord 0x00000025#32 ∧ illegalWord 0x80000010#32 ∧ illegalWord 0x00000401#32 ∧
      illegalWord 0x00007001#32 ∧ illegalWord 0x00000720#32 :=
  ⟨trivial, .inl (by decide), .inl (by decide), .inr (.inl (by decide)), .inr (.inr (by decide))⟩

theorem witness_StepRunsDecodedCommand :
    (State.reset.withFetchWord 32 0x10).hostq = .csrWrite 0x000 4 0x10#32 :: [] ∧
      decode 0x10#32 = .ok .keyinit := ⟨rfl, rfl⟩

theorem witness_IdleEngineHoldsState : State.reset.hostq = [] := rfl

theorem witness_StepServesAccessesInOrder :
    ∃ t, (State.reset.withFetchWord 32 0x10).hostq = .csrWrite 0x000 4 0x10#32 :: [] ∧
      step (State.reset.withFetchWord 32 0x10) = .next t := by
  obtain ⟨t, ht⟩ := issue_next 0x10#32 (State.popHost (State.reset.withFetchWord 32 0x10) [])
  exact ⟨t, rfl, ht⟩

/-- Accesses of a wrong size, misaligned and outside; the first and last reserved offsets. -/
theorem witness_CsrAccessRules :
    ¬ (2 = 4 ∧ 0 % 4 = 0 ∧ 0 < 0x100) ∧ ¬ (4 = 4 ∧ 0x02 % 4 = 0 ∧ 0x02 < 0x100) ∧
      ¬ (4 = 4 ∧ 0x100 % 4 = 0 ∧ 0x100 < 0x100) ∧
      ∀ off ∈ [0x030, 0x03C, 0x070, 0x0FC], off % 4 = 0 ∧ off < 0x100 ∧
        ((0x030 ≤ off ∧ off < 0x040) ∨ 0x070 ≤ off) := by decide

theorem witness_CfgWriteSelectsCipher :
    BitVec.extractLsb' 0 2 0xF0#32 = 0#2 ∧ BitVec.extractLsb' 0 2 0xF1#32 = 1#2 ∧
      2 ≤ (BitVec.extractLsb' 0 2 2#32).toNat ∧ 2 ≤ (BitVec.extractLsb' 0 2 3#32).toNat ∧
      State.reset.cipher = .base ∧ { State.reset with cipher := .compound }.cipher = .compound := by decide

/-- A key of 8 bytes, its last byte; an IV of 8 bytes, its last byte. -/
theorem witness_KeyAndIvBytesAreBigEndian :
    0 < 4 ∧ 3 < 4 ∧ (withSource pt).keyLen.toNat ≤ 32 ∧ 4 * 1 + 3 < (withSource pt).keyLen.toNat ∧
      4 * 1 + 3 < blockSize (withSource pt) := by decide

theorem witness_PlainRegisterWriteReadsBack :
    Csr.outLen ≠ .reserved ∧ plainRegister .keyLen = true ∧ plainRegister .ivLen = true ∧ plainRegister .tblLen = true ∧
      plainRegister (.key 7) = true ∧ plainRegister (.iv 3) = true := by decide

/-- The last bytes of DMEM, and one byte further. -/
theorem witness_HostDmemReadAfterWrite :
    (withSource pt).dmem.wf ∧ 65532 + 4 ≤ (withSource pt).par.dmemSize ∧
      (withSource pt).par.dmemSize < 65533 + 4 := by decide

/-- Each error class of R400 in `ERRCODE`, and none. -/
theorem witness_StatusWordFields :
    ∀ e ∈ [none, some ErrClass.invalidArgument, some .notInitialized, some .keyScheduleMismatch, some .paddingValidation,
      some .illegalCommand, some .addressRange], { State.reset with errcode := e }.errcode = e := by decide

theorem witness_FailedCommandChangesOnlyErrorState :
    ∃ t, issue 0#32 State.reset = .next t ∧ t.errcode = some .illegalCommand := ⟨_, rfl, rfl⟩

/-- A destination that ends at the last byte of DMEM, and one that ends one byte behind it. -/
theorem witness_AddressRangeExactlyWhenARegionIsOutside :
    WellFormed .encb = true ∧
      exec .encb { withSource pt with dstAddr := 0xFFE1#32 } =
        .next (ran .encb { withSource pt with dstAddr := 0xFFE1#32 }) ∧
      (ran .encb { withSource pt with dstAddr := 0xFFE1#32 }).errcode = some .addressRange ∧
      (ran .encb { withSource pt with dstAddr := 0xFFE0#32 }).errcode = some .notInitialized :=
  ⟨rfl, exec_ran _ _, by decide +kernel, by decide +kernel⟩

/-- One state for each clause: a region outside DMEM; a source of 7 bytes; a capacity of 7; no key loaded. -/
theorem witness_BlockCommandCheckOrder :
    destInRange { withSource pt with dstAddr := 0xFFE1#32 } = false ∧
      (sourceInRange (withSource (pt.take 7)) = true ∧ destInRange (withSource (pt.take 7)) = true ∧
        (withSource (pt.take 7)).srcLen.toNat ≠ blockSize (withSource (pt.take 7))) ∧
      { withSource pt with dstCap := 7#32 }.dstCap.toNat < blockSize { withSource pt with dstCap := 7#32 } ∧
      (sourceInRange (withSource pt) = true ∧ destInRange (withSource pt) = true ∧
        (withSource pt).srcLen.toNat = blockSize (withSource pt) ∧
        blockSize (withSource pt) ≤ (withSource pt).dstCap.toNat ∧ (withSource pt).init = false) := by
  decide +kernel

/-- One state for each clause: no context; a context, too little capacity; no key; a length that is no multiple of 8. -/
theorem witness_ModeCommandCheckOrder :
    (sourceInRange (withSource pt) = true ∧ destInRange (withSource pt) = true ∧ (withSource pt).ctxv = false) ∧
      { ready pt .cbc .pkcs7 with dstCap := 15#32 }.dstCap.toNat <
        mencLength { ready pt .cbc .pkcs7 with dstCap := 15#32 } ∧
      (mencLength { ready pt .cbc .pkcs7 with dstCap := 16#32, init := false } ≤ 16 ∧
        { ready pt .cbc .pkcs7 with dstCap := 16#32, init := false }.init = false) ∧
      (streamMode (ready (pt.take 7) .cbc .pkcs7).ctxMode = false ∧
        (ready (pt.take 7) .cbc .pkcs7).srcLen.toNat % blockSize (ready (pt.take 7) .cbc .pkcs7) ≠ 0) ∧
      { ready pt .ofb .zeros with dstCap := 7#32 }.dstCap.toNat <
        { ready pt .ofb .zeros with dstCap := 7#32 }.srcLen.toNat := by decide +kernel

theorem witness_KeyScheduleMismatchUnreachable :
    romValid (withSource pt).par.rom = true ∧ exec .keyinit (withSource pt) = .next (ran .keyinit (withSource pt)) :=
  ⟨romValid_default, exec_ran _ _⟩

theorem witness_PaddingValidationSources :
    exec (.unpad .ansiX923) (withSource pt) = .next (ran (.unpad .ansiX923) (withSource pt)) ∧
      (ran (.unpad .ansiX923) (withSource pt)).errcode = some .paddingValidation :=
  ⟨exec_ran _ _, by decide +kernel⟩

/-- 46 R367, R368 and R366: the empty buffer; more zeros than a block; an unaligned buffer under ISO 10126. -/
theorem witness_UnpadFailsExactly :
    unpadBytes [] 8 .pkcs7 = .ok [] ∧ unpadBytes (7#8 :: zeroBytes 10) 8 .zeros = .ok [7#8] ∧
      unpadBytes [1#8, 2#8, 3#8, 4#8, 2#8] 8 .iso10126 = .ok [1#8, 2#8, 3#8] := by decide

/-- Source `B5` at 0, destination at 1, a table of the one entry `7` at 2: apart by no byte, as one byte is written, while
the capacity of 32 reaches over the table. -/
def tightPermute : State :=
  { withSource [0xB5#8, 0#8, 0#8, 7#8] with srcLen := 1#32, dstAddr := 1#32, tblAddr := 2#32, tblLen := 1#32 }

/-- A ROM table, and a table of one entry in DMEM, so `k = 0` is its boundary; a first bit and a last bit of a byte. -/
theorem witness_PermuteSelectsBits :
    (withSource pt).dmem.wf ∧ sourceInRange (withSource pt) = true ∧ destInRange (withSource pt) = true ∧
      (∀ v ∈ tableOperand (withSource pt) 1#3, 1 ≤ v ∧ v < 1 + 8 * (withSource pt).srcLen.toNat) ∧
      ((tableOperand (withSource pt) 1#3).length + 7) / 8 ≤ (withSource pt).dstCap.toNat ∧
      ¬ permuteOverlap 1#3 (withSource pt) (tableOperand (withSource pt) 1#3).length ∧
      tightPermute.dmem.wf ∧ sourceInRange tightPermute = true ∧ tableInDmem tightPermute = true ∧
      destInRange tightPermute = true ∧
      (∀ v ∈ tableOperand tightPermute 0#3, 0 ≤ v ∧ v < 0 + 8 * tightPermute.srcLen.toNat) ∧
      ¬ permuteOverlap 0#3 tightPermute (tableOperand tightPermute 0#3).length ∧
      0 / 8 < [0xB5#8].length ∧ 7 / 8 < [0xB5#8].length :=
  ⟨by decide, by decide, by decide, by decide +kernel, by decide +kernel, permuteHazard_iff.not.1 (by decide +kernel),
    by decide, by decide, by decide, by decide, by decide, permuteHazard_iff.not.1 (by decide), by decide, by decide⟩

/-- R460: the bytes written decide the overlap, not the capacity: bit 7 of `B5`, MSB-first, is 1. -/
theorem test_permute_beside_its_table :
    output (ran (.permute .msb .zero 0#3) tightPermute) = [0x80#8] ∧
      (ran (.permute .msb .zero 0#3) tightPermute).draws = 0 := by decide +kernel

/-- A capacity of 7 for 64 bits; an entry of 57 to 64 in a source of 7 bytes. -/
theorem witness_PermuteInvalidTableRaises :
    { withSource pt with dstCap := 7#32 }.dstCap.toNat <
        ((tableOperand { withSource pt with dstCap := 7#32 } 1#3).length + 7) / 8 ∧
      ∃ v ∈ tableOperand (withSource (pt.take 7)) 1#3, v < 1 ∨ 1 + 8 * (withSource (pt.take 7)).srcLen.toNat ≤ v :=
  ⟨by decide +kernel, 58, by decide +kernel, by decide +kernel⟩

/-- The destination is the source; it is the last byte of the table. -/
theorem witness_PermuteOverlapChangesOnlyDestination :
    { withSource pt with dstAddr := 0#32 }.dmem.wf ∧ sourceInRange { withSource pt with dstAddr := 0#32 } = true ∧
      destInRange { withSource pt with dstAddr := 0#32 } = true ∧
      (∀ v ∈ tableOperand { withSource pt with dstAddr := 0#32 } 1#3, 1 ≤ v ∧ v < 1 + 8 * 8) ∧
      ((tableOperand { withSource pt with dstAddr := 0#32 } 1#3).length + 7) / 8 ≤ 32 ∧
      permuteOverlap 1#3 { withSource pt with dstAddr := 0#32 }
        (tableOperand { withSource pt with dstAddr := 0#32 } 1#3).length ∧
      tableInDmem { tightPermute with dstAddr := 3#32 } = true ∧
      destInRange { tightPermute with dstAddr := 3#32 } = true ∧
      (∀ v ∈ tableOperand { tightPermute with dstAddr := 3#32 } 0#3, 0 ≤ v ∧ v < 0 + 8 * 1) ∧
      permuteOverlap 0#3 { tightPermute with dstAddr := 3#32 }
        (tableOperand { tightPermute with dstAddr := 3#32 } 0#3).length :=
  ⟨by decide, by decide, by decide, by decide +kernel, by decide +kernel, permuteHazard_iff.1 (by decide +kernel),
    by decide, by decide, by decide, permuteHazard_iff.1 (by decide)⟩

/-- Each legal length, and a length that only the other cipher takes. -/
theorem witness_KsgenWritesRoundKeys :
    destInRange { withSource pt with dstCap := 96#32 } = true ∧ romValid (withSource pt).par.rom = true ∧
      (withSource pt).dmem.wf ∧ keyLengthRule .base (withSource pt).keyLen.toNat ∧
      ¬ keyLengthRule .compound (withSource pt).keyLen.toNat ∧
      (∀ n ∈ [16#6, 24#6, 32#6], keyLengthRule .compound { withSource pt with keyLen := n }.keyLen.toNat ∧
        ¬ keyLengthRule .base { withSource pt with keyLen := n }.keyLen.toNat) ∧
      { withSource pt with dstCap := 95#32 }.dstCap.toNat < 96 := by
  unfold keyLengthRule; decide +kernel

theorem witness_RfnAppliesRoundFunction :
    sourceInRange (withSource pt) = true ∧ destInRange (withSource pt) = true ∧
      (withSource pt).srcLen.toNat = 8 ∧ (withSource pt).keyLen.toNat = 8 ∧ 8 ≤ (withSource pt).dstCap.toNat ∧
      { withSource (pt.take 4) with keyLen := 6#6 }.srcLen.toNat = 4 ∧
      { withSource (pt.take 4) with keyLen := 6#6 }.keyLen.toNat = 6 ∧ (withSource pt).dmem.wf := by decide

theorem witness_KeyinitLoadsRoundKeys :
    romValid (withSource pt).par.rom = true ∧ keyLengthRule (withSource pt).cipher (withSource pt).keyLen.toNat ∧
      (∀ n ∈ [16#6, 24#6, 32#6], keyLengthRule .compound
        { withSource pt with cipher := .compound, keyLen := n }.keyLen.toNat) ∧
      ¬ keyLengthRule .base { withSource pt with keyLen := 16#6 }.keyLen.toNat := by
  unfold keyLengthRule; decide +kernel

theorem witness_BlockCommandsTransformOneBlock :
    romValid (ready pt .ecb .zeros).par.rom = true ∧ (ready pt .ecb .zeros).dmem.wf ∧
      sourceInRange (ready pt .ecb .zeros) = true ∧ destInRange (ready pt .ecb .zeros) = true ∧
      (ready pt .ecb .zeros).srcLen.toNat = blockSize (ready pt .ecb .zeros) ∧
      blockSize (ready pt .ecb .zeros) ≤ (ready pt .ecb .zeros).dstCap.toNat ∧
      (ready pt .ecb .zeros).init = true := by decide +kernel

theorem witness_CtxsetLatchesContext :
    Mode.cbc ≠ .ecb ∧ (withSource pt).ivLen.toNat = blockSize (withSource pt) ∧
      { withSource pt with ivLen := 16#5 }.ivLen.toNat ≠ blockSize (withSource pt) := by decide

/-- A padded mode, where a whole block is added, and a stream-like mode, where nothing is. -/
theorem witness_MencEncryptsBuffer :
    Inv (ready pt .cbc .pkcs7) ∧ sourceInRange (ready pt .cbc .pkcs7) = true ∧
      destInRange (ready pt .cbc .pkcs7) = true ∧ (ready pt .cbc .pkcs7).ctxv = true ∧
      (ready pt .cbc .pkcs7).init = true ∧
      8 = (if streamMode (ready pt .cbc .pkcs7).ctxMode then 0
        else padLengthRule (fullBlockPad (ready pt .cbc .pkcs7).par (ready pt .cbc .pkcs7).ctxPad)
          (ready pt .cbc .pkcs7).srcLen.toNat (blockSize (ready pt .cbc .pkcs7))) ∧
      (ready pt .cbc .pkcs7).srcLen.toNat + 8 ≤ (ready pt .cbc .pkcs7).dstCap.toNat ∧
      Inv (ready (pt.take 3) .ctr .zeros) ∧ streamMode (ready (pt.take 3) .ctr .zeros).ctxMode = true ∧
      (ready (pt.take 3) .ctr .zeros).srcLen.toNat + 0 ≤ (ready (pt.take 3) .ctr .zeros).dstCap.toNat :=
  ⟨ready_inv _ _ _ (by decide), by decide, by decide, rfl, rfl, by decide, by decide, ready_inv _ _ _ (by decide), rfl,
    by decide⟩

/-- A stream-like mode; a padded mode whose padding validates, and one whose padding does not. -/
theorem witness_MdecDecryptsBuffer :
    Inv (ready ct .ecb .zeros) ∧ sourceInRange (ready ct .ecb .zeros) = true ∧
      destInRange (ready ct .ecb .zeros) = true ∧ (ready ct .ecb .zeros).srcLen.toNat ≤ 32 ∧
      streamMode (ready ct .ofb .zeros).ctxMode = true ∧ streamMode (ready ct .ecb .zeros).ctxMode = false ∧
      (ready ct .ecb .zeros).srcLen.toNat % blockSize (ready ct .ecb .zeros) = 0 ∧
      (∃ out, unpadBytes (mdecData (ready [] .ecb .pkcs7)) 8 .pkcs7 = .ok out) ∧
      ∃ e, unpadBytes (mdecData (ready ct .ecb .pkcs7)) 8 .pkcs7 = .error e :=
  ⟨ready_inv _ _ _ (by decide), by decide, by decide, by decide, rfl, rfl, by decide, ⟨[], by decide +kernel⟩,
    ⟨.paddingValidation, by decide +kernel⟩⟩

/-- Five bytes need 3 more; eight bytes need 8 more, which a capacity of 15 has not. -/
theorem witness_PadWritesPaddedData :
    sourceInRange (withSource (pt.take 5)) = true ∧ destInRange (withSource (pt.take 5)) = true ∧
      (withSource (pt.take 5)).dmem.wf ∧ (withSource (pt.take 5)).srcLen.toNat % blockSize (withSource (pt.take 5)) ≠ 0 ∧
      (withSource (pt.take 5)).srcLen.toNat + 3 ≤ (withSource (pt.take 5)).dstCap.toNat ∧
      fullBlockPad (withSource pt).par .pkcs7 = true ∧
      { withSource pt with dstCap := 15#32 }.dstCap.toNat < (withSource pt).srcLen.toNat + 8 := by decide

/-- One state for each clause: PKCS7 removed; under Zeros, ten zero bytes with a block size of 8; a filler of PKCS7 that is
wrong; too little capacity. -/
theorem witness_UnpadWritesUnpaddedData :
    (withSource [5#8, 1#8]).dmem.wf ∧ sourceInRange (withSource [5#8, 1#8]) = true ∧
      destInRange (withSource [5#8, 1#8]) = true ∧
      (withSource [5#8, 1#8]).srcLen.toNat ≤ (withSource [5#8, 1#8]).dstCap.toNat ∧
      (∃ out, unpadBytes (sourceBytes (withSource [5#8, 1#8])) 8 .pkcs7 = .ok out) ∧
      (∃ out, unpadBytes (sourceBytes (withSource (5#8 :: zeroBytes 10))) 8 .zeros = .ok out) ∧
      (∃ e, unpadBytes (sourceBytes (withSource [5#8, 3#8])) 8 .pkcs7 = .error e) ∧
      { withSource [5#8, 1#8] with dstCap := 1#32 }.dstCap.toNat < (withSource [5#8, 1#8]).srcLen.toNat :=
  ⟨by decide, by decide, by decide, by decide, ⟨[5#8], by decide +kernel⟩, ⟨[5#8], by decide +kernel⟩,
    ⟨.paddingValidation, by decide +kernel⟩, by decide⟩

theorem witness_DmemCommandsFrame :
    Inv (ready pt .cbc .pkcs7) ∧ usesDest .menc = true ∧
      exec .menc (ready pt .cbc .pkcs7) = .next (ran .menc (ready pt .cbc .pkcs7)) ∧
      (ran .menc (ready pt .cbc .pkcs7)).errcode = none ∧
      (ran .menc { ready pt .cbc .pkcs7 with init := false }).errcode ≠ none :=
  ⟨ready_inv _ _ _ (by decide), rfl, exec_ran _ _, by decide +kernel, by decide +kernel⟩

theorem witness_KeyAndContextCommandsFrame :
    exec .keyinit (ready pt .cbc .pkcs7) = .next (ran .keyinit (ready pt .cbc .pkcs7)) ∧
      exec (.ctxset 0#3 .zeros) (ready pt .cbc .pkcs7) = .next (ran (.ctxset 0#3 .zeros) (ready pt .cbc .pkcs7)) :=
  ⟨exec_ran _ _, exec_ran _ _⟩

/-- Moved onto the source. -/
theorem witness_OverlapDoesNotChangeResult :
    Inv (ready pt .ecb .zeros) ∧ usesDest .encb = true ∧ (∀ o g r, Instr.encb ≠ .permute o g r) ∧
      exec .encb (ready pt .ecb .zeros) = .next (ran .encb (ready pt .ecb .zeros)) ∧
      (ran .encb (ready pt .ecb .zeros)).errcode = none ∧
      (4#32).toNat + (ready pt .ecb .zeros).dstCap.toNat ≤ (ready pt .ecb .zeros).par.dmemSize :=
  ⟨ready_inv _ _ _ (by decide), rfl, by simp, exec_ran _ _, by decide +kernel, by decide⟩

theorem witness_FeistelDecryptInvertsEncrypt :
    8 % 2 = 0 ∧ pt.length = 8 ∧
      ∀ h k : Bytes, k ∈ [k1] → h.length = 8 / 2 → ((fun (h _ : Bytes) => h) h k).length = 8 / 2 :=
  ⟨rfl, rfl, fun _ _ _ h => h⟩

theorem witness_BlockRoundTripThroughDmem :
    Inv (ready pt .ecb .zeros) ∧ (ready pt .ecb .zeros).par.rom = romDefault ∧
      exec .encb (ready pt .ecb .zeros) = .next (ran .encb (ready pt .ecb .zeros)) ∧
      (ran .encb (ready pt .ecb .zeros)).errcode = none ∧ blockSize (ready pt .ecb .zeros) ≤ (8#32).toNat ∧
      (0xFFF8#32).toNat + (8#32).toNat ≤ (ready pt .ecb .zeros).par.dmemSize :=
  ⟨ready_inv _ _ _ (by decide), rfl, exec_ran _ _, by decide +kernel, by decide, by decide⟩

/-- The compound cipher with a 16-byte key, under a ROM whose `FP` does not invert its `IP`. -/
def readyCompound : State :=
  { ready (pt ++ ct) .ecb .pkcs7 with
    cipher := .compound
    rk := (List.range 16).map fun i => keySegment (k1 ++ pt) (i % 2)
    par := { paramsDefault with rom := { romDefault with fp := romDefault.ip } } }

theorem readyCompound_inv : Inv readyCompound where
  params := show paramsValid readyCompound.par = true by decide +kernel
  canonical := (ready_inv (pt ++ ct) .ecb .pkcs7 (by decide)).canonical
  inside := (ready_inv (pt ++ ct) .ecb .pkcs7 (by decide)).inside
  keys := fun _ => ⟨k1 ++ pt, rfl, rfl⟩
  context := fun _ h => absurd rfl h
  noMismatch := (ready_inv (pt ++ ct) .ecb .pkcs7 (by decide)).noMismatch
  outLen := Nat.zero_le _

theorem witness_BlockRoundTripThroughDmem_compound :
    Inv readyCompound ∧ readyCompound.cipher = .compound ∧ exec .encb readyCompound = .next (ran .encb readyCompound) ∧
      (ran .encb readyCompound).errcode = none ∧ blockSize readyCompound ≤ (16#32).toNat ∧
      (0xFFF0#32).toNat + (16#32).toNat ≤ readyCompound.par.dmemSize :=
  ⟨readyCompound_inv, rfl, exec_ran _ _, by decide +kernel, by decide, by decide⟩

/-- Section 2.3: K1 with the low bit of every byte flipped. -/
theorem witness_ParityBitsNeverMatter :
    k1.length = 8 ∧ ([0x12#8, 0x35#8, 0x56#8, 0x78#8, 0x9A#8, 0xBD#8, 0xDE#8, 0xF0#8] : Bytes).length = 8 ∧
      ∀ i, i < 8 → (k1.getD i 0#8).extractLsb' 1 7 =
        (([0x12#8, 0x35#8, 0x56#8, 0x78#8, 0x9A#8, 0xBD#8, 0xDE#8, 0xF0#8] : Bytes).getD i 0#8).extractLsb' 1 7 := by
  decide

theorem witness_ComplementationProperty : romValid romDefault = true ∧ k1.length = 8 ∧ pt.length = 8 :=
  ⟨romValid_default, rfl, rfl⟩

theorem witness_RotationsAccumulate : (∀ n ∈ romDefault.shifts, n ≤ 28) ∧ 15 < romDefault.shifts.length := by decide

theorem witness_CompoundScheduleIsCyclic :
    ¬ (k1.length = 16 ∨ k1.length = 24 ∨ k1.length = 32) ∧ (k1 ++ pt).length = 16 ∧ (k1 ++ pt ++ ivA).length = 24 ∧
      (k1 ++ pt ++ ivA ++ ct).length = 32 := by decide

theorem witness_BaseCipherIsDesWithSwapKept : k1.length = 8 ∧ pt.length = 8 := by decide

theorem witness_RfnAdapterEqualsKeyinitThenEncb :
    romValid (withSource pt).par.rom = true ∧ (withSource pt).cipher = .base ∧ (withSource pt).keyLen.toNat = 8 ∧
      (withSource pt).srcLen.toNat = 8 ∧ 8 ≤ (withSource pt).dstCap.toNat ∧ sourceInRange (withSource pt) = true ∧
      destInRange (withSource pt) = true := by decide +kernel

/-- The identity as block cipher, in a padded mode and in a stream-like one with a short last block. -/
theorem witness_ModeDecryptInvertsEncrypt :
    0 < 8 ∧ ivA.length = 8 ∧ (∀ x : Bytes, x.length = 8 → (id x).length = 8) ∧
      (∀ x : Bytes, x.length = 8 → id (id x) = x) ∧
      (∀ i : Nat, ((fun _ => ivA : Nat → Bytes) i).length = 8) ∧
      (streamMode .cbc = false → (pt ++ ct).length % 8 = 0) ∧ (streamMode .cfb = false → (pt.take 3).length % 8 = 0) :=
  ⟨by decide, rfl, fun _ h => h, fun _ _ => rfl, fun _ => rfl, fun _ => rfl, fun h => by cases h⟩

/-- One state for each way the data is restored: a stream-like mode, PKCS7, ANSI X.923 with 5 bytes and ISO 10126 with
none, Zeros with data that does not end in a zero byte. -/
theorem witness_MencThenMdecRestoresData :
    (∀ s ∈ [ready pt .ofb .zeros, ready pt .cbc .pkcs7, ready (pt.take 5) .pcbc .ansiX923, ready [] .ecb .iso10126,
        ready pt .ecb .zeros],
      exec .menc s = .next (ran .menc s) ∧ (ran .menc s).errcode = none ∧
      (streamMode s.ctxMode = true ∨ s.ctxPad = .pkcs7 ∨
        ((s.ctxPad = .ansiX923 ∨ s.ctxPad = .iso10126) ∧
          (s.srcLen.toNat % blockSize s ≠ 0 ∨ s.srcLen.toNat = 0 ∨ fullBlockPad s.par s.ctxPad = true)) ∨
        (s.ctxPad = .zeros ∧ (s.srcLen.toNat = 0 ∨ (sourceBytes s).getLastD 0#8 ≠ 0#8)))) ∧
      Inv (ready pt .cbc .pkcs7) ∧ Inv (ready (pt.take 5) .pcbc .ansiX923) ∧ Inv (ready [] .ecb .iso10126) ∧
      (0x100#32).toNat + (32#32).toNat ≤ (ready pt .cbc .pkcs7).par.dmemSize ∧
      mencLength (ready pt .cbc .pkcs7) ≤ (32#32).toNat := by
  refine ⟨?_, ready_inv _ _ _ (by decide), ready_inv _ _ _ (by decide), ready_inv _ _ _ (by decide), by decide,
    by decide⟩
  intro s hs
  refine ⟨exec_ran _ _, ?_⟩
  revert s
  decide +kernel

theorem witness_PcbcIgnoresIv :
    0 < 8 ∧ ivA.length = 8 ∧ k1.length = 8 ∧ (pt ++ ct).length % 8 = 0 ∧
      ∀ x : Bytes, x.length = 8 → (id x).length = 8 ∧ id (id x) = x :=
  ⟨by decide, rfl, rfl, rfl, fun _ h => ⟨h, rfl⟩⟩

/-- The last byte of the first of two blocks. -/
theorem witness_CbcErrorPropagation :
    ivA.length = 8 ∧ (∀ c ∈ [pt, ct], c.length = 8) ∧ (∀ x : Bytes, x.length = 8 → (id x).length = 8) ∧
      (∀ x y : Bytes, x.length = 8 → y.length = 8 → id x = id y → x = y) ∧ 0 + 1 < [pt, ct].length ∧ 7 < 8 ∧
      1#8 ≠ 0#8 :=
  ⟨rfl, by decide, fun _ h => h, fun _ _ _ _ h => h, by decide, by decide, by decide⟩

theorem witness_StreamModeEncryptsPrefixes :
    0 < 8 ∧ streamMode .cfb = true ∧ streamMode .ofb = true ∧ streamMode .ctr = true ∧ ivA.length = 8 ∧
      ∀ x : Bytes, x.length = 8 → (id x).length = 8 :=
  ⟨by decide, rfl, rfl, rfl, rfl, fun _ h => h⟩

theorem witness_CtrIncrementIsBigEndian :
    ivA.length = 8 ∧ (List.replicate 8 0xFF#8 : Bytes).length = 8 ∧ ∀ x ∈ (List.replicate 8 0xFF#8 : Bytes), x = 0xFF#8 := by
  decide

theorem witness_RandomDeltaIvTailMatters :
    ivA.length = 8 ∧ (ivA.set 7 0#8).length = 8 ∧ ivA.take 4 = (ivA.set 7 0#8).take 4 ∧ ivA ≠ ivA.set 7 0#8 ∧ pt ≠ [] ∧
      pt.length % 8 = 0 ∧ (∀ x : Bytes, x.length = 8 → (id x).length = 8) ∧
      ∀ x y : Bytes, x.length = 8 → y.length = 8 → id x = id y → x = y :=
  ⟨rfl, rfl, by decide, by decide, by decide, rfl, fun _ h => h, fun _ _ _ _ h => h⟩

/-- The default set, the full one and a mixed one; 5 bytes, no byte, a whole block, and data that ends in a zero byte. -/
theorem witness_UnpadInvertsPad :
    8 < 256 ∧ (pt.take 2).length = padDraws (fullBlockPad paramsDefault) (pt.take 5).length 8 .iso10126 ∧
      ([] : Bytes).length = padDraws (fullBlockPad paramsDefault) pt.length 8 .iso10126 ∧
      fullBlockPad paramsDefault .ansiX923 = false ∧ fullBlockPad paramsDefault .iso10126 = false ∧
      fullBlockPad { paramsDefault with fullBlockAnsi := true } .ansiX923 = true ∧
      (pt.take 7).length = padDraws (fullBlockPad { paramsDefault with fullBlockAnsi := true, fullBlockIso := true })
        pt.length 8 .iso10126 ∧ pt.getLastD 0#8 ≠ 0#8 := by decide

theorem witness_StepKeepsInvariant :
    ∃ t, Inv ((ready pt .cbc .pkcs7).withFetchWord 32 0x21) ∧
      step ((ready pt .cbc .pkcs7).withFetchWord 32 0x21) = .next t ∧
      ((ready pt .cbc .pkcs7).withFetchWord 32 0x21).busy = false := by
  obtain ⟨t, ht⟩ := issue_next 0x21#32 (State.popHost ((ready pt .cbc .pkcs7).withFetchWord 32 0x21) [])
  have h := ready_inv pt .cbc .pkcs7 (by decide)
  exact ⟨t, ⟨h.params, h.canonical, h.inside, h.keys, h.context, h.noMismatch, h.outLen⟩, ht, rfl⟩

theorem witness_LegalHostNeverStops : hostLegal (State.reset.withFetchWord 32 0x21) := by
  intro op h
  rw [show (State.reset.withFetchWord 32 0x21).hostq = [.csrWrite 0x000 4 0x21#32] from rfl, List.mem_singleton] at h
  subst h
  rfl

/-- Two different states with the same view: keys and a context that `INIT` and `CTXV` hide. -/
theorem witness_StaleKeysAndContextAreUnobservable :
    publicView (withSource pt) = publicView { withSource pt with rk := [k1], ctxMode := .ofb, ctxIv := pt } ∧
      withSource pt ≠ { withSource pt with rk := [k1], ctxMode := .ofb, ctxIv := pt } := by
  refine ⟨rfl, fun h => ?_⟩
  have := congrArg State.ctxMode h
  cases this

/-- A draw for a reset: one round key, CFB, PKCS7, an IV and one DMEM byte. -/
def someDraw : ResetDraw := { cells := [(3, 7#8)], rk := [k1], ctxMode := .cfb, ctxPad := .pkcs7, ctxIv := ivA }

/-- A reset clears `INIT` and `CTXV` and changes `RK`. -/
theorem witness_OnlyTheirCommandsChangeLifecycle_reset :
    (ready pt .ecb .zeros).init = true ∧ (ready pt .ecb .zeros).ctxv = true ∧
      (after (step { ready pt .ecb .zeros with hostq := [.reset someDraw] }) (ready pt .ecb .zeros)).init = false ∧
      (after (step { ready pt .ecb .zeros with hostq := [.reset someDraw] }) (ready pt .ecb .zeros)).ctxv = false ∧
      (after (step { withSource pt with hostq := [.reset someDraw] }) State.reset).rk ≠ (withSource pt).rk := by
  decide +kernel

/-- `KEYINIT` sets `INIT` and changes `RK`, `CTXSET` sets `CTXV`, a cipher change clears both. -/
theorem witness_OnlyTheirCommandsChangeLifecycle :
    (withSource pt).init = false ∧ (after (step ((withSource pt).withFetchWord 32 0x10)) State.reset).init = true ∧
      (withSource pt).ctxv = false ∧ (after (step ((withSource pt).withFetchWord 32 0x20)) State.reset).ctxv = true ∧
      (after (step ((withSource pt).withFetchWord 32 0x10)) State.reset).rk ≠ (withSource pt).rk ∧
      (ready pt .ecb .zeros).init = true ∧
      (after (step { ready pt .ecb .zeros with hostq := [.csrWrite 0x008 4 1#32] }) (ready pt .ecb .zeros)).init = false ∧
      (ready pt .ecb .zeros).ctxv = true ∧
      (after (step { ready pt .ecb .zeros with hostq := [.csrWrite 0x008 4 1#32] }) (ready pt .ecb .zeros)).ctxv = false := by
  decide +kernel

theorem witness_EnginesDoNotInteract :
    0 ≠ 1 ∧ platformStep 0 (platformReset 2) = .next (platformReset 2) ∧
      platformStep 1 (platformReset 2) = .next (platformReset 2) := ⟨by decide, rfl, rfl⟩

end Sys2Proof.Tests
end

/-! PROOFS of the family 00_scope.md: `PERMUTE` (40_bit_permutation.md R150 to R160; 00_scope.md R11, R12). -/

namespace Sys2Proof.Permute

open Sys2Proof Sys2Proof.Machine

/-! ### Bits and table entries as numbers -/

/-- R12, both orders at once: a bit of a buffer, as a number, is a shift of its byte. -/
theorem toNat_bitAt (ord : BitOrder) (buf : Bytes) (j : Nat) (h : j / 8 < buf.length) :
    (bitAt ord buf j).toNat = (buf[j / 8].toNat >>> bitPlace ord (j % 8)) % 2 := by
  rw [bitAt_eq, List.getD_eq_getElem _ _ h, BitVec.getLsbD, Nat.toNat_testBit, Nat.shiftRight_eq_div_pow]

/-- R11: two bytes read big-endian. -/
theorem be_readBytes_two (m : Memory) (a : Nat) :
    be (m.readBytes a 2) = 256 * (m.read a).toNat + (m.read (a + 1)).toNat := by
  simp [Memory.readBytes, be, Nat.mul_comm]

theorem length_tableOperand_dmem (s : State) : (tableOperand s 0#3).length = s.tblLen.toNat := by
  simp [tableOperand, dmemTable]

/-- R152: entry `k` of the DMEM table is the big-endian number at `TBL_ADDR + 2*k`. -/
theorem getElem?_tableOperand_dmem (s : State) {k : Nat} (h : k < s.tblLen.toNat) :
    (tableOperand s 0#3)[k]? =
      some (256 * (s.dmem.read (s.tblAddr.toNat + 2 * k)).toNat +
        (s.dmem.read (s.tblAddr.toNat + 2 * k + 1)).toNat) := by
  simp [tableOperand, dmemTable, h, be_readBytes_two]

/-! ### What a committed result reads back as -/

/-- A result that fits `DST_CAP` has its length in `OUT_LEN`, uncut by the 32 bits of the register. -/
theorem toNat_outLen_commitBytes {s : State} {out : Bytes} (n : Nat) (h : out.length ≤ s.dstCap.toNat) :
    (s.commitBytes out n).outLen.toNat = out.length := by
  rw [State.commitBytes_outLen, BitVec.toNat_ofNat, Nat.mod_eq_of_lt (h.trans_lt s.dstCap.isLt)]

/-- The `OUT_LEN` bytes at `DST_ADDR` are the result that was committed. -/
theorem readBytes_commitBytes {s : State} (hm : s.dmem.wf) {out : Bytes} (n : Nat)
    (h : out.length ≤ s.dstCap.toNat) :
    (s.commitBytes out n).dmem.readBytes s.dstAddr.toNat (s.commitBytes out n).outLen.toNat = out := by
  rw [toNat_outLen_commitBytes n h, State.commitBytes_dmem, Memory.readBytes_writeBytes hm]

/-! ### PERMUTE -/

theorem exec_permute (ord : BitOrder) (org : Origin) (tsrc : BitVec 3) (s : State) :
    exec (.permute ord org tsrc) s = execPermute ord org tsrc s := rfl

/-- A result without the hazard of R460 is committed as it is, and no free byte is drawn. -/
theorem execPermute_of_not_overlap {ord : BitOrder} {org : Origin} {tsrc : BitVec 3} {s : State} {out : Bytes}
    (hr : permuteResult ord org tsrc s = .ok out)
    (hz : ¬ permuteOverlap tsrc s (tableOperand s tsrc).length) :
    execPermute ord org tsrc s = .next (s.commitBytes out 0) := by
  have hn : ¬ permuteHazard tsrc s out.length = true := by
    rwa [length_permuteResult hr, permuteHazard_iff]
  simp [execPermute, hr, hn]

/-- Settles O23. The table clauses are read off the operands; where every check of R160 passes, the result is
`permuteBits`, which is committed and read back unchanged, and whose bits are the selected ones. -/
theorem permuteSelectsBits : Obligations.PermuteSelectsBits := by
  refine ⟨fun buf j h => ⟨toNat_bitAt .msb buf j h, toNat_bitAt .lsb buf j h⟩, rfl, rfl,
    fun s => ⟨rfl, rfl, rfl, rfl, rfl, rfl, length_tableOperand_dmem s, fun _ => getElem?_tableOperand_dmem s⟩, ?_⟩
  intro ord org tsrc s htsrc hwf hsrc htbl hdst hfits hcap hz
  have hr := (permuteResult_ok (ord := ord)).2 ⟨htsrc, hsrc, htbl, hdst, hcap, hfits, rfl⟩
  have hlen : (permuteBits (sourceBytes s) (tableOperand s tsrc) ord (originNat org)).length ≤ s.dstCap.toNat := by
    rwa [length_permuteBits]
  refine ⟨_, (exec_permute ord org tsrc s).trans (execPermute_of_not_overlap hr hz), rfl, ?_, ?_, ?_⟩
  · rw [toNat_outLen_commitBytes 0 hlen, length_permuteBits]
  · intro i hi
    rw [readBytes_commitBytes hwf 0 hlen, bitAt_permuteBits _ _ _ _ hi]
  · intro i hi
    rw [readBytes_commitBytes hwf 0 hlen, bitAt_permuteBits_outside _ _ _ _ hi]

end Sys2Proof.Permute

/-! PROOFS of the family 10_state.md, the host port: the CSR map, the accesses of the host, the STATUS word, reset
(10_state.md R33 to R49, R57; 70_reset_and_hazards.md R450). -/

namespace Sys2Proof.HostPort

open Sys2Proof Sys2Proof.Machine

/-! ### Legal accesses (R34) -/

theorem csrAccessLegal_iff {off size : Nat} :
    csrAccessLegal off size = true ↔ size = 4 ∧ off % 4 = 0 ∧ off < 0x100 := by
  simp [csrAccessLegal]

theorem hostAccess_csrRead {off : Nat} (ha : off % 4 = 0) (hw : off < 0x100) (s : State) :
    hostAccess (.csrRead off 4) s = .next (s.reply (.csr off (readCsr s (csrAt (off / 4))))) :=
  if_pos (csrAccessLegal_iff.2 ⟨rfl, ha, hw⟩)

theorem hostAccess_csrWrite {off : Nat} (ha : off % 4 = 0) (hw : off < 0x100) (v : Word) (s : State) :
    hostAccess (.csrWrite off 4 v) s = writeCsr v s (csrAt (off / 4)) :=
  if_pos (csrAccessLegal_iff.2 ⟨rfl, ha, hw⟩)

/-! ### The step, by the queue -/

theorem step_of_idle {s : State} (h : s.hostq = []) : step s = .next s := by
  rw [step, serveHost, h]

theorem step_of_pending {s : State} {op : HostOp} {rest : List HostOp} (h : s.hostq = op :: rest) :
    step s = hostAccess op (s.popHost rest) := by
  rw [step, serveHost, h]

/-! ### The CSR map (R33) -/

theorem csrOffset_aligned (c : Csr) : csrOffset c % 4 = 0 := by
  cases c with
  | key w => simp only [csrOffset]; omega
  | iv w => simp only [csrOffset]; omega
  | _ => rfl

theorem csrOffset_lt (c : Csr) : csrOffset c < 0x100 := by
  cases c with
  | key w => simp only [csrOffset]; omega
  | iv w => simp only [csrOffset]; omega
  | _ => decide

/-- The map finds every register at its own offset. -/
theorem csrAt_csrOffset (c : Csr) : csrAt (csrOffset c / 4) = c := by
  cases c with
  | key w => revert w; decide
  | iv w => revert w; decide
  | _ => rfl

/-- The offsets between the registers, and those behind them, are reserved. -/
theorem csrAt_reserved {n : Nat} (h : (12 ≤ n ∧ n < 16) ∨ 28 ≤ n) : csrAt n = .reserved := by
  unfold csrAt
  repeat rw [if_neg (by omega)]

theorem csrReads_csrOffset (s : State) (c : Csr) : csrReads s (csrOffset c) (readCsr s c) := by
  rw [csrReads, hostAccess_csrRead (csrOffset_aligned c) (csrOffset_lt c), csrAt_csrOffset]
  rfl

theorem hostAccess_csrWrite_csrOffset (s : State) (c : Csr) (v : Word) :
    hostAccess (.csrWrite (csrOffset c) 4 v) s = writeCsr v s c := by
  rw [hostAccess_csrWrite (csrOffset_aligned c) (csrOffset_lt c), csrAt_csrOffset]

/-! ### Words and the narrow registers -/

theorem and_eq_zero_of_bits {x m : Word} (h : ∀ i, i < 32 → m.getLsbD i = true → x.getLsbD i = false) :
    x &&& m = 0#32 := by
  refine BitVec.eq_of_getLsbD_eq fun i hi => ?_
  cases hm : m.getLsbD i with
  | false => simp [hm]
  | true => simp [h i hi hm]

/-- A register of `n` bits reads 0 at every bit from `n` up. -/
theorem setWidth_and_eq_zero {n : Nat} (x : BitVec n) {m : Word} (h : ∀ i, i < 32 → m.getLsbD i = true → n ≤ i) :
    x.setWidth 32 &&& m = 0#32 := by
  refine and_eq_zero_of_bits fun i hi hm => ?_
  rw [BitVec.getLsbD_setWidth, BitVec.getLsbD_of_ge x i (h i hi hm), Bool.and_false]

/-- A register of `n` bits returns the low `n` bits of the word written. -/
theorem setWidth_setWidth_eq_and {n : Nat} (v : Word) {m : Word}
    (h : ∀ i, i < 32 → m.getLsbD i = decide (i < n)) : (v.setWidth n).setWidth 32 = v &&& m := by
  refine BitVec.eq_of_getLsbD_eq fun i hi => ?_
  rw [BitVec.getLsbD_and, h i hi, BitVec.getLsbD_setWidth, BitVec.getLsbD_setWidth, Bool.and_comm (v.getLsbD i)]
  simp [hi]

/-- A register of `n` bits does not see what a word holds above them. -/
theorem setWidth_and_of_ones {n : Nat} (v : Word) {m : Word} (h : m.setWidth n = BitVec.allOnes n) :
    (v &&& m).setWidth n = v.setWidth n := by
  rw [BitVec.setWidth_and, h, BitVec.and_allOnes]

theorem and_full (v : Word) : v &&& 0xFFFFFFFF#32 = v := BitVec.and_allOnes

/-! ### The STATUS word, field by field (R33) -/

theorem statusWord_busy (s : State) : (statusWord s).getLsbD 0 = s.busy := by
  rw [statusWord, BitVec.getLsbD_append]
  simp

theorem statusWord_init (s : State) : (statusWord s).getLsbD 1 = s.init := by
  rw [statusWord, BitVec.getLsbD_append, BitVec.getLsbD_append]
  simp

theorem statusWord_ctxv (s : State) : (statusWord s).getLsbD 2 = s.ctxv := by
  rw [statusWord, BitVec.getLsbD_append, BitVec.getLsbD_append, BitVec.getLsbD_append]
  simp

theorem statusWord_bit3 (s : State) : (statusWord s).getLsbD 3 = false := by
  rw [statusWord, BitVec.getLsbD_append, BitVec.getLsbD_append, BitVec.getLsbD_append, BitVec.getLsbD_append]
  simp

theorem statusWord_errcode (s : State) : (statusWord s).extractLsb' 4 4 = errcodeField s := by
  rw [statusWord]
  repeat rw [BitVec.extractLsb'_append_eq_of_le (by decide)]
  rw [BitVec.extractLsb'_append_eq_of_add_le (by decide)]
  exact BitVec.extractLsb'_eq_self

theorem statusWord_ctxMode (s : State) : (statusWord s).extractLsb' 8 3 = ctxModeField s := by
  rw [statusWord]
  repeat rw [BitVec.extractLsb'_append_eq_of_le (by decide)]
  rw [BitVec.extractLsb'_append_eq_of_add_le (by decide)]
  exact BitVec.extractLsb'_eq_self

theorem statusWord_bit11 (s : State) : (statusWord s).extractLsb' 11 1 = 0#1 := by
  rw [statusWord]
  repeat rw [BitVec.extractLsb'_append_eq_of_le (by decide)]
  rw [BitVec.extractLsb'_append_eq_of_add_le (by decide)]
  rfl

theorem statusWord_ctxPad (s : State) : (statusWord s).extractLsb' 12 2 = ctxPadField s := by
  rw [statusWord]
  repeat rw [BitVec.extractLsb'_append_eq_of_le (by decide)]
  rw [BitVec.extractLsb'_append_eq_of_add_le (by decide)]
  exact BitVec.extractLsb'_eq_self

theorem statusWord_high (s : State) : (statusWord s).extractLsb' 14 18 = 0#18 := by
  rw [statusWord]
  repeat rw [BitVec.extractLsb'_append_eq_of_le (by decide)]
  exact BitVec.extractLsb'_eq_self

/-- A bit of a word that lies in a field of zeros is 0. -/
theorem getLsbD_of_extract_zero {v : Word} {lo n i : Nat} (h : v.extractLsb' lo n = 0#n) (hlo : lo ≤ i)
    (hi : i < lo + n) : v.getLsbD i = false := by
  have hb : (v.extractLsb' lo n).getLsbD (i - lo) = false := by rw [h, BitVec.getLsbD_zero]
  rw [BitVec.getLsbD_extractLsb', Nat.add_sub_cancel' hlo] at hb
  simpa [show i - lo < n by omega] using hb

theorem statusWord_and_reserved (s : State) : statusWord s &&& 0xFFFFC808#32 = 0#32 := by
  refine and_eq_zero_of_bits fun i hi hm => ?_
  have hpos : i = 3 ∨ i = 11 ∨ 14 ≤ i := by revert i; decide
  rcases hpos with rfl | rfl | h14
  · exact statusWord_bit3 s
  · exact getLsbD_of_extract_zero (statusWord_bit11 s) (by decide) (by decide)
  · exact getLsbD_of_extract_zero (statusWord_high s) h14 hi

theorem errcodeField_none {s : State} (h : s.errcode = none) : errcodeField s = 0#4 := by simp [errcodeField, h]

theorem errcodeField_some {s : State} {e : ErrClass} (h : s.errcode = some e) : errcodeField s = e.code := by
  simp [errcodeField, h]

/-! ### The CTXSET fields (30_encoding.md R124) -/

theorem modeOfField_field (m : Mode) : Mode.ofField m.field = some m := by cases m <;> rfl

theorem padSchemeOfField_field (p : PadScheme) : PadScheme.ofField p.field = p := by cases p <;> rfl

theorem encode_ctxset_mode (m : Mode) (p : PadScheme) :
    (encode (.ctxset m.field p)).extractLsb' 8 3 = m.field := by
  cases m <;> cases p <;> rfl

theorem encode_ctxset_pad (m : Mode) (p : PadScheme) :
    (encode (.ctxset m.field p)).extractLsb' 12 2 = p.field := by
  cases m <;> cases p <;> rfl

/-! ### What a write to a register does -/

/-- `t` differs from `s` in operand registers only. -/
def OperandsOnly (s t : State) : Prop :=
  t = { s with
    keyLen := t.keyLen, ivLen := t.ivLen, srcAddr := t.srcAddr, srcLen := t.srcLen, dstAddr := t.dstAddr
    dstCap := t.dstCap, tblAddr := t.tblAddr, tblLen := t.tblLen, key := t.key, iv := t.iv }

/-- What a host write to a register can do: issue a command, write `CFG`, or change operand registers only. -/
theorem writeCsr_cases {v : Word} {s t : State} {c : Csr} (h : writeCsr v s c = .next t) :
    (c = .cmd ∧ issue v s = .next t) ∨ (c = .cfg ∧ t = s.writeCfg v) ∨ OperandsOnly s t := by
  cases c with
  | cmd => exact .inl ⟨rfl, h⟩
  | cfg => cases h; exact .inr (.inl ⟨rfl, rfl⟩)
  | _ => cases h; exact .inr (.inr rfl)

theorem plainRegister_ne {c : Csr} (h : plainRegister c = true) : c ≠ .cmd ∧ c ≠ .cfg := by
  constructor <;> rintro rfl <;> cases h

/-- A plain register reads back what was written, with the bits it has (R44 to R49). -/
theorem readCsr_writeCsr_same {v : Word} {s t : State} {c : Csr} (hc : plainRegister c = true)
    (h : writeCsr v s c = .next t) : readCsr t c = v &&& writableMask c := by
  cases c with
  | cmd => cases hc
  | status => cases hc
  | cfg => cases hc
  | outLen => cases hc
  | reserved => cases hc
  | keyLen => cases h; exact setWidth_setWidth_eq_and v (by decide)
  | ivLen => cases h; exact setWidth_setWidth_eq_and v (by decide)
  | key w => cases h; exact (Vector.getElem_set_self ..).trans (and_full v).symm
  | iv w => cases h; exact (Vector.getElem_set_self ..).trans (and_full v).symm
  | _ => cases h; exact (and_full v).symm

/-- A write to a register other than `CMD` and `CFG` shows in no other register. -/
theorem readCsr_writeCsr_other {v : Word} {s t : State} {c c' : Csr} (hc : c ≠ .cmd ∧ c ≠ .cfg)
    (h : writeCsr v s c = .next t) (hne : c' ≠ c) : readCsr t c' = readCsr s c' := by
  cases c with
  | cmd => exact absurd rfl hc.1
  | cfg => exact absurd rfl hc.2
  | key w =>
    cases h
    cases c' with
    | key w' => exact Vector.getElem_set_ne w.isLt w'.isLt fun e => hne (by rw [Fin.ext e])
    | _ => rfl
  | iv w =>
    cases h
    cases c' with
    | iv w' => exact Vector.getElem_set_ne w.isLt w'.isLt fun e => hne (by rw [Fin.ext e])
    | _ => rfl
  | _ =>
    cases h
    cases c' <;> first | rfl | exact absurd rfl hne

theorem writeCfg_and (s : State) (v : Word) : s.writeCfg (v &&& 0x3#32) = s.writeCfg v := by
  have h : (v &&& 0x3#32).extractLsb' 0 2 = v.extractLsb' 0 2 := setWidth_and_of_ones v (by decide)
  simp only [State.writeCfg, h]

theorem readCsr_cfg (s : State) : readCsr s .cfg = if s.cipher = .base then 0#32 else 1#32 := by
  cases h : s.cipher <;> simp [readCsr, h, Cipher.field]

/-! ### Reset -/

/-- After reset every CSR reads 0 (R57). -/
theorem readCsr_reset (c : Csr) : readCsr State.reset c = 0#32 := by
  cases c with
  | key w => revert w; decide
  | iv w => revert w; decide
  | _ => rfl

theorem readCsr_platformReset (s : State) (d : ResetDraw) (c : Csr) : readCsr (s.platformReset d) c = 0#32 :=
  (show readCsr (s.platformReset d) c = readCsr State.reset c by cases c <;> rfl).trans (readCsr_reset c)

/-! ### The statements -/

theorem issue_of_decode {w : Word} {i : Instr} (h : decode w = .ok i) (s : State) :
    issue w s = endOutcome (exec i (s.beginCommand w)) := by
  rw [issue, h]

/-- Settles O5: the step serves the write at the head of the queue, which issues the decoded command. -/
theorem stepRunsDecodedCommand : Obligations.StepRunsDecodedCommand := by
  refine ⟨fun s rest w i hq hd => ?_, fun s w i hd => ?_⟩
  · rw [step_of_pending hq]
    exact issue_of_decode hd (s.popHost rest)
  · have hw : BitVec.ofNat 32 (w.toNat % 2 ^ 32) = w := by
      rw [Nat.mod_eq_of_lt w.isLt, BitVec.ofNat_toNat, BitVec.setWidth_eq]
    have hq : (s.withFetchWord 32 w.toNat).hostq = .csrWrite 0x000 4 w :: s.hostq := by rw [State.withFetchWord, hw]
    rw [step_of_pending hq]
    exact issue_of_decode hd s

/-- Settles O8: refusal by the legality check; a legal access goes through the map, whose reserved fields and offsets are
read off register by register. -/
theorem csrAccessRules : Obligations.CsrAccessRules := by
  refine ⟨fun s off size v hill => ?_, fun s off ha hw => ?_, fun s off v ha hw hoff => ?_, fun s v => ⟨?_, ?_, ?_⟩⟩
  · have hno : ¬ csrAccessLegal off size = true := fun h => hill (csrAccessLegal_iff.1 h)
    exact ⟨if_neg hno, if_neg hno⟩
  · refine ⟨_, hostAccess_csrRead ha hw s, fun hr => ?_, ?_, ?_, ?_, ?_⟩
    · rw [csrAt_reserved (by omega)]; rfl
    · rintro rfl; exact statusWord_and_reserved s
    · rintro rfl; exact setWidth_and_eq_zero _ (by decide)
    · rintro rfl; exact setWidth_and_eq_zero _ (by decide)
    · rintro rfl; exact setWidth_and_eq_zero _ (by decide)
  · rw [hostAccess_csrWrite ha hw]
    rcases hoff with rfl | rfl | hr
    · rfl
    · rfl
    · rw [csrAt_reserved (by omega)]; rfl
  · exact congrArg Host.Outcome.next (writeCfg_and s v).symm
  · exact congrArg (fun k => Host.Outcome.next { s with keyLen := k })
      (setWidth_and_of_ones v (m := 0x3F#32) (by decide)).symm
  · exact congrArg (fun k => Host.Outcome.next { s with ivLen := k })
      (setWidth_and_of_ones v (m := 0x1F#32) (by decide)).symm

/-- Settles O9: a write of 0 or 1 selects a cipher, which is a change or none; 2 and 3 select none. -/
theorem cfgWriteSelectsCipher : Obligations.CfgWriteSelectsCipher := by
  intro s v
  have hw : hostAccess (.csrWrite 0x008 4 v) s = .next (s.writeCfg v) := rfl
  have hbase : v.extractLsb' 0 2 = 0#2 → s.writeCfg v = s.selectCipher .base := fun hv => by simp [State.writeCfg, hv]
  have hcomp : v.extractLsb' 0 2 = 1#2 → s.writeCfg v = s.selectCipher .compound := fun hv => by
    simp [State.writeCfg, hv]
  rw [hw]
  refine ⟨fun hv hc => ?_, fun hv hc => ?_, fun hv hc => ?_, fun hv hc => ?_, fun hv => ?_⟩
  · rw [hbase hv, State.selectCipher_change s (by simp [hc])]
  · rw [hcomp hv, State.selectCipher_change s (by simp [hc])]
  · rw [hbase hv, State.selectCipher_same s hc]
  · rw [hcomp hv, State.selectCipher_same s hc]
  · have h0 : v.extractLsb' 0 2 ≠ 0#2 := fun h => by simp [h] at hv
    have h1 : v.extractLsb' 0 2 ≠ 1#2 := fun h => by simp [h] at hv
    rw [State.writeCfg, if_neg h0, if_neg h1]

/-- Settles O10, field by field. -/
theorem statusWordFields : Obligations.StatusWordFields := by
  refine ⟨fun s => ?_, ⟨rfl, rfl, rfl, rfl, rfl, rfl, rfl, rfl, rfl, rfl, rfl⟩, fun m p =>
    ⟨encode_ctxset_mode m p, encode_ctxset_pad m p, modeOfField_field m, padSchemeOfField_field p⟩⟩
  rw [statusWord_errcode]
  exact ⟨statusWord_busy s, statusWord_init s, statusWord_ctxv s, statusWord_bit3 s, errcodeField_none,
    errcodeField_some, errcodeField_some, errcodeField_some, errcodeField_some, errcodeField_some, errcodeField_some,
    statusWord_ctxMode s, getLsbD_of_extract_zero (statusWord_bit11 s) (by decide) (by decide), statusWord_ctxPad s,
    statusWord_high s⟩

/-- Settles O12: the accesses at each register's offset, through the map; and what a write to a plain register shows. -/
theorem plainRegisterWriteReadsBack : Obligations.PlainRegisterWriteReadsBack := by
  refine ⟨fun s => ?_, fun s v => ?_, fun s c _ => csrReads_csrOffset s c,
    fun s c v _ => hostAccess_csrWrite_csrOffset s c v, fun s v c hc => ?_⟩
  · have hr := csrReads_csrOffset s
    exact ⟨hr .cmd, hr .status, readCsr_cfg s ▸ hr .cfg, hr .keyLen, hr .ivLen, hr .srcAddr, hr .srcLen, hr .dstAddr,
      hr .dstCap, hr .tblAddr, hr .tblLen, hr .outLen, fun w => hr (.key w), fun w => hr (.iv w)⟩
  · have hw := fun c => hostAccess_csrWrite_csrOffset s c v
    exact ⟨hw .cmd, hw .cfg, hw .keyLen, hw .ivLen, hw .srcAddr, hw .srcLen, hw .dstAddr, hw .dstCap, hw .tblAddr,
      hw .tblLen, fun w => hw (.key w), fun w => hw (.iv w)⟩
  · obtain ⟨t, ht⟩ := writeCsr_next v s c
    have hne := plainRegister_ne hc
    refine ⟨t, ht, readCsr_writeCsr_same hc ht, fun c' => readCsr_writeCsr_other hne ht, ?_⟩
    rcases writeCsr_cases ht with ⟨hcmd, -⟩ | ⟨hcfg, -⟩ | hops
    · exact absurd hcmd hne.1
    · exact absurd hcfg hne.2
    · rw [hops]
      exact ⟨rfl, rfl, rfl, rfl, rfl, rfl, rfl, rfl, rfl, rfl, rfl, rfl⟩

/-- Settles O14: a reset with any draw reads as `State.reset` does, and its DMEM is canonical. -/
theorem resetClearsEveryCsr : Obligations.ResetClearsEveryCsr :=
  ⟨fun s d => ⟨s.platformReset d, rfl, readCsr_platformReset s d, rfl, rfl, rfl, rfl, rfl, rfl, rfl, rfl,
    platformReset_dmem_wf s d⟩, readCsr_reset, rfl, rfl, rfl⟩

end Sys2Proof.HostPort

/-! PROOFS of the family 10_state.md, what a result of a command is at most: it fits `DST_CAP`, and its error is never
KEY_SCHEDULE_MISMATCH (10_state.md R47; 20_memory.md R81; 60_exceptions.md R403); and the frame that follows. -/

namespace Sys2Proof.Results

open Sys2Proof Sys2Proof.Machine

/-! ### The blocks of a buffer (45_modes.md R313) -/

theorem flatten_blocks {B : Nat} (hB : 0 < B) (d : Bytes) : (blocks B d).flatten = d := by
  induction hn : d.length using Nat.strong_induction_on generalizing d with
  | _ n ih =>
    by_cases hd : d = []
    · rw [hd]; rfl
    · have hpos := List.length_pos_iff.2 hd
      rw [blocks_of_ne_nil hB hd, List.flatten_cons, ih (d.drop B).length (by simp; omega) _ rfl,
        List.take_append_drop]

/-- The blocks of a whole number of blocks are all whole. -/
theorem length_of_mem_blocks {B : Nat} (hB : 0 < B) {d b : Bytes} (hd : d.length % B = 0) (hb : b ∈ blocks B d) :
    b.length = B := by
  induction hn : d.length using Nat.strong_induction_on generalizing d with
  | _ n ih =>
    by_cases hnil : d = []
    · rw [hnil] at hb; cases hb
    · have hpos := List.length_pos_iff.2 hnil
      have hle : B ≤ d.length := Nat.le_of_dvd hpos (Nat.dvd_of_mod_eq_zero hd)
      rw [blocks_of_ne_nil hB hnil] at hb
      rcases List.mem_cons.1 hb with rfl | hb
      · simp [hle]
      · refine ih (d.drop B).length (by simp; omega) ?_ hb rfl
        rw [List.length_drop, ← Nat.mod_eq_sub_mod hle, hd]

/-! ### The output of a mode is not longer than its data -/

/-- A function that makes at most `B` bytes of at most `B` bytes. -/
def WithinBlock (B : Nat) (F : Bytes → Bytes) : Prop := ∀ x : Bytes, x.length ≤ B → (F x).length ≤ B

theorem WithinBlock.length_le {B : Nat} {F : Bytes → Bytes} (hF : WithinBlock B F) {x p : Bytes} (hp : p.length = B)
    (hx : x.length ≤ p.length) : (F x).length ≤ p.length :=
  (hF x (hx.trans hp.le)).trans hp.ge

theorem length_xorBytes_le (x y : Bytes) : (xorBytes x y).length ≤ x.length := by simp

theorem length_xorBytes_xorBytes_le (x y z : Bytes) : (xorBytes (xorBytes x y) z).length ≤ x.length :=
  (length_xorBytes_le _ z).trans (length_xorBytes_le x y)

theorem length_xorKeystream_le (x ks : Bytes) : (xorKeystream x ks).length ≤ x.length := by simp

/-- Block by block, the step of every lemma below. -/
theorem length_flatten_cons_le {q p : Bytes} {qs ps : List Bytes} (h : q.length ≤ p.length)
    (hs : qs.flatten.length ≤ ps.flatten.length) : (q :: qs).flatten.length ≤ (p :: ps).flatten.length := by
  simp at hs ⊢
  omega

section Padded

variable {B : Nat} {F : Bytes → Bytes} (hF : WithinBlock B F) (delta : Nat → Bytes) {bs : List Bytes}
  (hbs : ∀ b ∈ bs, b.length = B)

include hF hbs

theorem length_ecbRun_le : (ecbRun F bs).flatten.length ≤ bs.flatten.length := by
  induction bs with
  | nil => exact le_rfl
  | cons p ps ih =>
    obtain ⟨hp, hps⟩ := List.forall_mem_cons.1 hbs
    exact length_flatten_cons_le (hF.length_le hp le_rfl) (ih hps)

theorem length_cbcEncrypt_le (reg : Bytes) : (cbcEncrypt F reg bs).flatten.length ≤ bs.flatten.length := by
  induction bs generalizing reg with
  | nil => exact le_rfl
  | cons p ps ih =>
    obtain ⟨hp, hps⟩ := List.forall_mem_cons.1 hbs
    exact length_flatten_cons_le (hF.length_le hp (length_xorBytes_le p reg)) (ih hps _)

theorem length_cbcDecrypt_le (reg : Bytes) : (cbcDecrypt F reg bs).flatten.length ≤ bs.flatten.length := by
  induction bs generalizing reg with
  | nil => exact le_rfl
  | cons c cs ih =>
    obtain ⟨hc, hcs⟩ := List.forall_mem_cons.1 hbs
    exact length_flatten_cons_le ((length_xorBytes_le (F c) reg).trans (hF.length_le hc le_rfl)) (ih hcs _)

theorem length_pcbcEncrypt_le (pp pc : Bytes) : (pcbcEncrypt F pp pc bs).flatten.length ≤ bs.flatten.length := by
  induction bs generalizing pp pc with
  | nil => exact le_rfl
  | cons p ps ih =>
    obtain ⟨hp, hps⟩ := List.forall_mem_cons.1 hbs
    exact length_flatten_cons_le (hF.length_le hp (length_xorBytes_xorBytes_le p pp pc)) (ih hps _ _)

theorem length_pcbcDecrypt_le (pp pc : Bytes) : (pcbcDecrypt F pp pc bs).flatten.length ≤ bs.flatten.length := by
  induction bs generalizing pp pc with
  | nil => exact le_rfl
  | cons c cs ih =>
    obtain ⟨hc, hcs⟩ := List.forall_mem_cons.1 hbs
    exact length_flatten_cons_le ((length_xorBytes_xorBytes_le (F c) pp pc).trans (hF.length_le hc le_rfl)) (ih hcs _ _)

theorem length_deltaEncrypt_le (i : Nat) (reg : Bytes) :
    (deltaEncrypt F delta i reg bs).flatten.length ≤ bs.flatten.length := by
  induction bs generalizing i reg with
  | nil => exact le_rfl
  | cons p ps ih =>
    obtain ⟨hp, hps⟩ := List.forall_mem_cons.1 hbs
    exact length_flatten_cons_le (hF.length_le hp (length_xorBytes_xorBytes_le p reg (delta i))) (ih hps _ _)

theorem length_deltaDecrypt_le (i : Nat) (reg : Bytes) :
    (deltaDecrypt F delta i reg bs).flatten.length ≤ bs.flatten.length := by
  induction bs generalizing i reg with
  | nil => exact le_rfl
  | cons c cs ih =>
    obtain ⟨hc, hcs⟩ := List.forall_mem_cons.1 hbs
    exact length_flatten_cons_le ((length_xorBytes_xorBytes_le (F c) reg (delta i)).trans (hF.length_le hc le_rfl))
      (ih hcs _ _)

end Padded

section Stream

variable (E : Bytes → Bytes) (B : Nat) (bs : List Bytes)

theorem length_cfbEncrypt_le (reg : Bytes) : (cfbEncrypt E reg bs).flatten.length ≤ bs.flatten.length := by
  induction bs generalizing reg with
  | nil => exact le_rfl
  | cons p ps ih => exact length_flatten_cons_le (length_xorKeystream_le p (E reg)) (ih _)

theorem length_cfbDecrypt_le (reg : Bytes) : (cfbDecrypt E reg bs).flatten.length ≤ bs.flatten.length := by
  induction bs generalizing reg with
  | nil => exact le_rfl
  | cons c cs ih => exact length_flatten_cons_le (length_xorKeystream_le c (E reg)) (ih _)

theorem length_ofbRun_le (reg : Bytes) : (ofbRun E reg bs).flatten.length ≤ bs.flatten.length := by
  induction bs generalizing reg with
  | nil => exact le_rfl
  | cons x xs ih => exact length_flatten_cons_le (length_xorKeystream_le x (E reg)) (ih _)

theorem length_ctrRun_le (ctr : Bytes) : (ctrRun E B ctr bs).flatten.length ≤ bs.flatten.length := by
  induction bs generalizing ctr with
  | nil => exact le_rfl
  | cons x xs ih => exact length_flatten_cons_le (length_xorKeystream_le x (E ctr)) (ih _)

end Stream

section Modes

variable {E D : Bytes → Bytes} {B : Nat} (hB : 0 < B) (delta : Nat → Bytes) {mode : Mode}
  (iv : Bytes) {p : Bytes} (hp : streamMode mode = false → p.length % B = 0)

include hB hp

theorem length_modeEncrypt_le (hE : WithinBlock B E) : (modeEncrypt E delta B mode iv p).length ≤ p.length := by
  have hwhole : streamMode mode = false → ∀ b ∈ blocks B p, b.length = B :=
    fun hm _ => length_of_mem_blocks hB (hp hm)
  suffices h : (modeEncrypt E delta B mode iv p).length ≤ (blocks B p).flatten.length by
    rwa [flatten_blocks hB] at h
  cases mode with
  | ecb => exact length_ecbRun_le hE (hwhole rfl)
  | cbc => exact length_cbcEncrypt_le hE (hwhole rfl) iv
  | pcbc => exact length_pcbcEncrypt_le hE (hwhole rfl) iv iv
  | cfb => exact length_cfbEncrypt_le E _ iv
  | ofb => exact length_ofbRun_le E _ iv
  | ctr => exact length_ctrRun_le E B _ iv
  | randomDelta => exact length_deltaEncrypt_le hE delta (hwhole rfl) 1 iv

theorem length_modeDecrypt_le (hD : WithinBlock B D) : (modeDecrypt E D delta B mode iv p).length ≤ p.length := by
  have hwhole : streamMode mode = false → ∀ b ∈ blocks B p, b.length = B :=
    fun hm _ => length_of_mem_blocks hB (hp hm)
  suffices h : (modeDecrypt E D delta B mode iv p).length ≤ (blocks B p).flatten.length by
    rwa [flatten_blocks hB] at h
  cases mode with
  | ecb => exact length_ecbRun_le hD (hwhole rfl)
  | cbc => exact length_cbcDecrypt_le hD (hwhole rfl) iv
  | pcbc => exact length_pcbcDecrypt_le hD (hwhole rfl) iv iv
  | cfb => exact length_cfbDecrypt_le E _ iv
  | ofb => exact length_ofbRun_le E _ iv
  | ctr => exact length_ctrRun_le E B _ iv
  | randomDelta => exact length_deltaDecrypt_le hD delta (hwhole rfl) 1 iv

end Modes

/-! ### The block functions stay within a block -/

theorem blockSize_pos (s : State) : 0 < blockSize s := by
  unfold blockSize
  cases s.cipher <;> decide

/-- A Feistel round makes no byte: XOR cuts to the shorter operand. -/
theorem length_foldl_feistelRound_le (rf : Bytes → Bytes → Bytes) (rk : List Bytes) (lr : Bytes × Bytes) :
    (rk.foldl (feistelRound rf) lr).1.length + (rk.foldl (feistelRound rf) lr).2.length ≤
      lr.1.length + lr.2.length := by
  induction rk generalizing lr with
  | nil => exact le_rfl
  | cons k ks ih =>
    refine (ih (feistelRound rf lr k)).trans ?_
    simp [feistelRound]
    omega

theorem length_foldr_feistelUnround_le (rf : Bytes → Bytes → Bytes) (rk : List Bytes) (lr : Bytes × Bytes) :
    (rk.foldr (feistelUnround rf) lr).1.length + (rk.foldr (feistelUnround rf) lr).2.length ≤
      lr.1.length + lr.2.length := by
  induction rk with
  | nil => exact le_rfl
  | cons k ks ih =>
    refine le_trans ?_ ih
    simp [feistelUnround]
    omega

theorem length_splitBlock_add (bk : Nat) (x : Bytes) :
    (splitBlock bk x).1.length + (splitBlock bk x).2.length = x.length := by
  rw [← List.length_append, append_splitBlock]

theorem length_feistelEncrypt_le (rf : Bytes → Bytes → Bytes) (bk : Nat) (rk : List Bytes) (x : Bytes) :
    (feistelEncrypt rf bk rk x).length ≤ x.length := by
  rw [feistelEncrypt, List.length_append, ← length_splitBlock_add bk x]
  exact length_foldl_feistelRound_le rf rk _

theorem length_feistelDecrypt_le (rf : Bytes → Bytes → Bytes) (bk : Nat) (rk : List Bytes) (x : Bytes) :
    (feistelDecrypt rf bk rk x).length ≤ x.length := by
  rw [feistelDecrypt, List.length_append, ← length_splitBlock_add bk x]
  exact length_foldr_feistelUnround_le rf rk _

theorem cipherEncrypt_withinBlock {rom : Rom} (h : romValid rom = true) (c : Cipher) (rk : List Bytes) :
    WithinBlock (cipherBlockSize c) (cipherEncrypt rom c rk) := by
  intro x hx
  cases c with
  | base => exact (length_baseEncrypt h rk x).le
  | compound => exact (length_feistelEncrypt_le _ _ rk x).trans hx

theorem cipherDecrypt_withinBlock {rom : Rom} (h : romValid rom = true) (c : Cipher) (rk : List Bytes) :
    WithinBlock (cipherBlockSize c) (cipherDecrypt rom c rk) := by
  intro x hx
  cases c with
  | base => exact (length_baseDecrypt h rk x).le
  | compound => exact (length_feistelDecrypt_le _ _ rk x).trans hx

/-! ### Key schedules -/

theorem length_keySegment {key : Bytes} {j : Nat} (h : 8 * j + 8 ≤ key.length) : (keySegment key j).length = 8 := by
  simp [keySegment]
  omega

/-- What a key scheduler makes of any key it accepts: sixteen round keys of the cipher's length (42_feistel_engine.md R207,
R208). -/
theorem keySchedule_ok {rom : Rom} (h : romValid rom = true) {c : Cipher} {key : Bytes} {keys : List Bytes}
    (hk : keySchedule rom c key = .ok keys) : keys.length = 16 ∧ ∀ k ∈ keys, k.length = roundKeyLength c := by
  obtain ⟨-, -, -, -, -, hpc2, hshifts⟩ := romValid_lengths h
  cases c with
  | base =>
    simp only [keySchedule, baseKeySchedule] at hk
    split at hk
    · cases hk
    · cases hk
      exact ⟨by simp [hshifts], fun k hm => by rw [length_of_mem_roundKeysFrom hm, hpc2]; rfl⟩
  | compound =>
    simp only [keySchedule, compKeySchedule] at hk
    split at hk
    · rename_i hlen
      cases hk
      refine ⟨by simp, fun k hm => ?_⟩
      obtain ⟨i, -, rfl⟩ := List.mem_map.1 hm
      have := Nat.mod_lt i (show 0 < key.length / 8 by omega)
      exact length_keySegment (by omega)
    · cases hk

theorem keySchedule_error {rom : Rom} {c : Cipher} {key : Bytes} {e : ErrClass}
    (h : keySchedule rom c key = .error e) : e = .invalidArgument := by
  cases c with
  | base =>
    simp only [keySchedule, baseKeySchedule] at h
    split at h <;> cases h
    rfl
  | compound =>
    simp only [keySchedule, compKeySchedule] at h
    split at h <;> cases h
    rfl

theorem length_flatten_keys {rom : Rom} (h : romValid rom = true) {c : Cipher} {key : Bytes} {keys : List Bytes}
    (hk : keySchedule rom c key = .ok keys) : keys.flatten.length = ksgenSize c := by
  obtain ⟨hn, hlen⟩ := keySchedule_ok h hk
  rw [List.length_flatten, List.sum_eq_card_nsmul (keys.map List.length) (roundKeyLength c) (by simpa using hlen)]
  cases c <;> simp [hn, roundKeyLength, ksgenSize]

/-! ### Padding and unpadding -/

/-- `Pad` appends as many bytes as `PadLen` says, when it is given the fill it asks for (46_padding.md R361 to R365). -/
theorem length_padBytes {full : PadScheme → Bool} {d fill : Bytes} {B : Nat} {p : PadScheme}
    (hf : fill.length = padDraws full d.length B p) :
    (padBytes full d B p fill).length = d.length + padLen full d.length B p := by
  unfold padBytes
  split
  · omega
  · rename_i hn
    rw [List.length_append, (padTail_rule (Nat.pos_of_ne_zero hn) fun hp => by rw [hf, hp]; rfl).1]

/-- `Unpad` returns no byte that was not there. -/
theorem length_unpadBytes_le {d out : Bytes} {B : Nat} {p : PadScheme} (h : unpadBytes d B p = .ok out) :
    out.length ≤ d.length := by
  obtain ⟨hz, hn⟩ := unpadBytes_ok h
  by_cases hp : p = .zeros
  · obtain ⟨⟨k, hk⟩, -⟩ := hz hp
    rw [hk, List.length_append]
    omega
  · rw [hn hp, List.length_take]
    omega

theorem unpadBytes_error {d : Bytes} {B : Nat} {p : PadScheme} {e : ErrClass} (h : unpadBytes d B p = .error e) :
    e = .paddingValidation := by
  have hlen : ∀ q, unpadByLength d B q = .error e → e = .paddingValidation := by
    intro q hq
    unfold unpadByLength at hq
    split at hq
    · cases hq; rfl
    · split at hq <;> cases hq
      rfl
  unfold unpadBytes at h
  split at h
  · cases h
  · cases p with
    | zeros => cases h
    | _ => exact hlen _ h

theorem length_mencData (s : State) : (mencData s).length = mencLength s := by
  unfold mencData mencLength
  split
  · simp
  · rename_i hm
    rw [length_padBytes (by simp [mencDraws, hm]), length_sourceBytes, mencPadLen]

/-- In a padded mode `MENC` encrypts a whole number of blocks (45_modes.md R311). -/
theorem length_mencData_mod {s : State} (h : streamMode s.ctxMode = false) :
    (mencData s).length % blockSize s = 0 := by
  rw [length_mencData, mencLength, if_neg (by simp [h]), mencPadLen, padLen_eq_rule _ _ (blockSize_pos s)]
  exact add_padLengthRule_mod _ _ (blockSize_pos s)

/-! ### The result of every command fits -/

/-- What a command may answer: bytes that fit a destination region in DMEM, or an error other than the one that no engine
reports. -/
structure Fits (s : State) (r : Except ErrClass Bytes) : Prop where
  /-- The bytes fit `DST_CAP`, and the region lies in DMEM. -/
  ok : ∀ {out}, r = .ok out → destInRange s = true ∧ out.length ≤ s.dstCap.toNat
  /-- The error is not KEY_SCHEDULE_MISMATCH. -/
  error : r ≠ .error .keyScheduleMismatch

theorem fits_permuteResult (ord : BitOrder) (org : Origin) (tsrc : BitVec 3) (s : State) :
    Fits s (permuteResult ord org tsrc s) := by
  constructor
  · intro out h
    obtain ⟨-, -, -, hdst, hcap, -, rfl⟩ := permuteResult_ok.1 h
    exact ⟨hdst, by rwa [length_permuteBits]⟩
  · unfold permuteResult bitPermute
    repeat' split
    all_goals simp

theorem fits_ksgenResult {s : State} (hrom : romValid s.par.rom = true) (k : Cipher) : Fits s (ksgenResult k s) := by
  constructor
  · intro out h
    obtain ⟨hdst, -, hcap, keys, hkeys, rfl⟩ := ksgenResult_ok.1 h
    exact ⟨hdst, by rwa [length_flatten_keys hrom hkeys]⟩
  · unfold ksgenResult
    split
    · simp
    · split
      · simp
      · split
        · rename_i e he
          rw [keySchedule_error he]
          simp
        · split <;> simp

theorem length_roundFunction {rom : Rom} (hrom : romValid rom = true) {f : RoundFn} {h k out : Bytes}
    (hr : roundFunction rom f h k = .ok out) : out.length = rfnHalf f := by
  cases f with
  | base =>
    simp only [roundFunction, baseRoundChecked] at hr
    split at hr <;> cases hr
    exact length_baseRound hrom h k
  | adapter =>
    simp only [roundFunction, adapterChecked] at hr
    split at hr <;> cases hr
    exact length_adapter hrom h k

theorem fits_rfnResult {s : State} (hrom : romValid s.par.rom = true) (f : RoundFn) : Fits s (rfnResult f s) := by
  constructor
  · intro out h
    obtain ⟨-, hdst, -, -, hcap, hr⟩ := rfnResult_ok.1 h
    exact ⟨hdst, by rwa [length_roundFunction hrom hr]⟩
  · unfold rfnResult roundFunction baseRoundChecked adapterChecked
    repeat' split
    all_goals simp

theorem fits_blockResult {s : State} {F : Bytes → Bytes} (hF : WithinBlock (blockSize s) F) :
    Fits s (blockResult F s) := by
  constructor
  · intro out h
    obtain ⟨-, hdst, hlen, hcap, -, rfl⟩ := blockResult_ok.1 h
    exact ⟨hdst, (hF _ (by rw [length_sourceBytes, hlen])).trans hcap⟩
  · unfold blockResult
    repeat' split
    all_goals simp

theorem fits_mencResult {s : State} (hrom : romValid s.par.rom = true) : Fits s (mencResult s) := by
  constructor
  · intro out h
    obtain ⟨-, hdst, -, hcap, -, rfl⟩ := mencResult_ok.1 h
    have hle := length_modeEncrypt_le (blockSize_pos s) (modeDelta s) s.ctxIv length_mencData_mod
      (cipherEncrypt_withinBlock hrom s.cipher s.rk)
    exact ⟨hdst, hle.trans ((length_mencData s).le.trans hcap)⟩
  · unfold mencResult
    repeat' split
    all_goals simp

theorem fits_mdecResult {s : State} (hrom : romValid s.par.rom = true) : Fits s (mdecResult s) := by
  constructor
  · intro out h
    obtain ⟨-, hdst, -, hwhole, hcap, -, hout⟩ := mdecResult_ok.1 h
    have hdata : (mdecData s).length ≤ s.srcLen.toNat := by
      rw [← length_sourceBytes]
      refine length_modeDecrypt_le (blockSize_pos s) _ _ (fun hm => ?_) (cipherDecrypt_withinBlock hrom s.cipher s.rk)
      rw [length_sourceBytes]
      exact hwhole.resolve_left (by simp [hm])
    refine ⟨hdst, le_trans ?_ (hdata.trans hcap)⟩
    split at hout
    · cases hout
      exact le_rfl
    · exact length_unpadBytes_le hout
  · intro h
    unfold mdecResult at h
    repeat' split at h
    any_goals cases h
    cases unpadBytes_error h

theorem fits_padResult (p : PadScheme) (s : State) : Fits s (padResult p s) := by
  constructor
  · intro out h
    obtain ⟨-, hdst, hcap, rfl⟩ := padResult_ok.1 h
    refine ⟨hdst, ?_⟩
    rwa [length_padBytes (by simp [sourcePadDraws]), length_sourceBytes]
  · unfold padResult
    repeat' split
    all_goals simp

theorem fits_unpadResult (p : PadScheme) (s : State) : Fits s (unpadResult p s) := by
  constructor
  · intro out h
    obtain ⟨-, hdst, hcap, hout⟩ := unpadResult_ok.1 h
    exact ⟨hdst, (length_unpadBytes_le hout).trans (by rwa [length_sourceBytes])⟩
  · intro h
    unfold unpadResult at h
    repeat' split at h
    any_goals cases h
    cases unpadBytes_error h

/-! ### What a command does, with its bounds -/

/-- A command with a DMEM result raises an error that can occur, or commits bytes that fit. -/
theorem exec_usesDest_cases {i : Instr} {s t : State} (hrom : romValid s.par.rom = true) (hi : usesDest i = true)
    (h : exec i s = .next t) :
    (∃ e, e ≠ .keyScheduleMismatch ∧ t = s.raise e) ∨
      ∃ out n, destInRange s = true ∧ out.length ≤ s.dstCap.toNat ∧ t = s.commitBytes out n := by
  have hcomplete : ∀ {n r}, Fits s r → complete s n r = .next t →
      (∃ e, e ≠ .keyScheduleMismatch ∧ t = s.raise e) ∨
        ∃ out n, destInRange s = true ∧ out.length ≤ s.dstCap.toNat ∧ t = s.commitBytes out n := by
    intro n r hf hr
    rcases complete_cases hr with ⟨out, ho, ht⟩ | ⟨e, he, ht⟩
    · obtain ⟨hdst, hlen⟩ := hf.ok ho
      exact .inr ⟨out, n, hdst, hlen, ht⟩
    · exact .inl ⟨e, fun hm => hf.error (hm ▸ he), ht⟩
  cases i with
  | permute ord org tsrc =>
    have hf := fits_permuteResult ord org tsrc s
    rcases execPermute_cases h with ⟨e, he, ht⟩ | ⟨out, ho, hz⟩
    · exact .inl ⟨e, fun hm => hf.error (hm ▸ he), ht⟩
    · obtain ⟨hdst, hlen⟩ := hf.ok ho
      rcases hz with ⟨-, ht⟩ | ⟨-, ht⟩
      · exact .inr ⟨_, _, hdst, by rwa [length_freeBytes], ht⟩
      · exact .inr ⟨out, 0, hdst, hlen, ht⟩
  | ksgen k => exact hcomplete (fits_ksgenResult hrom k) h
  | rfn f => exact hcomplete (fits_rfnResult hrom f) h
  | keyinit => cases hi
  | encb => exact hcomplete (fits_blockResult (cipherEncrypt_withinBlock hrom s.cipher s.rk)) h
  | decb => exact hcomplete (fits_blockResult (cipherDecrypt_withinBlock hrom s.cipher s.rk)) h
  | ctxset f p => cases hi
  | menc => exact hcomplete (fits_mencResult hrom) h
  | mdec => exact hcomplete (fits_mdecResult hrom) h
  | pad p => exact hcomplete (fits_padResult p s) h
  | unpad p => exact hcomplete (fits_unpadResult p s) h

/-- Settles O35: an error changes nothing but `ERRCODE` and `OUT_LEN`; a commit stores bytes that fit `DST_CAP`, so that
`OUT_LEN` counts them all. -/
theorem dmemCommandsFrame : Obligations.DmemCommandsFrame := by
  intro i s t hinv hi h
  obtain ⟨-, -, hrom⟩ := paramsValid_iff.1 hinv.params
  rcases exec_usesDest_cases hrom hi h with ⟨e, -, rfl⟩ | ⟨out, n, -, hlen, rfl⟩
  · exact ⟨rfl, Nat.zero_le _, fun _ _ => rfl, fun _ => ⟨rfl, rfl, rfl⟩⟩
  · have hout := Permute.toNat_outLen_commitBytes n hlen
    refine ⟨rfl, hout.le.trans hlen, fun a ha => ?_, fun he => absurd rfl he⟩
    rw [hout] at ha
    exact Memory.read_writeBytes_outside hinv.canonical ha

end Sys2Proof.Results

/-! PROOFS of the family 10_state.md, the invariant: it holds at reset, and every operation of a step keeps it
(10_state.md R37, R39, R51, R57). -/

namespace Sys2Proof.Invariant

open Sys2Proof Sys2Proof.Machine

/-! ### Each operation keeps the invariant -/

/-- The invariant reads no operand register, not `CMD`, `BUSY`, nor the fields of the model's own. -/
theorem inv_of_unread {s t : State} (hs : Inv s)
    (h : t = { s with
      cmd := t.cmd, busy := t.busy, keyLen := t.keyLen, ivLen := t.ivLen, srcAddr := t.srcAddr, srcLen := t.srcLen
      dstAddr := t.dstAddr, dstCap := t.dstCap, tblAddr := t.tblAddr, tblLen := t.tblLen, key := t.key, iv := t.iv
      hostq := t.hostq, replies := t.replies, draws := t.draws }) : Inv t := by
  rw [h]
  exact ⟨hs.params, hs.canonical, hs.inside, hs.keys, hs.context, hs.noMismatch, hs.outLen⟩

theorem inv_raise {s : State} (hs : Inv s) {e : ErrClass} (he : e ≠ .keyScheduleMismatch) : Inv (s.raise e) :=
  ⟨hs.params, hs.canonical, hs.inside, hs.keys, hs.context, by simpa using he, Nat.zero_le _⟩

/-- Bytes that fit a destination region in DMEM lie in DMEM, and there are at most `DMEM_SIZE` of them. -/
theorem inv_commitBytes {s : State} (hs : Inv s) {out : Bytes} (n : Nat) (hdst : destInRange s = true)
    (hlen : out.length ≤ s.dstCap.toNat) : Inv (s.commitBytes out n) := by
  have hreg : s.dstAddr.toNat + s.dstCap.toNat ≤ s.par.dmemSize := by simpa [destInRange, inRange] using hdst
  refine ⟨hs.params, Memory.wf_writeBytes hs.canonical _ _, fun c hc => ?_, hs.keys, hs.context, (fun e => nomatch e), ?_⟩
  · rcases Memory.mem_writeBytes hc with h | h
    · exact h.2.trans_le (by rw [State.commitBytes_par]; omega)
    · exact hs.inside c h
  · rw [Permute.toNat_outLen_commitBytes n hlen, State.commitBytes_par]
    omega

/-- The keys that `KEYINIT` loads are those of a legal key (10_state.md R51). -/
theorem inv_commitKeys {s : State} (hs : Inv s) {keys : List Bytes} (h : keyinitResult s = .ok keys) :
    Inv (s.commitKeys keys) := by
  obtain ⟨hlegal, hkeys, -⟩ := keyinitResult_ok h
  refine ⟨hs.params, hs.canonical, hs.inside, fun _ => ⟨keyOperand s, ?_, hkeys⟩, hs.context, (fun e => nomatch e),
    Nat.zero_le _⟩
  rwa [length_keyOperand (keyLengthLegal_le hlegal)]

/-- A latched non-ECB mode has the IV operand of the selected cipher (10_state.md R52). -/
theorem inv_commitContext {s : State} (hs : Inv s) (m : Mode) (p : PadScheme) :
    Inv (s.commitContext m p (ivOperand s)) := by
  refine ⟨hs.params, hs.canonical, hs.inside, hs.keys, fun _ hm => ?_, (fun e => nomatch e), Nat.zero_le _⟩
  rw [State.commitContext_ctxIv, if_neg (show m ≠ .ecb from hm), length_ivOperand]
  rfl

/-- A change of the cipher clears `INIT` and `CTXV`, so the old keys and IV need not fit the new one
(10_state.md R37). -/
theorem inv_selectCipher {s : State} (hs : Inv s) (c : Cipher) : Inv (s.selectCipher c) := by
  by_cases hc : s.cipher = c
  · rwa [State.selectCipher_same s hc]
  · rw [State.selectCipher_change s hc]
    exact ⟨hs.params, hs.canonical, hs.inside, (fun e => nomatch e), (fun e => nomatch e), hs.noMismatch, hs.outLen⟩

theorem inv_writeCfg {s : State} (hs : Inv s) (v : Word) : Inv (s.writeCfg v) := by
  rcases State.writeCfg_cases s v with h | ⟨c, h⟩
  · rwa [h]
  · rw [h]
    exact inv_selectCipher hs c

theorem inv_dmemWrite {s : State} (hs : Inv s) {a w : Nat} (v : Nat) (h : inRange s a w = true) :
    Inv { s with dmem := s.dmem.writeBytes a (bebytes v w) } := by
  have hreg : a + w ≤ s.par.dmemSize := by simpa [inRange] using h
  refine ⟨hs.params, Memory.wf_writeBytes hs.canonical _ _, fun c hc => ?_, hs.keys, hs.context, hs.noMismatch, hs.outLen⟩
  rcases Memory.mem_writeBytes hc with h | h
  · rw [length_bebytes] at h
    exact h.2.trans_le hreg
  · exact hs.inside c h

/-- What unspecified storage comes up as is hidden or, in DMEM, canonical (10_state.md R57). -/
theorem inv_platformReset {s : State} (hs : Inv s) (d : ResetDraw) : Inv (s.platformReset d) :=
  ⟨hs.params, platformReset_dmem_wf s d, (Memory.ofCells_wf_inside _ _).2, (fun e => nomatch e), (fun e => nomatch e),
    (fun e => nomatch e), Nat.zero_le _⟩

/-! ### Commands and accesses -/

theorem keyinitResult_error {s : State} (hrom : romValid s.par.rom = true) :
    keyinitResult s ≠ .error .keyScheduleMismatch := by
  unfold keyinitResult
  split
  · simp
  · split
    · rename_i e he
      rw [Results.keySchedule_error he]
      simp
    · rename_i keys hkeys
      rw [if_neg (not_not.2 (Results.keySchedule_ok hrom hkeys).1)]
      simp

theorem inv_exec {i : Instr} {s t : State} (hs : Inv s) (h : exec i s = .next t) : Inv t := by
  obtain ⟨-, -, hrom⟩ := paramsValid_iff.1 hs.params
  by_cases hi : usesDest i = true
  · rcases Results.exec_usesDest_cases hrom hi h with ⟨e, he, rfl⟩ | ⟨out, n, hdst, hlen, rfl⟩
    · exact inv_raise hs he
    · exact inv_commitBytes hs n hdst hlen
  cases i with
  | keyinit =>
    rcases execKeyinit_cases h with ⟨keys, hkeys, rfl⟩ | ⟨e, he, rfl⟩
    · exact inv_commitKeys hs hkeys
    · exact inv_raise hs fun hm => keyinitResult_error hrom (hm ▸ he)
  | ctxset f p =>
    rcases execCtxset_cases h with ⟨-, rfl⟩ | ⟨m, -, ⟨-, rfl⟩ | ⟨-, rfl⟩⟩
    · exact inv_raise hs (by decide)
    · exact inv_raise hs (by decide)
    · exact inv_commitContext hs m p
  | _ => exact absurd rfl hi

theorem inv_issue {w : Word} {s t : State} (hs : Inv s) (h : issue w s = .next t) : Inv t := by
  have hbegin : Inv (s.beginCommand w) := inv_of_unread hs rfl
  rcases issue_cases h with ⟨-, -, rfl⟩ | ⟨i, u, -, hu, rfl⟩
  · exact inv_of_unread (inv_raise hbegin (e := .illegalCommand) (by decide)) rfl
  · exact inv_of_unread (inv_exec hbegin hu) rfl

theorem inv_hostAccess {op : HostOp} {s t : State} (hs : Inv s) (h : hostAccess op s = .next t) : Inv t := by
  rcases hostAccess_cases h with ⟨r, rfl⟩ | ⟨off, size, v, -, -, hw⟩ | ⟨a, w, v, -, hr, rfl⟩ | ⟨d, -, rfl⟩
  · exact inv_of_unread hs rfl
  · rcases HostPort.writeCsr_cases hw with ⟨-, hi⟩ | ⟨-, rfl⟩ | hops
    · exact inv_issue hs hi
    · exact inv_writeCfg hs v
    · exact inv_of_unread hs (by rw [hops])
  · exact inv_dmemWrite hs v hr
  · exact inv_platformReset hs d

theorem inv_step {s t : State} (hs : Inv s) (h : step s = .next t) : Inv t := by
  rcases step_cases h with ⟨-, rfl⟩ | ⟨op, rest, -, ha⟩
  · exact hs
  · exact inv_hostAccess (inv_of_unread (t := s.popHost rest) hs rfl) ha

/-! ### BUSY -/

theorem busy_issue {w : Word} {s t : State} (h : issue w s = .next t) : t.busy = false := by
  rcases issue_cases h with ⟨-, -, rfl⟩ | ⟨-, -, -, -, rfl⟩ <;> rfl

theorem busy_writeCfg (s : State) (v : Word) : (s.writeCfg v).busy = s.busy := by
  rcases State.writeCfg_cases s v with h | ⟨c, h⟩ <;> simp [h]

/-- `BUSY` is 0 between commands (10_state.md R39). -/
theorem busy_step {s t : State} (hb : s.busy = false) (h : step s = .next t) : t.busy = false := by
  rcases step_cases h with ⟨-, rfl⟩ | ⟨op, rest, -, ha⟩
  · exact hb
  rcases hostAccess_cases ha with ⟨r, rfl⟩ | ⟨off, size, v, -, -, hw⟩ | ⟨a, w, v, -, -, rfl⟩ | ⟨d, -, rfl⟩
  · exact hb
  · rcases HostPort.writeCsr_cases hw with ⟨-, hi⟩ | ⟨-, rfl⟩ | hops
    · exact busy_issue hi
    · exact (busy_writeCfg _ v).trans hb
    · rw [hops]; exact hb
  · exact hb
  · rfl

/-! ### The statements -/

/-- Settles O55: the invariant over the kinds of access a step can serve, and `BUSY` with it. -/
theorem stepKeepsInvariant : Obligations.StepKeepsInvariant :=
  fun _ _ hs h => ⟨inv_step hs h, fun hb => busy_step hb h⟩

/-- Settles O56: after reset DMEM lists nothing, and no key, context or error is there to speak of. -/
theorem resetMeetsInvariant : Obligations.ResetMeetsInvariant :=
  ⟨⟨paramsValid_iff.2 ⟨by decide, by decide, romValid_default⟩, reset_dmem_wf, (fun _ hc => nomatch hc),
    (fun e => nomatch e), (fun e => nomatch e), (fun e => nomatch e), Nat.zero_le _⟩, rfl⟩

end Sys2Proof.Invariant

/-! PROOFS of the family 10_state.md, the lifecycle: which accesses change `INIT`, `CTXV` and `RK`
(10_state.md R37, R40, R41, R50, R55). -/

namespace Sys2Proof.Lifecycle

open Sys2Proof Sys2Proof.Machine

/-! ### The offsets of CMD and CFG -/

theorem csrAt_eq_cmd {n : Nat} (h : csrAt n = .cmd) : n = 0 := by
  by_cases hn : 28 ≤ n
  · rw [HostPort.csrAt_reserved (.inr hn)] at h
    cases h
  · have hmap : ∀ k < 28, csrAt k = .cmd → k = 0 := by decide
    exact hmap n (by omega) h

theorem csrAt_eq_cfg {n : Nat} (h : csrAt n = .cfg) : n = 2 := by
  by_cases hn : 28 ≤ n
  · rw [HostPort.csrAt_reserved (.inr hn)] at h
    cases h
  · have hmap : ∀ k < 28, csrAt k = .cfg → k = 2 := by decide
    exact hmap n (by omega) h

/-! ### What an operation does to the lifecycle -/

/-- `t` has the `INIT`, `CTXV` and `RK` of `s`. -/
structure Keeps (s t : State) : Prop where
  /-- `INIT` is as it was. -/
  init : t.init = s.init
  /-- `CTXV` is as it was. -/
  ctxv : t.ctxv = s.ctxv
  /-- `RK` is as it was. -/
  rk : t.rk = s.rk

/-- What a command can do to the lifecycle: nothing, but for `KEYINIT`, which may load keys, and `CTXSET`, which may latch a
context. -/
theorem exec_lifecycle {i : Instr} {s t : State} (h : exec i s = .next t) :
    Keeps s t ∨ (i = .keyinit ∧ t.init = true ∧ t.ctxv = s.ctxv) ∨
      ((∃ f p, i = .ctxset f p) ∧ t.init = s.init ∧ t.ctxv = true ∧ t.rk = s.rk) := by
  rcases exec_cases h with ⟨e, rfl⟩ | ⟨out, n, -, rfl⟩ | ⟨keys, hi, -, rfl⟩ | ⟨f, m, p, hi, -, -, rfl⟩
  · exact .inl ⟨rfl, rfl, rfl⟩
  · exact .inl ⟨rfl, rfl, rfl⟩
  · exact .inr (.inl ⟨hi, rfl, rfl⟩)
  · exact .inr (.inr ⟨⟨f, p, hi⟩, rfl, rfl, rfl⟩)

theorem issue_lifecycle {w : Word} {s t : State} (h : issue w s = .next t) :
    Keeps s t ∨ (decode w = .ok .keyinit ∧ t.init = true ∧ t.ctxv = s.ctxv) ∨
      ((∃ f p, decode w = .ok (.ctxset f p)) ∧ t.init = s.init ∧ t.ctxv = true ∧ t.rk = s.rk) := by
  rcases issue_cases h with ⟨-, -, rfl⟩ | ⟨i, u, hd, hu, rfl⟩
  · exact .inl ⟨rfl, rfl, rfl⟩
  · rcases exec_lifecycle hu with hk | ⟨rfl, hinit, hctxv⟩ | ⟨⟨f, p, rfl⟩, hinit, hctxv, hrk⟩
    · exact .inl ⟨hk.init, hk.ctxv, hk.rk⟩
    · exact .inr (.inl ⟨hd, hinit, hctxv⟩)
    · exact .inr (.inr ⟨⟨f, p, hd⟩, hinit, hctxv, hrk⟩)

/-- A write to `CFG` clears `INIT` and `CTXV` when it changes the cipher, and keeps them when not (R37). -/
theorem writeCfg_lifecycle (s : State) (v : Word) :
    Keeps s (s.writeCfg v) ∨ ((s.writeCfg v).cipher ≠ s.cipher ∧ (s.writeCfg v).init = false ∧
      (s.writeCfg v).ctxv = false ∧ (s.writeCfg v).rk = s.rk) := by
  rcases State.writeCfg_cases s v with h | ⟨c, h⟩ <;> rw [h]
  · exact .inl ⟨rfl, rfl, rfl⟩
  by_cases hc : s.cipher = c
  · rw [State.selectCipher_same s hc]
    exact .inl ⟨rfl, rfl, rfl⟩
  · rw [State.selectCipher_change s hc]
    exact .inr ⟨fun e => hc e.symm, rfl, rfl, rfl⟩

/-- Everything a step can do to the lifecycle, and the access that does it. -/
theorem step_lifecycle {s t : State} (h : step s = .next t) :
    Keeps s t ∨
      ((∃ w rest, s.hostq = .csrWrite 0x000 4 w :: rest ∧ decode w = .ok .keyinit) ∧ t.init = true ∧ t.ctxv = s.ctxv) ∨
      ((∃ w rest f p, s.hostq = .csrWrite 0x000 4 w :: rest ∧ decode w = .ok (.ctxset f p)) ∧ t.init = s.init ∧
        t.ctxv = true ∧ t.rk = s.rk) ∨
      ((∃ v rest, s.hostq = .csrWrite 0x008 4 v :: rest ∧ t.cipher ≠ s.cipher) ∧ t.init = false ∧ t.ctxv = false ∧
        t.rk = s.rk) ∨
      ((∃ d rest, s.hostq = .reset d :: rest) ∧ t.init = false ∧ t.ctxv = false) := by
  rcases step_cases h with ⟨-, rfl⟩ | ⟨op, rest, hq, ha⟩
  · exact .inl ⟨rfl, rfl, rfl⟩
  rcases hostAccess_cases ha with ⟨r, rfl⟩ | ⟨off, size, v, rfl, hlegal, hw⟩ | ⟨a, w, v, -, -, rfl⟩ | ⟨d, rfl, rfl⟩
  · exact .inl ⟨rfl, rfl, rfl⟩
  · obtain ⟨rfl, haligned, -⟩ := HostPort.csrAccessLegal_iff.1 hlegal
    rcases HostPort.writeCsr_cases hw with ⟨hcmd, hi⟩ | ⟨hcfg, rfl⟩ | hops
    · have hoff : off = 0x000 := by have := csrAt_eq_cmd hcmd; omega
      subst hoff
      rcases issue_lifecycle hi with hk | ⟨hd, hinit, hctxv⟩ | ⟨⟨f, p, hd⟩, hinit, hctxv, hrk⟩
      · exact .inl ⟨hk.init, hk.ctxv, hk.rk⟩
      · exact .inr (.inl ⟨⟨v, rest, hq, hd⟩, hinit, hctxv⟩)
      · exact .inr (.inr (.inl ⟨⟨v, rest, f, p, hq, hd⟩, hinit, hctxv, hrk⟩))
    · have hoff : off = 0x008 := by have := csrAt_eq_cfg hcfg; omega
      subst hoff
      rcases writeCfg_lifecycle (s.popHost rest) v with hk | ⟨hc, hinit, hctxv, hrk⟩
      · exact .inl ⟨hk.init, hk.ctxv, hk.rk⟩
      · exact .inr (.inr (.inr (.inl ⟨⟨v, rest, hq, hc⟩, hinit, hctxv, hrk⟩)))
    · rw [hops]
      exact .inl ⟨rfl, rfl, rfl⟩
  · exact .inl ⟨rfl, rfl, rfl⟩
  · exact .inr (.inr (.inr (.inr ⟨⟨d, rest, hq⟩, rfl, rfl⟩)))

/-- Settles O59: of the five things a step can do to the lifecycle, each clause leaves those that change its field. -/
theorem onlyTheirCommandsChangeLifecycle : Obligations.OnlyTheirCommandsChangeLifecycle := by
  intro s t h
  rcases step_lifecycle h with ⟨hinit, hctxv, hrk⟩ | ⟨⟨w, rest, hq, hd⟩, hinit, hctxv⟩ |
    ⟨⟨w, rest, f, p, hq, hd⟩, hinit, hctxv, hrk⟩ | ⟨⟨v, rest, hq, hc⟩, hinit, hctxv, hrk⟩ |
    ⟨⟨d, rest, hq⟩, hinit, hctxv⟩
  · rw [hinit, hctxv, hrk]
    exact ⟨by simp +contextual, by simp +contextual, absurd rfl, by simp +contextual, by simp +contextual⟩
  · rw [hinit, hctxv]
    exact ⟨fun _ _ => ⟨w, rest, hq, hd⟩, by simp +contextual, fun _ => ⟨rest, .inl ⟨w, hq, hd⟩⟩, by simp,
      by simp +contextual⟩
  · rw [hinit, hctxv, hrk]
    exact ⟨by simp +contextual, fun _ _ => ⟨w, rest, f, p, hq, hd⟩, absurd rfl, by simp +contextual, by simp⟩
  · rw [hinit, hctxv, hrk]
    exact ⟨by simp, by simp, absurd rfl, fun _ _ => ⟨rest, .inl ⟨v, hq, hc⟩⟩, fun _ _ => ⟨rest, .inl ⟨v, hq, hc⟩⟩⟩
  · rw [hinit, hctxv]
    exact ⟨by simp, by simp, fun _ => ⟨rest, .inr ⟨d, hq⟩⟩, fun _ _ => ⟨rest, .inr ⟨d, hq⟩⟩,
      fun _ _ => ⟨rest, .inr ⟨d, hq⟩⟩⟩

end Sys2Proof.Lifecycle

/-! PROOFS of the family 10_state.md, what no access observes: `RK` while `INIT = 0`, the mode context while `CTXV = 0`, and
`ctx.IV` under ECB (10_state.md R37, R50, R52, R56). Two states of one public view are a state and the same state with
other contents of that storage; each operation is shown to make the same of both. -/

namespace Sys2Proof.View

open Sys2Proof Sys2Proof.Machine

/-! ### Hidden storage -/

/-- Contents of the storage that may be hidden. -/
@[ext]
structure Hidden where
  /-- `RK`. -/
  rk : List Bytes
  /-- `ctx.MODE`. -/
  ctxMode : Mode
  /-- `ctx.PAD`. -/
  ctxPad : PadScheme
  /-- `ctx.IV`. -/
  ctxIv : Bytes

/-- The state with other contents of that storage. -/
def withHidden (s : State) (x : Hidden) : State :=
  { s with rk := x.rk, ctxMode := x.ctxMode, ctxPad := x.ctxPad, ctxIv := x.ctxIv }

/-- What `s` shows of that storage. -/
def shown (s : State) : Hidden where
  rk := if s.init then s.rk else []
  ctxMode := if s.ctxv then s.ctxMode else .ecb
  ctxPad := if s.ctxv then s.ctxPad else .zeros
  ctxIv := if s.ctxv = true ∧ s.ctxMode ≠ .ecb then s.ctxIv else []

theorem publicView_eq_withHidden (s : State) : publicView s = withHidden s (shown s) := rfl

/-- The contents `x` differ from those of `s` only where `s` hides them. -/
structure Hides (s : State) (x : Hidden) : Prop where
  /-- `RK` shows while `INIT = 1`. -/
  rk : s.init = true → x.rk = s.rk
  /-- `ctx.MODE` shows while `CTXV = 1`. -/
  mode : s.ctxv = true → x.ctxMode = s.ctxMode
  /-- `ctx.PAD` shows while `CTXV = 1`. -/
  pad : s.ctxv = true → x.ctxPad = s.ctxPad
  /-- `ctx.IV` shows while `CTXV = 1` under a mode other than ECB. -/
  iv : s.ctxv = true → s.ctxMode ≠ .ecb → x.ctxIv = s.ctxIv

theorem Hides.shown_eq {s : State} {x : Hidden} (h : Hides s x) : shown s = shown (withHidden s x) := by
  refine Hidden.ext ?_ ?_ ?_ ?_
  · by_cases hi : s.init = true
    · simp [shown, withHidden, h.rk hi]
    · simp [shown, withHidden, hi]
  · by_cases hc : s.ctxv = true
    · simp [shown, withHidden, h.mode hc]
    · simp [shown, withHidden, hc]
  · by_cases hc : s.ctxv = true
    · simp [shown, withHidden, h.pad hc]
    · simp [shown, withHidden, hc]
  · by_cases hc : s.ctxv = true
    · by_cases hm : s.ctxMode = .ecb
      · simp [shown, withHidden, h.mode hc, hm]
      · simp [shown, withHidden, h.mode hc, h.iv hc hm]
    · simp [shown, withHidden, hc]

theorem Hides.publicView_eq {s : State} {x : Hidden} (h : Hides s x) :
    publicView s = publicView (withHidden s x) :=
  (publicView_eq_withHidden s).trans (congrArg (withHidden s) h.shown_eq)

/-- States of one view differ in hidden contents only. -/
theorem exists_hidden_of_publicView_eq {s t : State} (h : publicView s = publicView t) :
    ∃ x, Hides s x ∧ t = withHidden s x := by
  have hinit : s.init = t.init := (congrArg State.init h :)
  have hctxv : s.ctxv = t.ctxv := (congrArg State.ctxv h :)
  have hshown : shown s = shown t := (congrArg (fun u => Hidden.mk u.rk u.ctxMode u.ctxPad u.ctxIv) h :)
  simp only [shown, Hidden.mk.injEq] at hshown
  obtain ⟨hrk, hmode, hpad, hiv⟩ := hshown
  rw [← hinit] at hrk
  rw [← hctxv] at hmode hpad hiv
  have hm : s.ctxv = true → t.ctxMode = s.ctxMode := fun hc => by simpa [hc] using hmode.symm
  refine ⟨⟨t.rk, t.ctxMode, t.ctxPad, t.ctxIv⟩, ⟨fun hi => by simpa [hi] using hrk.symm, hm,
    fun hc => by simpa [hc] using hpad.symm, fun hc hne => ?_⟩, ?_⟩
  · rw [hm hc] at hiv
    simpa [hc, hne] using hiv.symm
  · exact (congrArg (withHidden · ⟨t.rk, t.ctxMode, t.ctxPad, t.ctxIv⟩) h).symm

/-! ### Outcomes -/

/-- Two outcomes of one view: next states of one view, or the same stop. -/
inductive SameOutcome : Host.Outcome State Fault Refusal → Host.Outcome State Fault Refusal → Prop where
  /-- Next states of one view. -/
  | next {s t : State} (h : publicView s = publicView t) : SameOutcome (.next s) (.next t)
  /-- The same fault. -/
  | fault (r : Fault) : SameOutcome (.fault r) (.fault r)
  /-- The same refusal. -/
  | refused (r : Refusal) : SameOutcome (.refused r) (.refused r)

theorem SameOutcome.clauses {o o' : Host.Outcome State Fault Refusal} (h : SameOutcome o o') :
    (∀ s', o = .next s' → ∃ t', o' = .next t' ∧ publicView s' = publicView t') ∧
      (∀ r, o = .fault r → o' = .fault r) ∧ ∀ r, o = .refused r → o' = .refused r := by
  cases h with
  | next h => exact ⟨fun s' hs => ⟨_, rfl, by cases hs; exact h⟩, (fun _ e => nomatch e), (fun _ e => nomatch e)⟩
  | fault r => exact ⟨(fun _ e => nomatch e), fun _ e => e, (fun _ e => nomatch e)⟩
  | refused r => exact ⟨(fun _ e => nomatch e), (fun _ e => nomatch e), fun _ e => e⟩

theorem SameOutcome.endOutcome {o o' : Host.Outcome State Fault Refusal} (h : SameOutcome o o') :
    SameOutcome (Machine.endOutcome o) (Machine.endOutcome o') := by
  cases h with
  | next h =>
    obtain ⟨x, hx, rfl⟩ := exists_hidden_of_publicView_eq h
    exact .next (Hides.publicView_eq (s := State.endCommand _) ⟨hx.rk, hx.mode, hx.pad, hx.iv⟩)
  | fault r => exact .fault r
  | refused r => exact .refused r

theorem Hides.next {s : State} {x : Hidden} (h : Hides s x) : SameOutcome (.next s) (.next (withHidden s x)) :=
  .next h.publicView_eq

/-! ### What a result reads -/

/-- A block command reads `RK` only while `INIT = 1`. -/
theorem blockResult_withHidden {s : State} {x : Hidden} {F F' : Bytes → Bytes} (hF : s.init = true → F' = F) :
    blockResult F' (withHidden s x) = blockResult F s := by
  have hread : blockResult F' (withHidden s x) = blockResult F' s := rfl
  rw [hread]
  by_cases hi : s.init = true
  · rw [hF hi]
  · simp [blockResult, hi]

/-- `MENC` without a context stops at its second check (45_modes.md R321). -/
theorem mencResult_of_no_context {s : State} (hc : s.ctxv = false) :
    mencResult s = if sourceInRange s = false ∨ destInRange s = false then .error .addressRange
      else .error .notInitialized := by
  simp [mencResult, hc]

/-- `MENC` without a key stops at its last check, having read the capacity. -/
theorem mencResult_of_no_key {s : State} (hi : s.init = false) :
    mencResult s = if sourceInRange s = false ∨ destInRange s = false then .error .addressRange
      else if s.ctxv = false then .error .notInitialized
      else if s.dstCap.toNat < mencLength s then .error .invalidArgument else .error .notInitialized := by
  simp [mencResult, hi]

theorem mdecResult_of_no_context {s : State} (hc : s.ctxv = false) :
    mdecResult s = if sourceInRange s = false ∨ destInRange s = false then .error .addressRange
      else .error .notInitialized := by
  simp [mdecResult, hc]

theorem mdecResult_of_no_key {s : State} (hi : s.init = false) :
    mdecResult s = if sourceInRange s = false ∨ destInRange s = false then .error .addressRange
      else if s.ctxv = false then .error .notInitialized
      else if streamMode s.ctxMode = false ∧ s.srcLen.toNat % blockSize s ≠ 0 then .error .invalidArgument
      else if s.dstCap.toNat < s.srcLen.toNat then .error .invalidArgument else .error .notInitialized := by
  simp [mdecResult, hi]

/-- ECB reads no IV (45_modes.md R315). -/
theorem mencResult_ecb {s : State} (hm : s.ctxMode = .ecb) (v : Bytes) :
    mencResult { s with ctxIv := v } = mencResult s := by
  have hrun : ∀ u : State, u.ctxMode = .ecb →
      modeEncrypt (modeE u) (modeDelta u) (blockSize u) u.ctxMode u.ctxIv (mencData u) =
        (ecbRun (modeE u) (blocks (blockSize u) (mencData u))).flatten := fun u hu => by rw [hu]; rfl
  rw [mencResult, mencResult, hrun s hm, hrun { s with ctxIv := v } hm]
  rfl

theorem mdecData_ecb {s : State} (hm : s.ctxMode = .ecb) :
    mdecData s = (ecbRun (modeD s) (blocks (blockSize s) (sourceBytes s))).flatten := by
  rw [mdecData, hm]
  rfl

theorem mdecResult_ecb {s : State} (hm : s.ctxMode = .ecb) (v : Bytes) :
    mdecResult { s with ctxIv := v } = mdecResult s := by
  rw [mdecResult, mdecResult, mdecData_ecb hm, mdecData_ecb (s := { s with ctxIv := v }) hm]
  rfl

section Operations

variable {s : State} {x : Hidden} (h : Hides s x)

include h

/-! ### Commits and errors -/

theorem sameOutcome_raise (e : ErrClass) : SameOutcome (.next (s.raise e)) (.next ((withHidden s x).raise e)) :=
  Hides.next (s := s.raise e) ⟨h.rk, h.mode, h.pad, h.iv⟩

theorem sameOutcome_commitBytes (out : Bytes) (n : Nat) :
    SameOutcome (.next (s.commitBytes out n)) (.next ((withHidden s x).commitBytes out n)) :=
  Hides.next (s := s.commitBytes out n) ⟨h.rk, h.mode, h.pad, h.iv⟩

/-- The new keys replace whatever was hidden. -/
theorem sameOutcome_commitKeys (keys : List Bytes) :
    SameOutcome (.next (s.commitKeys keys)) (.next ((withHidden s x).commitKeys keys)) :=
  Hides.next (s := s.commitKeys keys) (x := { x with rk := keys }) ⟨fun _ => rfl, h.mode, h.pad, h.iv⟩

/-- The new context replaces whatever was hidden, but for `ctx.IV` under ECB, which stays and is hidden. -/
theorem sameOutcome_commitContext (m : Mode) (p : PadScheme) (v : Bytes) :
    SameOutcome (.next (s.commitContext m p v)) (.next ((withHidden s x).commitContext m p v)) :=
  Hides.next (s := s.commitContext m p v) (x := ⟨x.rk, m, p, if m = .ecb then x.ctxIv else v⟩)
    ⟨h.rk, fun _ => rfl, fun _ => rfl, fun _ hm => (if_neg hm).trans (if_neg hm).symm⟩

/-- Commands that have the same result, and draw the same free bytes for it if it is no error, end alike. -/
theorem sameOutcome_complete {n n' : Nat} {r r' : Except ErrClass Bytes} (hr : r' = r)
    (hn : ∀ out, r = .ok out → n' = n) : SameOutcome (complete s n r) (complete (withHidden s x) n' r') := by
  subst hr
  cases r' with
  | ok out =>
    rw [hn out rfl]
    exact sameOutcome_commitBytes h out n
  | error e => exact sameOutcome_raise h e

/-- With a key and a context, all but `ctx.IV` under ECB shows. -/
theorem withHidden_of_ready (hi : s.init = true) (hc : s.ctxv = true) :
    withHidden s x = s ∨ (s.ctxMode = .ecb ∧ withHidden s x = { s with ctxIv := x.ctxIv }) := by
  have hall : withHidden s x = { s with ctxIv := x.ctxIv } := by
    rw [withHidden, h.rk hi, h.mode hc, h.pad hc]
  by_cases hm : s.ctxMode = .ecb
  · exact .inr ⟨hm, hall⟩
  · rw [hall, h.iv hc hm]
    exact .inl rfl

theorem mencResult_withHidden : mencResult (withHidden s x) = mencResult s := by
  by_cases hc : s.ctxv = true
  · by_cases hi : s.init = true
    · rcases withHidden_of_ready h hi hc with hs | ⟨hm, hs⟩
      · rw [hs]
      · rw [hs, mencResult_ecb hm]
    · have hlen : mencLength (withHidden s x) = mencLength s := by
        simp only [mencLength, mencPadLen, withHidden, h.mode hc, h.pad hc]
        rfl
      have hi' : s.init = false := by simpa using hi
      rw [mencResult_of_no_key hi', mencResult_of_no_key (s := withHidden s x) hi', hlen]
      rfl
  · have hc' : s.ctxv = false := by simpa using hc
    rw [mencResult_of_no_context hc', mencResult_of_no_context (s := withHidden s x) hc']
    rfl

theorem mdecResult_withHidden : mdecResult (withHidden s x) = mdecResult s := by
  by_cases hc : s.ctxv = true
  · by_cases hi : s.init = true
    · rcases withHidden_of_ready h hi hc with hs | ⟨hm, hs⟩
      · rw [hs]
      · rw [hs, mdecResult_ecb hm]
    · have hmode : (withHidden s x).ctxMode = s.ctxMode := h.mode hc
      have hi' : s.init = false := by simpa using hi
      rw [mdecResult_of_no_key hi', mdecResult_of_no_key (s := withHidden s x) hi', hmode]
      rfl
  · have hc' : s.ctxv = false := by simpa using hc
    rw [mdecResult_of_no_context hc', mdecResult_of_no_context (s := withHidden s x) hc']
    rfl

/-- A `MENC` that draws fill bytes has a context, so its mode and scheme show. -/
theorem mencDraws_withHidden (out : Bytes) (ho : mencResult s = .ok out) :
    mencDraws (withHidden s x) = mencDraws s := by
  obtain ⟨-, -, hc, -⟩ := mencResult_ok.1 ho
  simp only [mencDraws, withHidden, h.mode hc, h.pad hc]
  rfl

/-! ### Commands -/

theorem sameOutcome_execPermute (ord : BitOrder) (org : Origin) (tsrc : BitVec 3) :
    SameOutcome (execPermute ord org tsrc s) (execPermute ord org tsrc (withHidden s x)) := by
  have hr : permuteResult ord org tsrc (withHidden s x) = permuteResult ord org tsrc s := rfl
  cases hres : permuteResult ord org tsrc s with
  | error e =>
    simp only [execPermute, hr, hres]
    exact sameOutcome_raise h e
  | ok out =>
    have hz : permuteHazard tsrc (withHidden s x) out.length = permuteHazard tsrc s out.length := rfl
    simp only [execPermute, hr, hres, hz]
    split
    · exact sameOutcome_commitBytes h _ _
    · exact sameOutcome_commitBytes h out 0

theorem sameOutcome_execKeyinit : SameOutcome (execKeyinit s) (execKeyinit (withHidden s x)) := by
  have hr : keyinitResult (withHidden s x) = keyinitResult s := rfl
  simp only [execKeyinit, hr]
  split
  · exact sameOutcome_commitKeys h _
  · exact sameOutcome_raise h _

theorem sameOutcome_execCtxset (f : BitVec 3) (p : PadScheme) :
    SameOutcome (execCtxset f p s) (execCtxset f p (withHidden s x)) := by
  unfold execCtxset
  split
  · exact sameOutcome_raise h _
  · rename_i m _
    by_cases hm : m ≠ .ecb ∧ s.ivLen.toNat ≠ blockSize s
    · rw [if_pos hm, if_pos (show m ≠ .ecb ∧ (withHidden s x).ivLen.toNat ≠ blockSize (withHidden s x) from hm)]
      exact sameOutcome_raise h _
    · rw [if_neg hm, if_neg (show ¬ (m ≠ .ecb ∧ (withHidden s x).ivLen.toNat ≠ blockSize (withHidden s x)) from hm)]
      exact sameOutcome_commitContext h m p (ivOperand s)

theorem sameOutcome_exec (i : Instr) : SameOutcome (exec i s) (exec i (withHidden s x)) := by
  cases i with
  | permute ord org tsrc => exact sameOutcome_execPermute h ord org tsrc
  | ksgen k => exact sameOutcome_complete h rfl fun _ _ => rfl
  | rfn f => exact sameOutcome_complete h rfl fun _ _ => rfl
  | keyinit => exact sameOutcome_execKeyinit h
  | encb =>
    exact sameOutcome_complete h
      (blockResult_withHidden fun hi => congrArg (cipherEncrypt s.par.rom s.cipher) (h.rk hi)) fun _ _ => rfl
  | decb =>
    exact sameOutcome_complete h
      (blockResult_withHidden fun hi => congrArg (cipherDecrypt s.par.rom s.cipher) (h.rk hi)) fun _ _ => rfl
  | ctxset f p => exact sameOutcome_execCtxset h f p
  | menc => exact sameOutcome_complete h (mencResult_withHidden h) (mencDraws_withHidden h)
  | mdec => exact sameOutcome_complete h (mdecResult_withHidden h) fun _ _ => rfl
  | pad p => exact sameOutcome_complete h rfl fun _ _ => rfl
  | unpad p => exact sameOutcome_complete h rfl fun _ _ => rfl

/-! ### The host port -/

theorem sameOutcome_issue (w : Word) : SameOutcome (issue w s) (issue w (withHidden s x)) := by
  have hb : Hides (s.beginCommand w) x := ⟨h.rk, h.mode, h.pad, h.iv⟩
  unfold issue
  split
  · exact (sameOutcome_raise hb .illegalCommand).endOutcome
  · exact (sameOutcome_exec hb _).endOutcome

/-- A change of the cipher hides both the keys and the context (10_state.md R37). -/
theorem publicView_writeCfg (v : Word) : publicView (s.writeCfg v) = publicView ((withHidden s x).writeCfg v) := by
  have hsel : ∀ c, publicView (s.selectCipher c) = publicView ((withHidden s x).selectCipher c) := by
    intro c
    by_cases hc : s.cipher = c
    · rw [State.selectCipher_same s hc, State.selectCipher_same (withHidden s x) hc]
      exact h.publicView_eq
    · rw [State.selectCipher_change s hc, State.selectCipher_change (withHidden s x) hc]
      rfl
  unfold State.writeCfg
  split
  · exact hsel .base
  · split
    · exact hsel .compound
    · exact h.publicView_eq

theorem sameOutcome_writeCsr (v : Word) (c : Csr) :
    SameOutcome (writeCsr v s c) (writeCsr v (withHidden s x) c) := by
  cases c with
  | cmd => exact sameOutcome_issue h v
  | cfg => exact .next (publicView_writeCfg h v)
  | _ => exact Hides.next ⟨h.rk, h.mode, h.pad, h.iv⟩

/-- `STATUS` shows mode and scheme of the context only while `CTXV = 1` (10_state.md R43). -/
theorem readCsr_withHidden (c : Csr) : readCsr (withHidden s x) c = readCsr s c := by
  cases c with
  | status =>
    have hmode : ctxModeField (withHidden s x) = ctxModeField s := by
      by_cases hc : s.ctxv = true
      · simp [ctxModeField, withHidden, h.mode hc]
      · simp [ctxModeField, withHidden, hc]
    have hpad : ctxPadField (withHidden s x) = ctxPadField s := by
      by_cases hc : s.ctxv = true
      · simp [ctxPadField, withHidden, h.pad hc]
      · simp [ctxPadField, withHidden, hc]
    rw [readCsr, readCsr, statusWord, statusWord, hmode, hpad]
    rfl
  | _ => rfl

theorem sameOutcome_hostAccess (op : HostOp) : SameOutcome (hostAccess op s) (hostAccess op (withHidden s x)) := by
  cases op with
  | csrRead off size =>
    simp only [hostAccess, readCsr_withHidden h]
    split
    · exact Hides.next (s := s.reply _) ⟨h.rk, h.mode, h.pad, h.iv⟩
    · exact .refused _
  | csrWrite off size v =>
    simp only [hostAccess]
    split
    · exact sameOutcome_writeCsr h v _
    · exact .refused _
  | dmemRead a w =>
    have hr : inRange (withHidden s x) a w = inRange s a w := rfl
    simp only [hostAccess, hr]
    split
    · exact Hides.next (s := s.reply _) ⟨h.rk, h.mode, h.pad, h.iv⟩
    · exact .fault _
  | dmemWrite a w v =>
    have hr : inRange (withHidden s x) a w = inRange s a w := rfl
    simp only [hostAccess, hr]
    split
    · exact Hides.next (s := { s with dmem := s.dmem.writeBytes a (bebytes v w) }) ⟨h.rk, h.mode, h.pad, h.iv⟩
    · exact .fault _
  | reset d => exact .next rfl

theorem sameOutcome_step : SameOutcome (step s) (step (withHidden s x)) := by
  cases hq : s.hostq with
  | nil =>
    rw [HostPort.step_of_idle hq, HostPort.step_of_idle (s := withHidden s x) hq]
    exact h.next
  | cons op rest =>
    rw [HostPort.step_of_pending hq, HostPort.step_of_pending (s := withHidden s x) hq]
    exact sameOutcome_hostAccess (s := s.popHost rest) ⟨h.rk, h.mode, h.pad, h.iv⟩ op

end Operations

/-- Settles O58: the second state is the first with other hidden contents, and a step makes the same of both. -/
theorem staleKeysAndContextAreUnobservable : Obligations.StaleKeysAndContextAreUnobservable := by
  intro s t hst
  obtain ⟨x, hx, rfl⟩ := exists_hidden_of_publicView_eq hst
  exact (sameOutcome_step hx).clauses

end Sys2Proof.View

/-! PROOFS of the family 20_memory.md, bytes: the big-endian bytes of a number, and the bytes of the KEY and IV registers
(20_memory.md R88, R89; 00_scope.md R11). -/

namespace Sys2Proof.BigEndian

open Sys2Proof Sys2Proof.Machine

/-! ### Numbers as bytes -/

theorem getElem?_bebytes (v : Nat) {n i : Nat} (h : i < n) :
    (bebytes v n)[i]? = some (BitVec.ofNat 8 (v / 2 ^ (8 * (n - 1 - i)))) := by
  simp [bebytes, h, Nat.shiftRight_eq_div_pow]

theorem be_concat (x : Bytes) (b : Byte) : be (x ++ [b]) = be x * 256 + b.toNat := by simp [be]

/-- The last byte of a number is its low byte, and the bytes before it are those of the number without it. -/
theorem bebytes_succ (v n : Nat) : bebytes v (n + 1) = bebytes (v / 256) n ++ [BitVec.ofNat 8 v] := by
  have hshift : ∀ i ∈ List.range n,
      BitVec.ofNat 8 (v >>> (8 * (n + 1 - 1 - i))) = BitVec.ofNat 8 ((v / 256) >>> (8 * (n - 1 - i))) := by
    intro i hi
    have hi := List.mem_range.1 hi
    rw [show 8 * (n + 1 - 1 - i) = 8 + 8 * (n - 1 - i) by omega, Nat.shiftRight_add,
      Nat.shiftRight_eq_div_pow v 8]
  rw [bebytes, List.range_succ, List.map_append, List.map_congr_left hshift]
  simp [bebytes]

/-- The `n` bytes of a number read back as its low `8 n` bits. -/
theorem be_bebytes (v n : Nat) : be (bebytes v n) = v % 2 ^ (8 * n) := by
  induction n generalizing v with
  | zero => simp [bebytes, be, Nat.mod_one]
  | succ n ih =>
    rw [bebytes_succ, be_concat, ih, BitVec.toNat_ofNat, show 2 ^ (8 * (n + 1)) = 256 * 2 ^ (8 * n) by ring,
      Nat.mod_mul]
    omega

/-! ### Registers as bytes (R88) -/

/-- Byte `i` of a 32-bit register, counted from bits [31:24]. -/
theorem getElem?_bebytes_word (w : Word) {i : Nat} (h : i < 4) :
    (bebytes w.toNat 4)[i]? = some (w.extractLsb' (24 - 8 * i) 8) := by
  rw [getElem?_bebytes _ h, show 8 * (4 - 1 - i) = 24 - 8 * i by omega, BitVec.extractLsb', Nat.shiftRight_eq_div_pow]

/-- Four bytes a register, the registers in order. -/
theorem getElem?_registerBytes {ws : List Word} {k i : Nat} (hk : k < ws.length) (hi : i < 4) :
    (registerBytes ws)[4 * k + i]? = some (ws[k].extractLsb' (24 - 8 * i) 8) := by
  induction ws generalizing k with
  | nil => simp at hk
  | cons w ws ih =>
    have hcons : registerBytes (w :: ws) = bebytes w.toNat 4 ++ registerBytes ws := List.flatMap_cons
    rw [hcons]
    cases k with
    | zero => rw [List.getElem?_append_left (by simpa using hi)]; simpa using getElem?_bebytes_word w hi
    | succ k =>
      have hindex : 4 * (k + 1) + i - (bebytes w.toNat 4).length = 4 * k + i := by simp; omega
      rw [List.getElem?_append_right (by simp; omega), hindex]
      exact ih (by simpa using hk)

theorem getElem?_keyBytes (s : State) (w : Fin 8) {i : Nat} (hi : i < 4) :
    (registerBytes s.key.toList)[4 * w.val + i]? = some ((s.key[w.val]).extractLsb' (24 - 8 * i) 8) := by
  simpa using getElem?_registerBytes (ws := s.key.toList) (k := w.val) (by simp) hi

theorem getElem?_ivBytes (s : State) (w : Fin 4) {i : Nat} (hi : i < 4) :
    (registerBytes s.iv.toList)[4 * w.val + i]? = some ((s.iv[w.val]).extractLsb' (24 - 8 * i) 8) := by
  simpa using getElem?_registerBytes (ws := s.iv.toList) (k := w.val) (by simp) hi

/-- Settles O11: the operands are the first bytes of the registers, and those are the registers' bytes in order. -/
theorem keyAndIvBytesAreBigEndian : Obligations.KeyAndIvBytesAreBigEndian := by
  intro s i hi
  refine ⟨fun w => getElem?_keyBytes s w hi, fun w => getElem?_ivBytes s w hi,
    fun hlen => ⟨length_keyOperand hlen, fun w hw => ?_⟩, length_ivOperand s, fun w hw => ?_⟩
  · rw [keyOperand, List.getElem?_take_of_lt hw]
    exact getElem?_keyBytes s w hi
  · rw [ivOperand, List.getElem?_take_of_lt hw]
    exact getElem?_ivBytes s w hi

end Sys2Proof.BigEndian

/-! PROOFS of the family 20_memory.md, the host's accesses: DMEM (R81, R89), the order of service and what no access changes
(R95, R96), and that no command and no legal access stops the engine (R99). -/

namespace Sys2Proof.HostAccess

open Sys2Proof Sys2Proof.Machine

/-! ### DMEM accesses -/

theorem inRange_iff {s : State} {a n : Nat} : inRange s a n = true ↔ a + n ≤ s.par.dmemSize := by simp [inRange]

theorem hostAccess_dmemWrite {s : State} {a w : Nat} (h : a + w ≤ s.par.dmemSize) (v : Nat) :
    hostAccess (.dmemWrite a w v) s = .next { s with dmem := s.dmem.writeBytes a (bebytes v w) } :=
  if_pos (inRange_iff.2 h)

theorem hostAccess_dmemRead {s : State} {a w v : Nat} (h : a + w ≤ s.par.dmemSize)
    (hv : be (s.dmem.readBytes a w) = v) : hostAccess (.dmemRead a w) s = .next (s.reply (.dmem a w v)) := by
  rw [← hv]
  exact if_pos (inRange_iff.2 h)

/-- A number stored big-endian is read back, cut to the width of the access. -/
theorem be_readBytes_writeBytes {m : Memory} (hm : m.wf) (a w v : Nat) :
    be ((m.writeBytes a (bebytes v w)).readBytes a w) = v % 2 ^ (8 * w) := by
  have hread := Memory.readBytes_writeBytes hm a (bebytes v w)
  rw [length_bebytes] at hread
  rw [hread, BigEndian.be_bebytes]

/-- Byte `k` of a number stored big-endian. -/
theorem read_writeBytes_bebytes {m : Memory} (hm : m.wf) (a v : Nat) {w k : Nat} (hk : k < w) :
    (m.writeBytes a (bebytes v w)).read (a + k) = BitVec.ofNat 8 (v / 2 ^ (8 * (w - 1 - k))) := by
  rw [Memory.read_writeBytes hm, if_pos (by simpa using hk), Nat.add_sub_cancel_left, List.getD_eq_getElem?_getD,
    BigEndian.getElem?_bebytes v hk, Option.getD_some]

/-- Settles O13: the write stores `bebytes` of the value, whose bytes are read back one by one and as a number; outside DMEM
neither access passes the range check. -/
theorem hostDmemReadAfterWrite : Obligations.HostDmemReadAfterWrite := by
  refine ⟨fun s a w v hm hr => ?_, fun s a w v hout => ?_⟩
  · exact ⟨_, hostAccess_dmemWrite hr v, rfl, Memory.wf_writeBytes hm _ _, fun k => read_writeBytes_bebytes hm a v,
      fun x hx => Memory.read_writeBytes_outside hm (by simpa using hx),
      hostAccess_dmemRead hr (be_readBytes_writeBytes hm a w v)⟩
  · have hno : ¬ inRange s a w = true := fun h => absurd (inRange_iff.1 h) (by omega)
    exact ⟨if_neg hno, if_neg hno⟩

/-! ### Commands -/

/-- `t` differs from `s` in what commands produce only: keys, context, DMEM, and how the command ended. -/
def ResultsOnly (s t : State) : Prop :=
  t = { s with
    init := t.init, ctxv := t.ctxv, errcode := t.errcode, outLen := t.outLen, rk := t.rk, ctxMode := t.ctxMode
    ctxPad := t.ctxPad, ctxIv := t.ctxIv, dmem := t.dmem, draws := t.draws }

theorem exec_resultsOnly {i : Instr} {s t : State} (h : exec i s = .next t) : ResultsOnly s t := by
  rcases exec_cases h with ⟨e, rfl⟩ | ⟨out, n, -, rfl⟩ | ⟨keys, -, -, rfl⟩ | ⟨f, m, p, -, -, -, rfl⟩
  · rfl
  · rfl
  · rfl
  · rfl

/-- A write to `CMD` leaves the word there and `BUSY` 0, and beside them changes only results (R410). -/
theorem issue_resultsOnly {w : Word} {s t : State} (h : issue w s = .next t) :
    ResultsOnly { s with cmd := w, busy := false } t := by
  rcases issue_cases h with ⟨-, -, rfl⟩ | ⟨i, u, -, hu, rfl⟩
  · rfl
  · have hres := exec_resultsOnly hu
    unfold ResultsOnly at hres
    rw [hres]
    rfl

/-- Settles O16: every word ends (`issue_next`), and what it changes are results only. -/
theorem everyCommandWordEnds : Obligations.EveryCommandWordEnds := by
  intro w s
  obtain ⟨t, ht⟩ := issue_next w s
  refine ⟨t, ht, ?_⟩
  rw [issue_resultsOnly ht]
  exact ⟨rfl, rfl, rfl, rfl, rfl, rfl, rfl, rfl, rfl, rfl, rfl, rfl, rfl, rfl, rfl, rfl⟩

/-! ### What no access changes -/

/-- What holds of the state after any access: the pending accesses and the parameters stay, and at most one value is
returned (R95, R96; 41_tables_rom.md R199). -/
structure Served (s t : State) : Prop where
  /-- The accesses still pending are as they were. -/
  hostq : t.hostq = s.hostq
  /-- The parameters, the ROM among them, are as they were. -/
  par : t.par = s.par
  /-- At most one value is returned, behind those returned before. -/
  replies : ∃ l : List HostReply, l.length ≤ 1 ∧ t.replies = s.replies ++ l

theorem Served.of_no_reply {s t : State} (hq : t.hostq = s.hostq) (hp : t.par = s.par) (hr : t.replies = s.replies) :
    Served s t := ⟨hq, hp, [], Nat.zero_le 1, by rw [hr, List.append_nil]⟩

theorem served_writeCfg (s : State) (v : Word) : Served s (s.writeCfg v) := by
  rcases State.writeCfg_cases s v with h | ⟨c, h⟩ <;> rw [h]
  · exact .of_no_reply rfl rfl rfl
  · exact .of_no_reply (s.selectCipher_hostq c) (s.selectCipher_par c) (s.selectCipher_replies c)

theorem served_writeCsr {v : Word} {s t : State} {c : Csr} (h : writeCsr v s c = .next t) : Served s t := by
  rcases HostPort.writeCsr_cases h with ⟨-, hi⟩ | ⟨-, rfl⟩ | hops
  · rw [issue_resultsOnly hi]
    exact .of_no_reply rfl rfl rfl
  · exact served_writeCfg s v
  · rw [hops]
    exact .of_no_reply rfl rfl rfl

theorem served_hostAccess {op : HostOp} {s t : State} (h : hostAccess op s = .next t) : Served s t := by
  rcases hostAccess_cases h with ⟨r, rfl⟩ | ⟨off, size, v, -, -, hw⟩ | ⟨a, w, v, -, -, rfl⟩ | ⟨d, -, rfl⟩
  · exact ⟨rfl, rfl, [r], le_rfl, rfl⟩
  · exact served_writeCsr hw
  · exact .of_no_reply rfl rfl rfl
  · exact .of_no_reply rfl rfl rfl

/-- Settles O7: the step is the access at the head of the queue, and no access touches the rest of the queue. -/
theorem stepServesAccessesInOrder : Obligations.StepServesAccessesInOrder := by
  intro s op rest hq
  have hstep : step s = hostAccess op (s.popHost rest) := HostPort.step_of_pending hq
  refine ⟨hstep, fun t ht => ?_⟩
  rw [hstep] at ht
  have hserved := served_hostAccess ht
  exact ⟨ht, hserved.hostq, hserved.par, hserved.replies⟩

/-! ### A legal host -/

/-- An access the spec defines ends in a next state. -/
theorem hostAccess_next {op : HostOp} {s : State} (h : hostOpLegal s.par op = true) :
    ∃ t, hostAccess op s = .next t := by
  cases op with
  | csrRead off size => exact ⟨_, if_pos h⟩
  | csrWrite off size v =>
    obtain ⟨t, ht⟩ := writeCsr_next v s (csrAt (off / 4))
    exact ⟨t, (if_pos h).trans ht⟩
  | dmemRead a w => exact ⟨_, hostAccess_dmemRead (of_decide_eq_true h) rfl⟩
  | dmemWrite a w v => exact ⟨_, hostAccess_dmemWrite (of_decide_eq_true h) v⟩
  | reset d => exact ⟨_, rfl⟩

/-- Settles O57: an idle engine stays as it is; else the oldest access is legal and served, and the rest of the queue and the
parameters that say what is legal do not change. -/
theorem legalHostNeverStops : Obligations.LegalHostNeverStops := by
  intro s hs
  cases hq : s.hostq with
  | nil => exact ⟨s, HostPort.step_of_idle hq, hs⟩
  | cons op rest =>
    have hlegal : ∀ o ∈ op :: rest, hostOpLegal s.par o = true := hq ▸ hs
    obtain ⟨t, ht⟩ := hostAccess_next (s := s.popHost rest) (hlegal op List.mem_cons_self)
    have hserved := served_hostAccess ht
    refine ⟨t, (HostPort.step_of_pending hq).trans ht, fun o ho => ?_⟩
    rw [hserved.hostq] at ho
    rw [hserved.par]
    exact hlegal o (List.mem_cons_of_mem op ho)

end Sys2Proof.HostAccess

/-! PROOFS of the family 20_memory.md, several engines: a step of one does not touch the others (R97; 60_exceptions.md
R432). -/

namespace Sys2Proof.Engines

open Sys2Proof Sys2Proof.Machine

/-- Everything a step of engine `k` can do: nothing where there is no engine `k`, else put its next state in its place. -/
theorem platformStep_next_iff {k : Nat} {p q : Platform} :
    platformStep k p = .next q ↔
      (p[k]? = none ∧ q = p) ∨ ∃ s t, p[k]? = some s ∧ step s = .next t ∧ q = p.set k t := by
  unfold platformStep
  cases p[k]? with
  | none => simp [eq_comm]
  | some s => cases hs : step s <;> simp [hs, eq_comm]

theorem platformStep_length {k : Nat} {p q : Platform} (h : platformStep k p = .next q) : q.length = p.length := by
  rcases platformStep_next_iff.1 h with ⟨-, rfl⟩ | ⟨s, t, -, -, rfl⟩
  · rfl
  · exact List.length_set

/-- The other engines are as they were. -/
theorem platformStep_other {j k : Nat} (hjk : j ≠ k) {p q : Platform} (h : platformStep j p = .next q) :
    q[k]? = p[k]? := by
  rcases platformStep_next_iff.1 h with ⟨-, rfl⟩ | ⟨s, t, -, -, rfl⟩
  · rfl
  · exact List.getElem?_set_ne hjk

/-- A step of engine `k` is the same whatever state another engine is in. -/
theorem platformStep_set {j k : Nat} (hjk : j ≠ k) {p r : Platform} (t : State) (h : platformStep k p = .next r) :
    platformStep k (p.set j t) = .next (r.set j t) := by
  have hk : (p.set j t)[k]? = p[k]? := List.getElem?_set_ne hjk
  rcases platformStep_next_iff.1 h with ⟨hnone, rfl⟩ | ⟨s, u, hs, hu, rfl⟩
  · exact platformStep_next_iff.2 (.inl ⟨hk.trans hnone, rfl⟩)
  · exact platformStep_next_iff.2 (.inr ⟨s, u, hk.trans hs, hu, List.set_comm u t hjk.symm⟩)

/-- Settles O60: both orders end in the platform with both engines' next states in place. -/
theorem enginesDoNotInteract : Obligations.EnginesDoNotInteract := by
  intro p q r j k hjk hq hr
  refine ⟨platformStep_length hq, platformStep_other hjk hq, ?_⟩
  have hj : r[j]? = p[j]? := platformStep_other hjk.symm hr
  rcases platformStep_next_iff.1 hq with ⟨hnone, rfl⟩ | ⟨s, t, hs, ht, rfl⟩
  · exact ⟨r, hr, platformStep_next_iff.2 (.inl ⟨hj.trans hnone, rfl⟩)⟩
  · exact ⟨r.set j t, platformStep_set hjk t hr, platformStep_next_iff.2 (.inr ⟨s, t, hj.trans hs, ht, rfl⟩)⟩

end Sys2Proof.Engines

/-! PROOFS of the family 30_encoding.md, command words: a word and its fields, the arms of the decoder, and the reserved
bits (30_encoding.md R110, R111, R126, R127, R134). -/

namespace Sys2Proof.Encoding
open Sys2Proof Sys2Proof.Machine

/-! ### Adjacent fields of a word -/

section Fields

variable {n a b : Nat} (x : BitVec n) (k : Nat)

/-- A field read as two adjacent fields, the high one first. -/
theorem extractLsb'_eq_append : x.extractLsb' k (a + b) = x.extractLsb' (k + b) a ++ x.extractLsb' k b :=
  (BitVec.extractLsb'_append_extractLsb'_eq_extractLsb' rfl).symm

theorem extractLsb'_eq_append_iff (u : BitVec a) (v : BitVec b) :
    x.extractLsb' k (a + b) = u ++ v ↔ x.extractLsb' (k + b) a = u ∧ x.extractLsb' k b = v := by
  rw [extractLsb'_eq_append]
  constructor
  · intro h
    have hhigh := congrArg (BitVec.extractLsb' b a) h
    have hlow := congrArg (BitVec.extractLsb' 0 b) h
    rw [BitVec.extractLsb'_append_eq_left, BitVec.extractLsb'_append_eq_left] at hhigh
    rw [BitVec.extractLsb'_append_eq_right, BitVec.extractLsb'_append_eq_right] at hlow
    exact ⟨hhigh, hlow⟩
  · rintro ⟨rfl, rfl⟩
    rfl

/-- A mask over a field is a mask over each of its parts. -/
theorem extractLsb'_and_append_eq_zero_iff (u : BitVec a) (v : BitVec b) :
    x.extractLsb' k (a + b) &&& (u ++ v) = 0#(a + b) ↔
      x.extractLsb' (k + b) a &&& u = 0#a ∧ x.extractLsb' k b &&& v = 0#b := by
  have hfull := extractLsb'_eq_append_iff ((x.extractLsb' (k + b) a &&& u) ++ (x.extractLsb' k b &&& v)) 0 0#a 0#b
  rw [Nat.zero_add, BitVec.extractLsb'_append_eq_left, BitVec.extractLsb'_append_eq_right,
    BitVec.extractLsb'_eq_self, BitVec.zero_append_zero] at hfull
  rwa [extractLsb'_eq_append, BitVec.and_append]

/-- A field of one bit. -/
theorem extractLsb'_one_eq_ofBool_iff (c : Bool) : x.extractLsb' k 1 = BitVec.ofBool c ↔ x.getLsbD k = c := by
  simp [BitVec.eq_of_getLsbD_eq_iff]

theorem extractLsb'_one_eq_zero_iff : x.extractLsb' k 1 = 0#1 ↔ x.getLsbD k = false :=
  extractLsb'_one_eq_ofBool_iff x k false

end Fields

/-! ### A word and its fields (30_encoding.md R110) -/

/-- A word is the word of a command exactly when its three fields are: the fields cover all 32 bits. -/
theorem encode_eq_iff {i : Instr} {w : Word} :
    encode i = w ↔ rsvField w = 0#16 ∧ fnField w = i.fn ∧ opField w = i.opcode := by
  have hw : w.extractLsb' 0 (16 + 8 + 8) = w := BitVec.extractLsb'_eq_self
  calc encode i = w ↔ w.extractLsb' 0 (16 + 8 + 8) = 0#16 ++ i.fn ++ i.opcode := by rw [hw, eq_comm, encode]
    _ ↔ (rsvField w = 0#16 ∧ fnField w = i.fn) ∧ opField w = i.opcode := by
      rw [extractLsb'_eq_append_iff, extractLsb'_eq_append_iff]; rfl
    _ ↔ _ := and_assoc

/-! ### `FN` as its subfields (30_encoding.md R111) -/

theorem fnField_eq_permute_iff {w : Word} {t : BitVec 3} {g d : Bool} :
    fnField w = 0#1 ++ t ++ 0#2 ++ BitVec.ofBool g ++ BitVec.ofBool d ↔
      w.getLsbD 15 = false ∧ w.extractLsb' 12 3 = t ∧ w.getLsbD 11 = false ∧ w.getLsbD 10 = false ∧
        w.getLsbD 9 = g ∧ w.getLsbD 8 = d := by
  change w.extractLsb' 8 (1 + 3 + (1 + 1) + 1 + 1) =
    BitVec.ofBool false ++ t ++ (BitVec.ofBool false ++ BitVec.ofBool false) ++ BitVec.ofBool g ++ BitVec.ofBool d ↔ _
  simp only [extractLsb'_eq_append_iff, extractLsb'_one_eq_ofBool_iff, and_assoc]

theorem fnField_eq_selector_iff {w : Word} {c : Bool} :
    fnField w = 0#7 ++ BitVec.ofBool c ↔ w.extractLsb' 9 7 = 0#7 ∧ w.getLsbD 8 = c := by
  change w.extractLsb' 8 (7 + 1) = _ ↔ _
  rw [extractLsb'_eq_append_iff, extractLsb'_one_eq_ofBool_iff]

theorem fnField_eq_ctxset_iff {w : Word} {p : BitVec 2} {m : BitVec 3} :
    fnField w = 0#2 ++ p ++ 0#1 ++ m ↔
      w.extractLsb' 14 2 = 0#2 ∧ w.extractLsb' 12 2 = p ∧ w.getLsbD 11 = false ∧ w.extractLsb' 8 3 = m := by
  change w.extractLsb' 8 (2 + 2 + 1 + 3) = 0#2 ++ p ++ BitVec.ofBool false ++ m ↔ _
  simp only [extractLsb'_eq_append_iff, extractLsb'_one_eq_ofBool_iff, and_assoc]

theorem fnField_eq_scheme_iff {w : Word} {p : BitVec 2} :
    fnField w = 0#2 ++ p ++ 0#4 ↔
      w.extractLsb' 14 2 = 0#2 ∧ w.extractLsb' 12 2 = p ∧ w.extractLsb' 8 4 = 0#4 := by
  change w.extractLsb' 8 (2 + 2 + 4) = _ ↔ _
  simp only [extractLsb'_eq_append_iff, and_assoc]

/-! ### `FN` under the masks of its reserved bits (30_encoding.md R111, R127) -/

theorem and_reservedMask_eq_zero_iff {w : Word} {m : BitVec 8} :
    w &&& (0xFFFF#16 ++ m ++ 0#8) = 0#32 ↔ rsvField w = 0#16 ∧ fnField w &&& m = 0#8 := by
  have hw : w.extractLsb' 0 (16 + 8 + 8) = w := BitVec.extractLsb'_eq_self
  have hrsv : rsvField w &&& 0xFFFF#16 = rsvField w := BitVec.and_allOnes
  have h := extractLsb'_and_append_eq_zero_iff (a := 16 + 8) (b := 8) w 0 (0xFFFF#16 ++ m) 0#8
  rw [hw, extractLsb'_and_append_eq_zero_iff, BitVec.and_zero, and_iff_left rfl] at h
  rw [← hrsv]
  exact h

theorem fnField_and_permuteMask_eq_zero_iff {w : Word} :
    fnField w &&& 0x8C#8 = 0#8 ↔ w.getLsbD 15 = false ∧ w.getLsbD 11 = false ∧ w.getLsbD 10 = false := by
  change w.extractLsb' 8 (1 + 3 + (1 + 1) + 2) &&&
    (BitVec.allOnes 1 ++ 0#3 ++ (BitVec.allOnes 1 ++ BitVec.allOnes 1) ++ 0#2) = 0#(1 + 3 + (1 + 1) + 2) ↔ _
  simp only [extractLsb'_and_append_eq_zero_iff, extractLsb'_one_eq_zero_iff, BitVec.and_allOnes,
    BitVec.and_zero, and_true]

theorem fnField_and_selectorMask_eq_zero_iff {w : Word} :
    fnField w &&& 0xFE#8 = 0#8 ↔ w.extractLsb' 9 7 = 0#7 := by
  change w.extractLsb' 8 (7 + 1) &&& (BitVec.allOnes 7 ++ 0#1) = 0#(7 + 1) ↔ _
  simp only [extractLsb'_and_append_eq_zero_iff, BitVec.and_allOnes, BitVec.and_zero, and_true]

theorem fnField_and_ctxsetMask_eq_zero_iff {w : Word} :
    fnField w &&& 0xC8#8 = 0#8 ↔ w.extractLsb' 14 2 = 0#2 ∧ w.getLsbD 11 = false := by
  change w.extractLsb' 8 (2 + 2 + 1 + 3) &&& (BitVec.allOnes 2 ++ 0#2 ++ BitVec.allOnes 1 ++ 0#3) =
    0#(2 + 2 + 1 + 3) ↔ _
  simp only [extractLsb'_and_append_eq_zero_iff, extractLsb'_one_eq_zero_iff, BitVec.and_allOnes, BitVec.and_zero,
    and_true]

theorem fnField_and_schemeMask_eq_zero_iff {w : Word} :
    fnField w &&& 0xCF#8 = 0#8 ↔ w.extractLsb' 14 2 = 0#2 ∧ w.extractLsb' 8 4 = 0#4 := by
  change w.extractLsb' 8 (2 + 2 + 4) &&& (BitVec.allOnes 2 ++ 0#2 ++ BitVec.allOnes 4) = 0#(2 + 2 + 4) ↔ _
  simp only [extractLsb'_and_append_eq_zero_iff, BitVec.and_allOnes, BitVec.and_zero, and_true]

/-! ### Field values (30_encoding.md R120 to R125) -/

@[simp] theorem BitOrder.ofField_field (o : BitOrder) : BitOrder.ofField o.field = o := by cases o <;> rfl
@[simp] theorem BitOrder.field_ofField (b : Bool) : (BitOrder.ofField b).field = b := by cases b <;> rfl
@[simp] theorem Origin.ofField_field (o : Origin) : Origin.ofField o.field = o := by cases o <;> rfl
@[simp] theorem Origin.field_ofField (b : Bool) : (Origin.ofField b).field = b := by cases b <;> rfl
@[simp] theorem Cipher.ofField_field (c : Cipher) : Cipher.ofField c.field = c := by cases c <;> rfl
@[simp] theorem Cipher.field_ofField (b : Bool) : (Cipher.ofField b).field = b := by cases b <;> rfl
@[simp] theorem RoundFn.ofField_field (f : RoundFn) : RoundFn.ofField f.field = f := by cases f <;> rfl
@[simp] theorem RoundFn.field_ofField (b : Bool) : (RoundFn.ofField b).field = b := by cases b <;> rfl
@[simp] theorem PadScheme.ofField_field (p : PadScheme) : PadScheme.ofField p.field = p := by cases p <;> rfl
@[simp] theorem PadScheme.field_ofField : ∀ v : BitVec 2, (PadScheme.ofField v).field = v := by decide

/-! ### The arms of the decoder -/

/-- `PERMUTE`: the decoder answers the one command whose `FN` the word holds. -/
theorem decodePermute_ok_iff {w : Word} {i : Instr} :
    decodePermute w = .ok i ↔
      ∃ ord org t, i = .permute ord org t ∧ t ≠ 7#3 ∧ fnField w = (Instr.permute ord org t).fn := by
  simp only [decodePermute, Instr.fn, fnField_eq_permute_iff]
  constructor
  · intro h
    split_ifs at h with hbits ht
    simp only [Bool.or_eq_true, not_or, Bool.not_eq_true] at hbits
    obtain ⟨⟨h15, h11⟩, h10⟩ := hbits
    cases h
    exact ⟨_, _, _, rfl, ht, h15, rfl, h11, h10, by simp, by simp⟩
  · rintro ⟨ord, org, t, rfl, ht, h15, rfl, h11, h10, h9, h8⟩
    simp [h15, h11, h10, h9, h8, ht, -BitVec.getLsbD_eq_getElem]

/-- A command whose `FN` is one selector bit. -/
theorem decodeSelector_ok_iff {w : Word} {f : Bool → Instr} {i : Instr} :
    decodeSelector w f = .ok i ↔ ∃ c, i = f c ∧ fnField w = 0#7 ++ BitVec.ofBool c := by
  simp only [decodeSelector, fnField_eq_selector_iff]
  split_ifs with h
  · simp [h]
  · simp [not_not.1 h, eq_comm]

theorem decodePlain_ok_iff {w : Word} {i j : Instr} : decodePlain w j = .ok i ↔ i = j ∧ fnField w = 0#8 := by
  unfold decodePlain
  split_ifs with h
  · simp [h]
  · simp [not_not.1 h, eq_comm]

/-- `CTXSET`: likewise. -/
theorem decodeCtxset_ok_iff {w : Word} {i : Instr} :
    decodeCtxset w = .ok i ↔ ∃ m p, i = .ctxset m p ∧ m ≠ 7#3 ∧ fnField w = (Instr.ctxset m p).fn := by
  simp only [decodeCtxset, Instr.fn, fnField_eq_ctxset_iff, padField]
  constructor
  · intro h
    split_ifs at h with hbits hm
    simp only [Bool.or_eq_true, decide_eq_true_eq, not_or, not_not, Bool.not_eq_true] at hbits
    cases h
    exact ⟨_, _, rfl, hm, hbits.1, by simp, hbits.2, rfl⟩
  · rintro ⟨m, p, rfl, hm, h14, h12, h11, rfl⟩
    simp [h14, h12, h11, hm, -BitVec.getLsbD_eq_getElem]

/-- A command whose `FN` is a padding scheme. -/
theorem decodeScheme_ok_iff {w : Word} {f : PadScheme → Instr} {i : Instr} :
    decodeScheme w f = .ok i ↔ ∃ p, i = f p ∧ fnField w = 0#2 ++ p.field ++ 0#4 := by
  simp only [decodeScheme, fnField_eq_scheme_iff, padField]
  constructor
  · intro h
    split_ifs at h with hbits
    simp only [Bool.or_eq_true, decide_eq_true_eq, not_or, not_not] at hbits
    cases h
    exact ⟨_, rfl, hbits.1, by simp, hbits.2⟩
  · rintro ⟨p, rfl, h14, h12, h8⟩
    simp [h14, h12, h8]

/-! ### The arm of a command -/

/-- The arm of the decoder that reads the words with the opcode of `i`. -/
def decodeArm (w : Word) : Instr → Except Illegal Instr
  | .permute _ _ _ => decodePermute w
  | .ksgen _ => decodeSelector w (fun c => .ksgen (.ofField c))
  | .rfn _ => decodeSelector w (fun c => .rfn (.ofField c))
  | .keyinit => decodePlain w .keyinit
  | .encb => decodePlain w .encb
  | .decb => decodePlain w .decb
  | .ctxset _ _ => decodeCtxset w
  | .menc => decodePlain w .menc
  | .mdec => decodePlain w .mdec
  | .pad _ => decodeScheme w .pad
  | .unpad _ => decodeScheme w .unpad

/-- A word without reserved bits in `RSV` goes to the arm of its opcode. -/
theorem decode_of_opcode {w : Word} {i : Instr} (hrsv : rsvField w = 0#16) (hop : opField w = i.opcode) :
    decode w = decodeArm w i := by
  rw [decode, hop, if_neg (not_not.2 hrsv)]
  cases i <;> rfl

/-- An opcode outside the map, compared with a number of the map. -/
theorem ne_of_forall_ne_opcode {o : BitVec 8} (h : ∀ i : Instr, o ≠ i.opcode) (i : Instr) (o' : BitVec 8)
    (hi : i.opcode = o') : o ≠ o' := hi ▸ h i

/-- Only a word with `RSV = 0` and an opcode of the map decodes. -/
theorem exists_opcode_of_decode {w : Word} {j : Instr} (h : decode w = .ok j) :
    rsvField w = 0#16 ∧ ∃ i : Instr, opField w = i.opcode := by
  rw [decode] at h
  by_cases hrsv : rsvField w = 0#16
  · refine ⟨hrsv, not_forall_not.1 fun hop => ?_⟩
    have hne := ne_of_forall_ne_opcode hop
    rw [if_neg (not_not.2 hrsv),
      if_neg (hne (.permute .msb .zero 0#3) 0x01#8 rfl), if_neg (hne (.ksgen .base) 0x02#8 rfl),
      if_neg (hne (.rfn .base) 0x03#8 rfl), if_neg (hne .keyinit 0x10#8 rfl),
      if_neg (hne .encb 0x11#8 rfl), if_neg (hne .decb 0x12#8 rfl),
      if_neg (hne (.ctxset 0#3 .zeros) 0x20#8 rfl), if_neg (hne .menc 0x21#8 rfl),
      if_neg (hne .mdec 0x22#8 rfl), if_neg (hne (.pad .zeros) 0x23#8 rfl),
      if_neg (hne (.unpad .zeros) 0x24#8 rfl)] at h
    cases h
  · rw [if_pos hrsv] at h
    cases h

/-- What an arm answers is well formed, has the arm's opcode, and has the `FN` of the word. -/
theorem wellFormed_of_decodeArm {w : Word} {i j : Instr} (h : decodeArm w i = .ok j) :
    WellFormed j = true ∧ fnField w = j.fn ∧ i.opcode = j.opcode := by
  cases i with
  | permute =>
    obtain ⟨ord, org, t, rfl, ht, hfn⟩ := decodePermute_ok_iff.1 h
    exact ⟨by simpa [WellFormed] using ht, hfn, rfl⟩
  | ctxset =>
    obtain ⟨m, p, rfl, hm, hfn⟩ := decodeCtxset_ok_iff.1 h
    exact ⟨by simpa [WellFormed] using hm, hfn, rfl⟩
  | ksgen =>
    rw [decodeArm, decodeSelector_ok_iff] at h
    obtain ⟨c, rfl, hfn⟩ := h
    exact ⟨rfl, by simpa [Instr.fn] using hfn, rfl⟩
  | rfn =>
    rw [decodeArm, decodeSelector_ok_iff] at h
    obtain ⟨c, rfl, hfn⟩ := h
    exact ⟨rfl, by simpa [Instr.fn] using hfn, rfl⟩
  | pad =>
    obtain ⟨p, rfl, hfn⟩ := decodeScheme_ok_iff.1 h
    exact ⟨rfl, hfn, rfl⟩
  | unpad =>
    obtain ⟨p, rfl, hfn⟩ := decodeScheme_ok_iff.1 h
    exact ⟨rfl, hfn, rfl⟩
  | _ =>
    obtain ⟨rfl, hfn⟩ := decodePlain_ok_iff.1 h
    exact ⟨rfl, hfn, rfl⟩

/-- The arm of a well-formed command answers it where the word holds its `FN`. -/
theorem decodeArm_self {w : Word} {i : Instr} (hwf : WellFormed i = true) (hfn : fnField w = i.fn) :
    decodeArm w i = .ok i := by
  cases i with
  | permute ord org t => exact decodePermute_ok_iff.2 ⟨ord, org, t, rfl, by simpa [WellFormed] using hwf, hfn⟩
  | ctxset m p => exact decodeCtxset_ok_iff.2 ⟨m, p, rfl, by simpa [WellFormed] using hwf, hfn⟩
  | ksgen c =>
    rw [decodeArm, decodeSelector_ok_iff]
    exact ⟨c.field, by simp, hfn⟩
  | rfn f =>
    rw [decodeArm, decodeSelector_ok_iff]
    exact ⟨f.field, by simp, hfn⟩
  | pad p => exact decodeScheme_ok_iff.2 ⟨p, rfl, hfn⟩
  | unpad p => exact decodeScheme_ok_iff.2 ⟨p, rfl, hfn⟩
  | _ => exact decodePlain_ok_iff.2 ⟨rfl, hfn⟩

/-! ### decode and encode -/

/-- The decoder and the encoder are inverse to one another: a word decodes to a command exactly when the command is well
formed and the word is its word. -/
theorem decode_ok_iff {w : Word} {i : Instr} : decode w = .ok i ↔ WellFormed i = true ∧ encode i = w := by
  rw [encode_eq_iff]
  constructor
  · intro h
    obtain ⟨hrsv, j, hop⟩ := exists_opcode_of_decode h
    rw [decode_of_opcode hrsv hop] at h
    obtain ⟨hwf, hfn, hopcode⟩ := wellFormed_of_decodeArm h
    exact ⟨hwf, hrsv, hfn, hop.trans hopcode⟩
  · rintro ⟨hwf, hrsv, hfn, hop⟩
    rw [decode_of_opcode hrsv hop]
    exact decodeArm_self hwf hfn

/-- Settles O1: the word of a well-formed command is a word that decodes to it. -/
theorem decodeInvertsEncode : Obligations.DecodeInvertsEncode :=
  fun _ hwf => decode_ok_iff.2 ⟨hwf, rfl⟩

/-- Settles O2: the other direction of the same equivalence. -/
theorem encodeInvertsDecode : Obligations.EncodeInvertsDecode :=
  fun _ _ h => decode_ok_iff.1 h

/-! ### Illegal words (30_encoding.md R127) -/

/-- The reserved bits of `FN` in the words with the opcode of `i`, the `0` cells of R111. -/
def fnMask : Instr → BitVec 8
  | .permute _ _ _ => 0x8C#8
  | .ksgen _ => 0xFE#8
  | .rfn _ => 0xFE#8
  | .keyinit => 0xFF#8
  | .encb => 0xFF#8
  | .decb => 0xFF#8
  | .ctxset _ _ => 0xC8#8
  | .menc => 0xFF#8
  | .mdec => 0xFF#8
  | .pad _ => 0xCF#8
  | .unpad _ => 0xCF#8

/-- The field of a word with the opcode of `i` that has a reserved value, `TSRC` or `MODE`, holds it. -/
def reservedValue (w : Word) : Instr → Prop
  | .permute _ _ _ => w.extractLsb' 12 3 = 7#3
  | .ctxset _ _ => w.extractLsb' 8 3 = 7#3
  | _ => False

/-- For an opcode of the map, `reservedMask` is `RSV` and the reserved bits of `FN`. -/
theorem reservedMask_opcode (i : Instr) : reservedMask i.opcode = some (0xFFFF#16 ++ fnMask i ++ 0#8) := by
  cases i <;> simp only [Instr.opcode, fnMask] <;> decide

theorem reservedMask_eq_none {o : BitVec 8} (h : ∀ i : Instr, o ≠ i.opcode) : reservedMask o = none := by
  have hne := ne_of_forall_ne_opcode h
  simp [reservedMask, hne (.permute .msb .zero 0#3) 0x01#8 rfl, hne (.ksgen .base) 0x02#8 rfl,
    hne (.rfn .base) 0x03#8 rfl, hne .keyinit 0x10#8 rfl, hne .encb 0x11#8 rfl, hne .decb 0x12#8 rfl,
    hne (.ctxset 0#3 .zeros) 0x20#8 rfl, hne .menc 0x21#8 rfl, hne .mdec 0x22#8 rfl, hne (.pad .zeros) 0x23#8 rfl,
    hne (.unpad .zeros) 0x24#8 rfl]

theorem illegalWord_iff_of_opcode {w : Word} {i : Instr} (hop : opField w = i.opcode) :
    illegalWord w ↔ ¬ (rsvField w = 0#16 ∧ fnField w &&& fnMask i = 0#8) ∨ reservedValue w i := by
  have hop' : w.extractLsb' 0 8 = i.opcode := hop
  rw [illegalWord, hop', reservedMask_opcode]
  simp only [ne_eq, and_reservedMask_eq_zero_iff]
  cases i <;> simp [Instr.opcode, reservedValue]

theorem exists_decodePermute_iff {w : Word} :
    (∃ i, decodePermute w = .ok i) ↔ fnField w &&& 0x8C#8 = 0#8 ∧ w.extractLsb' 12 3 ≠ 7#3 := by
  simp only [decodePermute_ok_iff, Instr.fn, fnField_eq_permute_iff, fnField_and_permuteMask_eq_zero_iff]
  constructor
  · rintro ⟨_, ord, org, t, rfl, ht, h15, rfl, h11, h10, -, -⟩
    exact ⟨⟨h15, h11, h10⟩, ht⟩
  · rintro ⟨⟨h15, h11, h10⟩, ht⟩
    exact ⟨_, .ofField (w.getLsbD 8), .ofField (w.getLsbD 9), _, rfl, ht, h15, rfl, h11, h10, by simp, by simp⟩

theorem exists_decodeSelector_iff {w : Word} {f : Bool → Instr} :
    (∃ i, decodeSelector w f = .ok i) ↔ fnField w &&& 0xFE#8 = 0#8 := by
  simp only [decodeSelector_ok_iff, fnField_eq_selector_iff, fnField_and_selectorMask_eq_zero_iff]
  exact ⟨fun ⟨_, _, _, h, _⟩ => h, fun h => ⟨_, _, rfl, h, rfl⟩⟩

theorem exists_decodePlain_iff {w : Word} {j : Instr} :
    (∃ i, decodePlain w j = .ok i) ↔ fnField w &&& 0xFF#8 = 0#8 := by
  have hmask : fnField w &&& 0xFF#8 = fnField w := BitVec.and_allOnes
  simp only [decodePlain_ok_iff, hmask, exists_eq_left]

theorem exists_decodeCtxset_iff {w : Word} :
    (∃ i, decodeCtxset w = .ok i) ↔ fnField w &&& 0xC8#8 = 0#8 ∧ w.extractLsb' 8 3 ≠ 7#3 := by
  simp only [decodeCtxset_ok_iff, Instr.fn, fnField_eq_ctxset_iff, fnField_and_ctxsetMask_eq_zero_iff]
  constructor
  · rintro ⟨_, m, p, rfl, hm, h14, -, h11, rfl⟩
    exact ⟨⟨h14, h11⟩, hm⟩
  · rintro ⟨⟨h14, h11⟩, hm⟩
    exact ⟨_, _, padField w, rfl, hm, h14, by simp [padField], h11, rfl⟩

theorem exists_decodeScheme_iff {w : Word} {f : PadScheme → Instr} :
    (∃ i, decodeScheme w f = .ok i) ↔ fnField w &&& 0xCF#8 = 0#8 := by
  simp only [decodeScheme_ok_iff, fnField_eq_scheme_iff, fnField_and_schemeMask_eq_zero_iff]
  exact ⟨fun ⟨_, _, _, h14, _, h8⟩ => ⟨h14, h8⟩,
    fun ⟨h14, h8⟩ => ⟨_, padField w, rfl, h14, by simp [padField], h8⟩⟩

/-- An arm answers a command exactly where no reserved bit of `FN` is 1 and no field holds a reserved value. -/
theorem exists_decodeArm_iff {w : Word} {i : Instr} :
    (∃ j, decodeArm w i = .ok j) ↔ fnField w &&& fnMask i = 0#8 ∧ ¬ reservedValue w i := by
  cases i with
  | permute => exact exists_decodePermute_iff
  | ctxset => exact exists_decodeCtxset_iff
  | ksgen => simp only [decodeArm, exists_decodeSelector_iff, fnMask, reservedValue, not_false_eq_true, and_true]
  | rfn => simp only [decodeArm, exists_decodeSelector_iff, fnMask, reservedValue, not_false_eq_true, and_true]
  | pad => simp only [decodeArm, exists_decodeScheme_iff, fnMask, reservedValue, not_false_eq_true, and_true]
  | unpad => simp only [decodeArm, exists_decodeScheme_iff, fnMask, reservedValue, not_false_eq_true, and_true]
  | _ => simp only [decodeArm, exists_decodePlain_iff, fnMask, reservedValue, not_false_eq_true, and_true]

/-- R127: the illegal words are those that decode to no command. -/
theorem illegalWord_iff {w : Word} : illegalWord w ↔ ∀ i, decode w ≠ .ok i := by
  rw [← not_exists]
  by_cases hop : ∃ i : Instr, opField w = i.opcode
  · obtain ⟨i, hop⟩ := hop
    rw [illegalWord_iff_of_opcode hop]
    by_cases hrsv : rsvField w = 0#16
    · simp only [decode_of_opcode hrsv hop, exists_decodeArm_iff, hrsv, true_and, not_and_or, not_not]
    · exact iff_of_true (.inl fun h => hrsv h.1) fun ⟨_, h⟩ => hrsv (exists_opcode_of_decode h).1
  · have hnone : reservedMask (w.extractLsb' 0 8) = none := reservedMask_eq_none (not_exists.1 hop)
    refine iff_of_true ?_ fun ⟨_, h⟩ => hop (exists_opcode_of_decode h).2
    rw [illegalWord, hnone]
    trivial

/-- Settles O4: `issue` of a word that decodes to no command is `raise` between `beginCommand` and `endCommand`. -/
theorem illegalWordsRaiseIllegalCommand : Obligations.IllegalWordsRaiseIllegalCommand := by
  refine ⟨fun _ => illegalWord_iff, fun w s hw => ?_⟩
  cases h : decode w with
  | ok i => exact absurd h (illegalWord_iff.1 hw i)
  | error r =>
    rw [issue, h]
    rfl

/-- Settles O3, word by word. -/
theorem specExampleWordsDecode : Obligations.SpecExampleWordsDecode :=
  ⟨rfl, rfl, rfl, rfl, rfl, rfl, rfl, rfl, rfl, rfl, rfl, rfl, rfl, rfl, rfl, rfl⟩

end Sys2Proof.Encoding

/-! PROOFS of the family 30_encoding.md, `PERMUTE`: the errors of its capacity and table checks (30_encoding.md R120;
40_bit_permutation.md R153, R160). -/

namespace Sys2Proof.PermuteErrors

open Sys2Proof Sys2Proof.Machine

theorem bitPermute_error {src : Bytes} {table : List Nat} {ord : BitOrder} {org v : Nat} (hv : v ∈ table)
    (hout : v < org ∨ org + 8 * src.length ≤ v) : bitPermute src table ord org = .error .invalidArgument := by
  refine if_neg fun hfits => ?_
  have hin := of_decide_eq_true (List.all_eq_true.1 hfits v hv)
  omega

/-- Past the checks of its regions, `PERMUTE` can only fail with INVALID_ARGUMENT (R160). -/
theorem permuteResult_of_regions {ord : BitOrder} {org : Origin} {tsrc : BitVec 3} {s : State} (htsrc : tsrc ≠ 7#3)
    (hsrc : sourceInRange s = true) (htbl : tsrc = 0#3 → tableInDmem s = true) (hdst : destInRange s = true) :
    permuteResult ord org tsrc s =
      if s.dstCap.toNat < ((tableOperand s tsrc).length + 7) / 8 then .error .invalidArgument
      else bitPermute (sourceBytes s) (tableOperand s tsrc) ord (originNat org) := by
  have htbl' : ¬ (tsrc = 0#3 ∧ tableInDmem s = false) := fun ⟨h0, hf⟩ => by simp [htbl h0] at hf
  rw [permuteResult, if_neg htsrc, if_neg (by simp [hsrc]), if_neg htbl', if_neg (by simp [hdst])]

/-- Settles O24: a capacity too small fails its own check, and a bad entry the check of the table. -/
theorem permuteInvalidTableRaises : Obligations.PermuteInvalidTableRaises := by
  refine ⟨rfl, rfl, fun ord org tsrc s htsrc hsrc htbl hdst hbad => ?_⟩
  have hresult : permuteResult ord org tsrc s = .error .invalidArgument := by
    rw [permuteResult_of_regions htsrc hsrc htbl hdst]
    split_ifs with hcap
    · rfl
    · obtain ⟨v, hv, hout⟩ := hbad.resolve_left hcap
      exact bitPermute_error hv (by rwa [length_sourceBytes])
  rw [Permute.exec_permute, execPermute, hresult]

end Sys2Proof.PermuteErrors

/-! PROOFS of the family 41_tables_rom.md: the contents of the default ROM (41_tables_rom.md R181 to R190). -/

namespace Sys2Proof.TablesRom

open Sys2Proof Sys2Proof.Machine

/-! ### Tables that undo each other -/

/-- `t` undoes `u`, both with entries from 1 on: the entry of `t` that entry `k` of `u` points to is `k + 1`. -/
def InvertsTable (t u : List Nat) : Prop := ∀ k, k < u.length → t.getD (u.getD k 0 - 1) 0 = k + 1

/-- Permuting by a table and then by one that it undoes gives the buffer back: bit `i` of the result is bit
`t[u[i] - 1] - 1` of the source. -/
theorem permuteBits_permuteBits_of_invertsTable {x : Bytes} {t u : List Nat} (ord : BitOrder) (hinv : InvertsTable t u)
    (hlen : u.length = 8 * x.length) : permuteBits (permuteBits x t ord 1) u ord 1 = x := by
  have hsize : (permuteBits (permuteBits x t ord 1) u ord 1).length = x.length := by
    rw [length_permuteBits]; omega
  refine bytes_ext_bits ord hsize fun i hi => ?_
  have hu : i < u.length := by omega
  have hentry : t.getD (u[i] - 1) 0 = i + 1 := by simpa [hu] using hinv i hu
  have ht : u[i] - 1 < t.length := by
    by_contra hout
    rw [List.getD_eq_default _ _ (not_lt.1 hout)] at hentry
    omega
  rw [List.getD_eq_getElem _ _ ht] at hentry
  rw [bitAt_permuteBits _ _ _ _ hu, bitAt_permuteBits _ _ _ _ ht, hentry, Nat.add_sub_cancel]

/-- R190 (a). -/
theorem fp_inverts_ip : InvertsTable romDefault.fp romDefault.ip := by unfold InvertsTable; decide

/-- The converse of R190 (a), which is the direction that undoes `IP` by `FP`. -/
theorem ip_inverts_fp : InvertsTable romDefault.ip romDefault.fp := by unfold InvertsTable; decide

theorem permuteBits_ip_fp {x : Bytes} (hx : x.length = 8) :
    permuteBits (permuteBits x romDefault.ip .msb 1) romDefault.fp .msb 1 = x :=
  permuteBits_permuteBits_of_invertsTable .msb ip_inverts_fp (by rw [hx]; rfl)

/-! ### The S-boxes -/

/-- R190 (b): each row of each box is a permutation of 0..15. -/
theorem sboxRow_perm : ∀ j, j < 8 → ∀ row, row < 4 →
    (((romDefault.sbox.getD j []).getD row []).map BitVec.toNat).Perm (List.range 16) := by decide

/-- Every 4-bit value stands in some column of each row. -/
theorem exists_romSbox_eq {j row v : Nat} (hj : j < 8) (hrow : row < 4) (hv : v < 16) :
    ∃ col, col < 16 ∧ (romSbox romDefault j row col).toNat = v := by
  have hperm := sboxRow_perm j hj row hrow
  obtain ⟨col, hcol, hval⟩ := List.getElem_of_mem (hperm.mem_iff.2 (List.mem_range.2 hv))
  refine ⟨col, hcol.trans_eq (hperm.length_eq.trans List.length_range), ?_⟩
  rw [List.length_map] at hcol
  rwa [romSbox, List.getD_eq_getElem _ _ hcol, ← List.getElem_map BitVec.toNat]

/-! ### The tables of the key schedule and of the round -/

theorem tableInRange_iff {bits : Nat} {table : List Nat} :
    tableInRange bits table = true ↔ ∀ v ∈ table, 1 ≤ v ∧ v ≤ bits := by simp [tableInRange]

/-- R190 (d): the 56 positions of `PC1` differ, and none is a parity bit. -/
theorem pc1_distinct : romDefault.pc1.Nodup ∧ ∀ v ∈ romDefault.pc1, v % 8 ≠ 0 := by decide

/-- R190 (e): the 48 positions of `PC2` differ. -/
theorem pc2_nodup : romDefault.pc2.Nodup := by decide

/-- R190 (f): no bit of the half-block is lost by the expansion. -/
theorem e_covers : ∀ v, v ≤ 32 → 1 ≤ v → v ∈ romDefault.e := by decide

/-- R190 (g). -/
theorem p_perm : romDefault.p.Perm (List.range' 1 32) := by decide

theorem mem_p_iff {v : Nat} : v ∈ romDefault.p ↔ 1 ≤ v ∧ v ≤ 32 := by
  rw [p_perm.mem_iff, List.mem_range'_1]; omega

/-- Settles O39: the lengths and ranges are those of any valid ROM; the rest is what the sections above say of the
default tables. -/
theorem defaultRomProperties : Obligations.DefaultRomProperties := by
  obtain ⟨-, -, -, hp, hpc1, hpc2, -⟩ := romValid_lengths romValid_default
  obtain ⟨-, -, hrangeE, -, hrangePc1, hrangePc2⟩ := romValid_ranges romValid_default
  rw [tableInRange_iff] at hrangeE hrangePc1 hrangePc2
  obtain ⟨hnodup, hparity⟩ := pc1_distinct
  refine ⟨fp_inverts_ip, fun x hx => permuteBits_ip_fp hx, fun j row v hj hrow hv => exists_romSbox_eq hj hrow hv, rfl,
    ⟨hpc1, hnodup, fun v hv => ?_⟩, ⟨hpc2, pc2_nodup, hrangePc2⟩, ⟨hrangeE, fun v hlow hhigh => e_covers v hhigh hlow⟩,
    ⟨hp, fun v => mem_p_iff⟩⟩
  obtain ⟨hlow, hhigh⟩ := hrangePc1 v hv
  exact ⟨hlow, hhigh, hparity v hv⟩

end Sys2Proof.TablesRom

/-! PROOFS of the family 42_feistel_engine.md, the engine: its lengths and its inversion for any round function, and what
follows for the two ciphers (R201 to R206; 43_base_cipher.md R260, R261; 44_compound_cipher.md R290, R291). -/

namespace Sys2Proof.Feistel

open Sys2Proof Sys2Proof.Machine

/-! ### The rounds, over any round function -/

/-- Under every key of the sequence the round function makes of a half-block of `n` bytes another of `n` bytes (R200). -/
def KeepsHalf (rf : Bytes → Bytes → Bytes) (n : Nat) (rk : List Bytes) : Prop :=
  ∀ h k, k ∈ rk → h.length = n → (rf h k).length = n

/-- Both halves have `n` bytes (R201). -/
def Halves (n : Nat) (lr : Bytes × Bytes) : Prop := lr.1.length = n ∧ lr.2.length = n

theorem KeepsHalf.tail {rf : Bytes → Bytes → Bytes} {n : Nat} {k : Bytes} {ks : List Bytes}
    (h : KeepsHalf rf n (k :: ks)) : KeepsHalf rf n ks := fun x k' hk' => h x k' (List.mem_cons_of_mem k hk')

theorem halves_feistelRound {rf : Bytes → Bytes → Bytes} {n : Nat} {lr : Bytes × Bytes} {k : Bytes}
    (hlr : Halves n lr) (hk : (rf lr.2 k).length = n) : Halves n (feistelRound rf lr k) := by
  obtain ⟨hl, hr⟩ := hlr
  exact ⟨hr, by simp [feistelRound, hl, hk]⟩

theorem halves_feistelUnround {rf : Bytes → Bytes → Bytes} {n : Nat} {lr : Bytes × Bytes} {k : Bytes}
    (hlr : Halves n lr) (hk : (rf lr.1 k).length = n) : Halves n (feistelUnround rf k lr) := by
  obtain ⟨hl, hr⟩ := hlr
  exact ⟨by simp [feistelUnround, hr, hk], hl⟩

theorem halves_foldl_feistelRound {rf : Bytes → Bytes → Bytes} {n : Nat} {rk : List Bytes} {lr : Bytes × Bytes}
    (hrf : KeepsHalf rf n rk) (hlr : Halves n lr) : Halves n (rk.foldl (feistelRound rf) lr) := by
  induction rk generalizing lr with
  | nil => exact hlr
  | cons k ks ih => exact ih hrf.tail (halves_feistelRound hlr (hrf lr.2 k List.mem_cons_self hlr.2))

theorem halves_foldr_feistelUnround {rf : Bytes → Bytes → Bytes} {n : Nat} {rk : List Bytes} {lr : Bytes × Bytes}
    (hrf : KeepsHalf rf n rk) (hlr : Halves n lr) : Halves n (rk.foldr (feistelUnround rf) lr) := by
  induction rk with
  | nil => exact hlr
  | cons k ks ih =>
    have hks := ih hrf.tail
    exact halves_feistelUnround hks (hrf _ k List.mem_cons_self hks.1)

/-- The rounds are taken back in reverse: first those of the later keys, by induction, then the round of the first key
(R204, R206). -/
theorem foldr_feistelUnround_foldl_feistelRound {rf : Bytes → Bytes → Bytes} {n : Nat} {rk : List Bytes}
    {lr : Bytes × Bytes} (hrf : KeepsHalf rf n rk) (hlr : Halves n lr) :
    rk.foldr (feistelUnround rf) (rk.foldl (feistelRound rf) lr) = lr := by
  induction rk generalizing lr with
  | nil => rfl
  | cons k ks ih =>
    have hk : (rf lr.2 k).length = n := hrf lr.2 k List.mem_cons_self hlr.2
    rw [List.foldl_cons, List.foldr_cons, ih hrf.tail (halves_feistelRound hlr hk)]
    exact feistelUnround_feistelRound rf lr k (by rw [hlr.1, hk])

/-! ### The engine -/

section Engine

variable {rf : Bytes → Bytes → Bytes} {bk : Nat} {rk : List Bytes} {x : Bytes}
  (hbk : bk % 2 = 0) (hx : x.length = bk) (hrf : KeepsHalf rf (bk / 2) rk)

include hbk hx hrf

theorem length_feistelEncrypt : (feistelEncrypt rf bk rk x).length = bk := by
  obtain ⟨hl, hr⟩ := halves_foldl_feistelRound hrf (splitBlock_lengths hx hbk)
  rw [feistelEncrypt, List.length_append, hl, hr]
  omega

theorem length_feistelDecrypt : (feistelDecrypt rf bk rk x).length = bk := by
  obtain ⟨hl, hr⟩ := halves_foldr_feistelUnround hrf (splitBlock_lengths hx hbk)
  rw [feistelDecrypt, List.length_append, hl, hr]
  omega

theorem feistelDecrypt_feistelEncrypt : feistelDecrypt rf bk rk (feistelEncrypt rf bk rk x) = x := by
  have hsplit := splitBlock_lengths hx hbk
  obtain ⟨hl, -⟩ := halves_foldl_feistelRound hrf hsplit
  rw [feistelDecrypt, feistelEncrypt, splitBlock_append hl, foldr_feistelUnround_foldl_feistelRound hrf hsplit]
  exact append_splitBlock bk x

end Engine

/-- Settles O38: the halves that `FeistelDecrypt` splits off are those that `FeistelEncrypt` joined, and its rounds take
the rounds back one by one. -/
theorem feistelDecryptInvertsEncrypt : Obligations.FeistelDecryptInvertsEncrypt :=
  fun _ _ _ _ hbk hx hrf => feistelDecrypt_feistelEncrypt hbk hx hrf

/-! ### The two ciphers -/

section Ciphers

variable {rom : Rom} (hrom : romValid rom = true) (rk : List Bytes) {x : Bytes}

include hrom

theorem keepsHalf_baseRound : KeepsHalf (baseRound rom) 4 rk := fun h k _ _ => length_baseRound hrom h k

theorem keepsHalf_adapter : KeepsHalf (adapter rom) 8 rk := fun h k _ _ => length_adapter hrom h k

theorem length_cipherEncrypt (c : Cipher) (hx : x.length = cipherBlockSize c) :
    (cipherEncrypt rom c rk x).length = cipherBlockSize c := by
  cases c with
  | base => exact length_baseEncrypt hrom rk x
  | compound => exact length_feistelEncrypt rfl hx (keepsHalf_adapter hrom rk)

theorem length_cipherDecrypt (c : Cipher) (hx : x.length = cipherBlockSize c) :
    (cipherDecrypt rom c rk x).length = cipherBlockSize c := by
  cases c with
  | base => exact length_baseDecrypt hrom rk x
  | compound => exact length_feistelDecrypt rfl hx (keepsHalf_adapter hrom rk)

/-- R290, R291: the engine alone, so that no table of the ROM need undo another. -/
theorem compDecrypt_compEncrypt (hx : x.length = 16) : compDecrypt rom rk (compEncrypt rom rk x) = x :=
  feistelDecrypt_feistelEncrypt rfl hx (keepsHalf_adapter hrom rk)

end Ciphers

/-- The converse of `permuteBits_ip_fp`: the two tables undo each other in either order. -/
theorem bp_fp_ip {y : Bytes} (hy : y.length = 8) : bp (bp y romDefault.fp) romDefault.ip = y :=
  TablesRom.permuteBits_permuteBits_of_invertsTable .msb TablesRom.fp_inverts_ip (by rw [hy]; rfl)

theorem bp_ip_fp {x : Bytes} (hx : x.length = 8) : bp (bp x romDefault.ip) romDefault.fp = x :=
  TablesRom.permuteBits_ip_fp hx

/-- R260, R261: inside, `IP` takes the `FP` of the encryption off; outside, `FP` takes its `IP` off. -/
theorem baseDecrypt_baseEncrypt (rk : List Bytes) {x : Bytes} (hx : x.length = 8) :
    baseDecrypt romDefault rk (baseEncrypt romDefault rk x) = x := by
  have hip : (bp x romDefault.ip).length = 8 := by rw [length_bp, (romValid_lengths romValid_default).1]
  have hrf : KeepsHalf (baseRound romDefault) (8 / 2) rk := keepsHalf_baseRound romValid_default rk
  rw [baseDecrypt, baseEncrypt, bp_fp_ip (length_feistelEncrypt rfl hip hrf),
    feistelDecrypt_feistelEncrypt rfl hip hrf, bp_ip_fp hx]

/-- R213 for one block: for the base cipher under the default ROM, for the compound cipher under any. -/
theorem cipherDecrypt_cipherEncrypt {rom : Rom} (hrom : romValid rom = true) {c : Cipher}
    (h : rom = romDefault ∨ c = .compound) (rk : List Bytes) {x : Bytes} (hx : x.length = cipherBlockSize c) :
    cipherDecrypt rom c rk (cipherEncrypt rom c rk x) = x := by
  cases c with
  | base =>
    obtain rfl : rom = romDefault := h.resolve_right (by decide)
    exact baseDecrypt_baseEncrypt rk hx
  | compound => exact compDecrypt_compEncrypt hrom rk hx

end Sys2Proof.Feistel

/-! PROOFS of the family 42_feistel_engine.md, the commands: KSGEN, RFN, KEYINIT, ENCB and DECB, and the frame of
KEYINIT and CTXSET (R210 to R216). -/

namespace Sys2Proof.EngineCommands

open Sys2Proof Sys2Proof.Machine

/-! ### The commands as results -/

theorem exec_ksgen (k : Cipher) (s : State) : exec (.ksgen k) s = complete s 0 (ksgenResult k s) := rfl

theorem exec_rfn (f : RoundFn) (s : State) : exec (.rfn f) s = complete s 0 (rfnResult f s) := rfl

theorem exec_encb (s : State) :
    exec .encb s = complete s 0 (blockResult (cipherEncrypt s.par.rom s.cipher s.rk) s) := rfl

theorem exec_decb (s : State) :
    exec .decb s = complete s 0 (blockResult (cipherDecrypt s.par.rom s.cipher s.rk) s) := rfl

theorem exec_keyinit_of_ok {s : State} {keys : List Bytes} (h : keyinitResult s = .ok keys) :
    exec .keyinit s = .next (s.commitKeys keys) := by
  change execKeyinit s = _
  rw [execKeyinit, h]

theorem exec_keyinit_of_error {s : State} {e : ErrClass} (h : keyinitResult s = .error e) :
    exec .keyinit s = .next (s.raise e) := by
  change execKeyinit s = _
  rw [execKeyinit, h]

theorem complete_of_ok {s : State} {n : Nat} {r : Except ErrClass Bytes} {out : Bytes} (h : r = .ok out) :
    complete s n r = .next (s.commitBytes out n) := by rw [h, complete_ok]

theorem complete_of_error {s : State} {n : Nat} {r : Except ErrClass Bytes} {e : ErrClass} (h : r = .error e) :
    complete s n r = .next (s.raise e) := by rw [h, complete_error]

/-- A command whose result fits `DST_CAP` completes: the result is counted by `OUT_LEN` and stands at `DST_ADDR`. -/
theorem exists_complete_of_ok {s : State} {r : Except ErrClass Bytes} {out : Bytes} {n : Nat} (hwf : s.dmem.wf)
    (hr : r = .ok out) (hlen : out.length = n) (hcap : n ≤ s.dstCap.toNat) :
    ∃ t, complete s 0 r = .next t ∧ t.errcode = none ∧ t.outLen.toNat = n ∧
      t.dmem.readBytes s.dstAddr.toNat n = out := by
  subst hlen
  exact ⟨_, complete_of_ok hr, rfl, Permute.toNat_outLen_commitBytes 0 hcap, Memory.readBytes_writeBytes hwf _ out⟩

/-! ### Keys and sizes (R208) -/

/-- A key scheduler accepts every key of a legal length (R208). -/
theorem exists_keySchedule (rom : Rom) {c : Cipher} {key : Bytes} (h : keyLengthRule c key.length) :
    ∃ keys, keySchedule rom c key = .ok keys := by
  rcases h with ⟨rfl, h⟩ | ⟨rfl, h⟩
  · exact ⟨_, if_neg (not_not.2 h)⟩
  · exact ⟨_, if_pos h⟩

theorem exists_keySchedule_keyOperand (rom : Rom) {c : Cipher} {s : State} (h : keyLengthRule c s.keyLen.toNat) :
    ∃ keys, keySchedule rom c (keyOperand s) = .ok keys :=
  exists_keySchedule rom (by rwa [length_keyOperand (keyLengthLegal_le (keyLengthLegal_iff.2 h))])

theorem ksgenSize_eq (k : Cipher) : ksgenSize k = if k = .base then 96 else 128 := by cases k <;> rfl

theorem roundKeyLength_eq (k : Cipher) : roundKeyLength k = if k = .base then 6 else 8 := by cases k <;> rfl

/-! ### KSGEN (R214) -/

/-- Past the check of its region, `KSGEN` can only fail with INVALID_ARGUMENT (R214). -/
theorem ksgenResult_invalid {k : Cipher} {s : State} (hdst : destInRange s = true)
    (h : ¬ keyLengthRule k s.keyLen.toNat ∨ s.dstCap.toNat < ksgenSize k) :
    ksgenResult k s = .error .invalidArgument := by
  rw [ksgenResult, if_neg (by simp [hdst])]
  by_cases hlen : keyLengthRule k s.keyLen.toNat
  · obtain ⟨keys, hkeys⟩ := exists_keySchedule_keyOperand s.par.rom hlen
    have hcap : s.dstCap.toNat < ksgenSize k := h.resolve_left (not_not.2 hlen)
    simp [keyLengthLegal_iff.2 hlen, hkeys, hcap]
  · rw [if_pos (keyLengthLegal_eq_false.2 hlen)]

/-- Settles O26: the scheduler accepts the key, its sixteen keys fill the size of the selected cipher, and they are
committed in their order; an illegal length and a capacity too small each fail their own check. -/
theorem ksgenWritesRoundKeys : Obligations.KsgenWritesRoundKeys := by
  rintro k s n hn hdst
  obtain rfl : n = ksgenSize k := hn.trans (ksgenSize_eq k).symm
  refine ⟨fun hrom hwf hlen hcap => ?_,
    fun h => (exec_ksgen k s).trans (complete_of_error (ksgenResult_invalid hdst h))⟩
  obtain ⟨keys, hkeys⟩ := exists_keySchedule_keyOperand s.par.rom hlen
  obtain ⟨hcount, hbytes⟩ := Results.keySchedule_ok hrom hkeys
  obtain ⟨t, ht, herr, hout, hread⟩ := exists_complete_of_ok hwf
    (ksgenResult_ok.2 ⟨hdst, keyLengthLegal_iff.2 hlen, hcap, keys, hkeys, rfl⟩)
    (Results.length_flatten_keys hrom hkeys) hcap
  exact ⟨t, keys, ht, hkeys, hcount, by rwa [← roundKeyLength_eq], herr, hout, hread⟩

/-! ### RFN (R215) -/

theorem roundFunction_base {rom : Rom} {h k : Bytes} (hh : h.length = 4) (hk : k.length = 6) :
    roundFunction rom .base h k = .ok (baseRound rom h k) := if_neg (by simp [hh, hk])

theorem roundFunction_adapter {rom : Rom} {h k : Bytes} (hh : h.length = 8) (hk : k.length = 8) :
    roundFunction rom .adapter h k = .ok (adapter rom h k) := if_neg (by simp [hh, hk])

/-- With the sizes of `FSEL` the result is that of the round function, whose own size check passes. -/
theorem rfnResult_base {s : State} (hsrc : sourceInRange s = true) (hdst : destInRange s = true)
    (hlen : s.srcLen.toNat = 4) (hkey : s.keyLen.toNat = 6) (hcap : 4 ≤ s.dstCap.toNat) :
    rfnResult .base s = .ok (baseRound s.par.rom (sourceBytes s) (keyOperand s)) :=
  rfnResult_ok.2 ⟨hsrc, hdst, hlen, hkey, hcap,
    roundFunction_base (by rw [length_sourceBytes, hlen]) (by rw [length_keyOperand (by omega), hkey])⟩

theorem rfnResult_adapter {s : State} (hsrc : sourceInRange s = true) (hdst : destInRange s = true)
    (hlen : s.srcLen.toNat = 8) (hkey : s.keyLen.toNat = 8) (hcap : 8 ≤ s.dstCap.toNat) :
    rfnResult .adapter s = .ok (adapter s.par.rom (sourceBytes s) (keyOperand s)) :=
  rfnResult_ok.2 ⟨hsrc, hdst, hlen, hkey, hcap,
    roundFunction_adapter (by rw [length_sourceBytes, hlen]) (by rw [length_keyOperand (by omega), hkey])⟩

theorem exec_rfn_invalid {f : RoundFn} {s : State} (hsrc : sourceInRange s = true) (hdst : destInRange s = true)
    (h : s.srcLen.toNat ≠ rfnHalf f ∨ s.keyLen.toNat ≠ rfnKeyLength f ∨ s.dstCap.toNat < rfnHalf f) :
    exec (.rfn f) s = .next (s.raise .invalidArgument) := by
  rw [exec_rfn, rfnResult, if_neg (by simp [hsrc, hdst]), if_pos h, complete_error]

/-- What `RFN` writes when it succeeds: the bytes of the round function, `rfnHalf` of them. -/
theorem exists_rfn_of_ok {f : RoundFn} {s : State} {out : Bytes} (hrom : romValid s.par.rom = true) (hwf : s.dmem.wf)
    (hr : rfnResult f s = .ok out) :
    ∃ t, exec (.rfn f) s = .next t ∧ t.errcode = none ∧ t.outLen.toNat = rfnHalf f ∧
      t.dmem.readBytes s.dstAddr.toNat (rfnHalf f) = out := by
  obtain ⟨-, -, -, -, hcap, hround⟩ := rfnResult_ok.1 hr
  exact exists_complete_of_ok hwf hr (Results.length_roundFunction hrom hround) hcap

/-- Settles O27, one clause for each selector and outcome. -/
theorem rfnAppliesRoundFunction : Obligations.RfnAppliesRoundFunction := by
  intro s hsrc hdst
  exact ⟨fun hrom hwf hlen hkey hcap => exists_rfn_of_ok hrom hwf (rfnResult_base hsrc hdst hlen hkey hcap),
    fun hrom hwf hlen hkey hcap => exists_rfn_of_ok hrom hwf (rfnResult_adapter hsrc hdst hlen hkey hcap),
    fun h => exec_rfn_invalid hsrc hdst h, fun h => exec_rfn_invalid hsrc hdst h⟩

/-! ### KEYINIT and CTXSET (R210, R216) -/

/-- The count check of R207 passes on what a scheduler returns. -/
theorem keyinitResult_of_keySchedule {s : State} {keys : List Bytes} (hrom : romValid s.par.rom = true)
    (hlen : keyLengthRule s.cipher s.keyLen.toNat) (hkeys : keySchedule s.par.rom s.cipher (keyOperand s) = .ok keys) :
    keyinitResult s = .ok keys := by
  obtain ⟨hcount, -⟩ := Results.keySchedule_ok hrom hkeys
  simp [keyinitResult, keyLengthLegal_iff.2 hlen, hkeys, hcount]

theorem keyinitResult_of_bad_length {s : State} (h : ¬ keyLengthRule s.cipher s.keyLen.toNat) :
    keyinitResult s = .error .invalidArgument := if_pos (keyLengthLegal_eq_false.2 h)

/-- Settles O28: the keys are those of the scheduler, and the commit names the four registers that change. -/
theorem keyinitLoadsRoundKeys : Obligations.KeyinitLoadsRoundKeys := by
  refine fun s => ⟨fun hrom hlen => ?_, fun h => exec_keyinit_of_error (keyinitResult_of_bad_length h)⟩
  obtain ⟨keys, hkeys⟩ := exists_keySchedule_keyOperand s.par.rom hlen
  obtain ⟨hcount, hbytes⟩ := Results.keySchedule_ok hrom hkeys
  exact ⟨keys, exec_keyinit_of_ok (keyinitResult_of_keySchedule hrom hlen hkeys), hkeys, hcount,
    roundKeyLength_eq s.cipher, hbytes⟩

/-- Settles O36: each of the two commands raises or commits, and neither touches DMEM. -/
theorem keyAndContextCommandsFrame : Obligations.KeyAndContextCommandsFrame := by
  constructor
  · intro s t h
    rcases execKeyinit_cases h with ⟨keys, -, rfl⟩ | ⟨e, -, rfl⟩
    · exact ⟨rfl, fun _ => rfl, fun _ => rfl, rfl⟩
    · exact ⟨rfl, fun _ => rfl, id, rfl⟩
  · intro f p s t h
    rcases execCtxset_cases h with ⟨-, rfl⟩ | ⟨m, -, ⟨-, rfl⟩ | ⟨-, rfl⟩⟩
    · exact ⟨rfl, fun _ => rfl, id, rfl⟩
    · exact ⟨rfl, fun _ => rfl, id, rfl⟩
    · exact ⟨rfl, fun _ => rfl, fun _ => rfl, rfl⟩

/-! ### ENCB and DECB (R211 to R213) -/

/-- Settles O18: the two commands run one chain of checks, over different block functions. -/
theorem blockCommandCheckOrder : Obligations.BlockCommandCheckOrder := by
  rintro i s hi
  obtain ⟨F, hF⟩ : ∃ F, exec i s = complete s 0 (blockResult F s) := by
    rcases hi with rfl | rfl
    · exact ⟨_, exec_encb s⟩
    · exact ⟨_, exec_decb s⟩
  rw [hF, blockResult]
  refine ⟨fun hregion => ?_, fun hsrc hdst hlen => ?_, fun hsrc hdst hlen hcap hinit => ?_⟩
  · rw [if_pos hregion, complete_error]
  · rw [if_neg (by simp [hsrc, hdst]), if_pos hlen, complete_error]
  · rw [if_neg (by simp [hsrc, hdst]), if_neg (by omega), if_pos hinit, complete_error]

/-- With one block of source and a key, a block function is applied to the source and its block is written. -/
theorem exists_complete_blockResult {F : Bytes → Bytes} {s : State} (hwf : s.dmem.wf) (hsrc : sourceInRange s = true)
    (hdst : destInRange s = true) (hlen : s.srcLen.toNat = blockSize s) (hcap : blockSize s ≤ s.dstCap.toNat)
    (hinit : s.init = true) (hF : ∀ x : Bytes, x.length = blockSize s → (F x).length = blockSize s) :
    ∃ t, complete s 0 (blockResult F s) = .next t ∧ t.errcode = none ∧ t.outLen.toNat = blockSize s ∧
      t.dmem.readBytes s.dstAddr.toNat (blockSize s) = F (sourceBytes s) :=
  exists_complete_of_ok hwf (blockResult_ok.2 ⟨hsrc, hdst, hlen, hcap, hinit, rfl⟩)
    (hF _ (by rw [length_sourceBytes, hlen])) hcap

/-- Settles O29: both commands write their block function of the source, and the block functions are the engine between
`IP` and `FP`, or the engine alone, by definition. -/
theorem blockCommandsTransformOneBlock : Obligations.BlockCommandsTransformOneBlock := by
  intro s hrom hwf hsrc hdst hlen hcap hinit
  obtain ⟨t, ht, hterr, htout, htread⟩ := exists_complete_blockResult hwf hsrc hdst hlen hcap hinit
    fun _ hx => Feistel.length_cipherEncrypt hrom s.rk s.cipher hx
  obtain ⟨u, hu, huerr, huout, huread⟩ := exists_complete_blockResult hwf hsrc hdst hlen hcap hinit
    fun _ hx => Feistel.length_cipherDecrypt hrom s.rk s.cipher hx
  refine ⟨t, u, ht, hu, hterr, huerr, htout, huout, htread, huread, fun hc => ?_, fun hc => ?_⟩
  · have hsize : blockSize s = 8 := by rw [blockSize, hc]; rfl
    rw [hsize, hc] at htread huread
    exact ⟨hsize, htread, huread⟩
  · have hsize : blockSize s = 16 := by rw [blockSize, hc]; rfl
    rw [hsize, hc] at htread huread
    exact ⟨hsize, htread, huread⟩

/-- What a successful `ENCB` was given and what it committed. -/
theorem encb_ok {s t : State} (h : exec .encb s = .next t) (herr : t.errcode = none) :
    destInRange s = true ∧ s.srcLen.toNat = blockSize s ∧ blockSize s ≤ s.dstCap.toNat ∧ s.init = true ∧
      t = s.commitBytes (cipherEncrypt s.par.rom s.cipher s.rk (sourceBytes s)) 0 := by
  rw [exec_encb] at h
  rcases complete_cases h with ⟨out, hout, rfl⟩ | ⟨e, -, rfl⟩
  · obtain ⟨-, hdst, hlen, hcap, hinit, rfl⟩ := blockResult_ok.1 hout
    exact ⟨hdst, hlen, hcap, hinit, rfl⟩
  · cases herr

/-- The operand registers set for a command that reads the result at `b` and has `c` bytes at `a` for its own. -/
def resultAsSource (t : State) (b a c : Word) : State :=
  { t with srcAddr := b, srcLen := t.outLen, dstAddr := a, dstCap := c }

/-- `DECB` finds the one block that was committed just before, wherever it writes its own. -/
theorem exists_decb_resultAsSource {s : State} {y : Bytes} {a c : Word} (hrom : romValid s.par.rom = true)
    (hwf : s.dmem.wf) (hdst : destInRange s = true) (hcap : blockSize s ≤ s.dstCap.toNat) (hinit : s.init = true)
    (hy : y.length = blockSize s) (hc : blockSize s ≤ c.toNat) (hac : a.toNat + c.toNat ≤ s.par.dmemSize) :
    ∃ u, exec .decb (resultAsSource (s.commitBytes y 0) s.dstAddr a c) = .next u ∧ u.errcode = none ∧
      u.outLen.toNat = blockSize s ∧
      u.dmem.readBytes a.toNat (blockSize s) = cipherDecrypt s.par.rom s.cipher s.rk y := by
  have hfits : y.length ≤ s.dstCap.toNat := hy.trans_le hcap
  have hlen : (s.commitBytes y 0).outLen.toNat = blockSize s := (Permute.toNat_outLen_commitBytes 0 hfits).trans hy
  have hsrc : s.dstAddr.toNat + blockSize s ≤ s.par.dmemSize :=
    (Nat.add_le_add_left hcap _).trans (HostAccess.inRange_iff.1 hdst)
  have hsource : sourceBytes (resultAsSource (s.commitBytes y 0) s.dstAddr a c) = y :=
    Permute.readBytes_commitBytes hwf 0 hfits
  obtain ⟨u, hu, huerr, huout, huread⟩ := exists_complete_blockResult
    (s := resultAsSource (s.commitBytes y 0) s.dstAddr a c) (Memory.wf_writeBytes hwf _ _)
    (HostAccess.inRange_iff.2 (hlen ▸ hsrc)) (HostAccess.inRange_iff.2 hac) hlen hc hinit
    fun _ hx => Feistel.length_cipherDecrypt hrom s.rk s.cipher hx
  exact ⟨u, hu, huerr, huout, huread.trans (congrArg _ hsource)⟩

/-- Settles O40: `DECB` decrypts the block that `ENCB` wrote, and the cipher undoes itself. -/
theorem blockRoundTripThroughDmem : Obligations.BlockRoundTripThroughDmem := by
  intro s t a c hinv hcipher h herr hc hac
  obtain ⟨-, -, hrom⟩ := paramsValid_iff.1 hinv.params
  obtain ⟨hdst, hlen, hcap, hinit, rfl⟩ := encb_ok h herr
  have hx : (sourceBytes s).length = blockSize s := by rw [length_sourceBytes, hlen]
  obtain ⟨u, hu, huerr, huout, huread⟩ := exists_decb_resultAsSource hrom hinv.canonical hdst hcap hinit
    (Feistel.length_cipherEncrypt hrom s.rk s.cipher hx) hc hac
  exact ⟨u, hu, huerr, huout, huread.trans (Feistel.cipherDecrypt_cipherEncrypt hrom hcipher s.rk hx)⟩

/-! ### RFN against KEYINIT and ENCB (R215) -/

/-- Settles O46: the keys that `KEYINIT` loads are those that the adapter schedules for itself, so that both commit the
same bytes at the same place. -/
theorem rfnAdapterEqualsKeyinitThenEncb : Obligations.RfnAdapterEqualsKeyinitThenEncb := by
  intro s hrom hbase hkey hlen hcap hsrc hdst
  have hsize : blockSize s = 8 := by rw [blockSize, hbase]; rfl
  have hkeys : keyinitResult s = .ok (baseRoundKeys s.par.rom (keyOperand s)) := by
    refine keyinitResult_of_keySchedule hrom (.inl ⟨hbase, hkey⟩) ?_
    rw [hbase]
    exact if_neg (not_not.2 (by rw [length_keyOperand (by omega), hkey]))
  have hencb : exec .encb (s.commitKeys (baseRoundKeys s.par.rom (keyOperand s))) =
      .next ((s.commitKeys (baseRoundKeys s.par.rom (keyOperand s))).commitBytes
        (adapter s.par.rom (sourceBytes s) (keyOperand s)) 0) := by
    refine (exec_encb _).trans (complete_of_ok (blockResult_ok.2 ⟨hsrc, hdst, hlen.trans hsize.symm,
      hsize.trans_le hcap, rfl, ?_⟩))
    rw [State.commitKeys_cipher, hbase]
    rfl
  have hrfn := (exec_rfn .adapter s).trans (complete_of_ok (rfnResult_adapter hsrc hdst hlen hkey hcap))
  exact ⟨_, _, _, exec_keyinit_of_ok hkeys, hencb, hrfn, rfl, rfl, rfl, rfl, rfl, rfl⟩

end Sys2Proof.EngineCommands

/-! PROOFS of the family 43_base_cipher.md: the key scheduler (43_base_cipher.md R245 to R248). -/

namespace Sys2Proof.KeySchedule

open Sys2Proof Sys2Proof.Machine

/-! ### Rotations (R246) -/

/-- Up to the width of the half, R246's formula is the rotation; at 28 the left shift gives 0 and the right shift gives
the half back. -/
theorem rotl28_eq_rotateLeft (v : BitVec 28) {n : Nat} (hn : n ≤ 28) : rotl28 v n = v.rotateLeft n := by
  rcases Nat.lt_or_eq_of_le hn with hlt | rfl
  · rw [BitVec.rotateLeft_eq_rotateLeftAux_of_lt hlt]
    rfl
  · have hright : v >>> 28 = 0#28 := BitVec.ushiftRight_eq_zero (by omega)
    simp [rotl28, BitVec.rotateLeft_def, hright]

theorem rotateLeft_rotateLeft {w : Nat} (v : BitVec w) (a b : Nat) :
    (v.rotateLeft a).rotateLeft b = v.rotateLeft (a + b) := by
  refine BitVec.eq_of_getMsbD_eq fun i hi => ?_
  have hmod : (b + i) % w < w := Nat.mod_lt _ (by omega)
  simp [BitVec.getMsbD_rotateLeft, hi, hmod, Nat.add_assoc]

theorem rotateLeft_not {w : Nat} (v : BitVec w) (n : Nat) : (~~~v).rotateLeft n = ~~~(v.rotateLeft n) := by
  refine BitVec.eq_of_getMsbD_eq fun i hi => ?_
  have hmod : (n + i) % w < w := Nat.mod_lt _ (by omega)
  simp [BitVec.getMsbD_rotateLeft, hi, hmod]

/-! ### The rounds of the scheduler (R245) -/

/-- The round key that `PC2` selects from two halves (R245). -/
def selectRoundKey (rom : Rom) (c d : BitVec 28) : Bytes := bp (bebytes (c ++ d).toNat 7) rom.pc2

theorem roundKeysFrom_cons (rom : Rom) {n : Nat} (hn : n ≤ 28) (ns : List Nat) (c d : BitVec 28) :
    roundKeysFrom rom (n :: ns) c d =
      selectRoundKey rom (c.rotateLeft n) (d.rotateLeft n) ::
        roundKeysFrom rom ns (c.rotateLeft n) (d.rotateLeft n) := by
  rw [roundKeysFrom, rotl28_eq_rotateLeft c hn, rotl28_eq_rotateLeft d hn, selectRoundKey]

/-- The rotation of the first amount goes into the halves that the later rounds start from, so that the amounts add
up. -/
theorem getElem?_roundKeysFrom (rom : Rom) {ns : List Nat} (hns : ∀ n ∈ ns, n ≤ 28) (c d : BitVec 28) {i : Nat}
    (hi : i < ns.length) :
    (roundKeysFrom rom ns c d)[i]? =
      some (selectRoundKey rom (c.rotateLeft (ns.take (i + 1)).sum) (d.rotateLeft (ns.take (i + 1)).sum)) := by
  induction ns generalizing c d i with
  | nil => simp at hi
  | cons n ns ih =>
    obtain ⟨hn, hns⟩ := List.forall_mem_cons.1 hns
    rw [roundKeysFrom_cons rom hn]
    cases i with
    | zero => simp
    | succ i =>
      rw [List.getElem?_cons_succ, ih hns _ _ (by simpa using hi), rotateLeft_rotateLeft, rotateLeft_rotateLeft,
        List.take_succ_cons, List.sum_cons]

/-- Settles O43: the scheduler starts its rounds from the halves of the key. -/
theorem rotationsAccumulate : Obligations.RotationsAccumulate :=
  fun rom _ _ hshifts hi => getElem?_roundKeysFrom rom hshifts _ _ hi

/-! ### The key bits that `PC1` omits (R247) -/

/-- A permutation reads of its source only the bits that the table names. -/
theorem bp_congr {x y : Bytes} {table : List Nat} (h : ∀ v ∈ table, bitAt .msb x (v - 1) = bitAt .msb y (v - 1)) :
    bp x table = bp y table := by
  rw [bp, bp, permuteBits, permuteBits, selectBits, selectBits, List.map_congr_left h]

/-- Two bytes that agree but for the lowest bit have the same bit at every other place. -/
theorem getLsbD_eq_of_extractLsb'_eq {a b : Byte} (h : a.extractLsb' 1 7 = b.extractLsb' 1 7) {p : Nat} (hp : 0 < p) :
    a.getLsbD p = b.getLsbD p := by
  by_cases hlt : p < 8
  · have hbit := congrArg (·.getLsbD (p - 1)) h
    simpa [show p - 1 < 7 by omega, show 1 + (p - 1) = p by omega] using hbit
  · rw [BitVec.getLsbD_of_ge _ _ (by omega), BitVec.getLsbD_of_ge _ _ (by omega)]

/-- A position that is no multiple of 8 is not the lowest bit of its byte. -/
theorem bitAt_eq_of_extractLsb'_eq {k k' : Bytes}
    (h : ∀ i, i < 8 → (k.getD i 0#8).extractLsb' 1 7 = (k'.getD i 0#8).extractLsb' 1 7) {v : Nat} (hlow : 1 ≤ v)
    (hhigh : v ≤ 64) (hparity : v % 8 ≠ 0) : bitAt .msb k (v - 1) = bitAt .msb k' (v - 1) :=
  getLsbD_eq_of_extractLsb'_eq (h _ (by omega)) (by omega)

/-- Settles O41: `PC1` names no lowest bit of a byte, so both keys give the same halves. -/
theorem parityBitsNeverMatter : Obligations.ParityBitsNeverMatter := by
  intro k k' _ _ hbits
  obtain ⟨-, -, -, -, hrange, -⟩ := romValid_ranges romValid_default
  obtain ⟨-, hparity⟩ := TablesRom.pc1_distinct
  have hpc1 : bp k romDefault.pc1 = bp k' romDefault.pc1 := bp_congr fun v hv => by
    obtain ⟨hlow, hhigh⟩ := TablesRom.tableInRange_iff.1 hrange v hv
    exact bitAt_eq_of_extractLsb'_eq hbits hlow hhigh (hparity v hv)
  have hkeys : baseRoundKeys romDefault k = baseRoundKeys romDefault k' := by
    rw [baseRoundKeys, baseRoundKeys, keyHalves, keyHalves, hpc1]
  exact ⟨hkeys, fun x => by rw [hkeys]⟩

end Sys2Proof.KeySchedule

/-! PROOFS of the family 43_base_cipher.md: the complementation property (43_base_cipher.md R263). -/

namespace Sys2Proof.Complement

open Sys2Proof Sys2Proof.Machine

/-! ### Complemented buffers -/

@[simp] theorem length_complementBytes (x : Bytes) : (complementBytes x).length = x.length := by simp [complementBytes]

theorem complementBytes_append (x y : Bytes) :
    complementBytes (x ++ y) = complementBytes x ++ complementBytes y := by simp [complementBytes]

theorem xorBytes_complementBytes_left (x y : Bytes) :
    xorBytes (complementBytes x) y = complementBytes (xorBytes x y) := by
  refine List.ext_getElem (by simp) fun i h₁ h₂ => ?_
  simp [getElem_xorBytes, complementBytes, BitVec.not_xor_left]

/-- Inside the buffer every bit is complemented; behind its end a bit still reads 0. -/
theorem bitAt_complementBytes (ord : BitOrder) {x : Bytes} {j : Nat} (hj : j < 8 * x.length) :
    bitAt ord (complementBytes x) j = !bitAt ord x j := by
  have hbyte : j / 8 < x.length := by omega
  have hplace : bitPlace ord (j % 8) < 8 := bitPlace_lt ord (Nat.mod_lt _ (by omega))
  simp [bitAt_eq, complementBytes, hbyte, hplace]

theorem complementBytes_splitBlock (bk : Nat) (x : Bytes) :
    splitBlock bk (complementBytes x) = Prod.map complementBytes complementBytes (splitBlock bk x) := by
  simp [splitBlock, complementBytes, List.map_take, List.map_drop]

/-- A bit permutation commutes with complement, when its table fills whole bytes and stays inside the buffer. -/
theorem bp_complementBytes {x : Bytes} {table : List Nat} (hlen : table.length % 8 = 0)
    (hrange : tableInRange (8 * x.length) table = true) :
    bp (complementBytes x) table = complementBytes (bp x table) := by
  refine bytes_ext_bits .msb (by simp) fun i hi => ?_
  rw [length_bp] at hi
  have hentry : i < table.length := by omega
  have hinside := TablesRom.tableInRange_iff.1 hrange _ (List.getElem_mem hentry)
  rw [bitAt_complementBytes .msb (by rw [length_bp]; omega), bp, bp, bitAt_permuteBits _ _ _ _ hentry,
    bitAt_permuteBits _ _ _ _ hentry, bitAt_complementBytes .msb (by omega)]

/-! ### Complemented numbers -/

theorem be_complementBytes_add (x : Bytes) : be (complementBytes x) + be x + 1 = 2 ^ (8 * x.length) := by
  induction x using List.reverseRecOn with
  | nil => rfl
  | append_singleton x b ih =>
    have hb : (~~~b).toNat + b.toNat = 255 := by rw [BitVec.toNat_not]; omega
    have hbe : be (complementBytes (x ++ [b])) = be (complementBytes x) * 256 + (~~~b).toNat := by
      rw [complementBytes_append]
      exact BigEndian.be_concat _ _
    rw [hbe, BigEndian.be_concat, List.length_append, List.length_singleton, Nat.mul_add, Nat.pow_add, ← ih]
    omega

/-- The number of a complemented buffer is the complement of the buffer's number. -/
theorem ofNat_be_complementBytes {w : Nat} {x : Bytes} (hx : w = 8 * x.length) :
    BitVec.ofNat w (be (complementBytes x)) = ~~~BitVec.ofNat w (be x) := by
  have hsum := be_complementBytes_add x
  rw [← hx] at hsum
  refine BitVec.eq_of_toNat_eq ?_
  rw [BitVec.toNat_not, BitVec.toNat_ofNat, BitVec.toNat_ofNat, Nat.mod_eq_of_lt (by omega),
    Nat.mod_eq_of_lt (by omega)]
  omega

theorem extractLsb'_not {w : Nat} (v : BitVec w) {start len : Nat} (h : start + len ≤ w) :
    (~~~v).extractLsb' start len = ~~~(v.extractLsb' start len) := by
  refine BitVec.eq_of_getLsbD_eq fun i hi => ?_
  simp [hi, show start + i < w by omega]

/-- The bytes of a complemented number are the complemented bytes: each is a field of 8 bits inside the number. -/
theorem bebytes_not {w n : Nat} (v : BitVec w) (hw : w = 8 * n) :
    bebytes (~~~v).toNat n = complementBytes (bebytes v.toNat n) := by
  rw [bebytes, bebytes, complementBytes, List.map_map]
  refine List.map_congr_left fun i hi => ?_
  have hfield : 8 * (n - 1 - i) + 8 ≤ w := by have := List.mem_range.1 hi; omega
  exact extractLsb'_not v hfield

theorem not_xor_not {w : Nat} (v u : BitVec w) : ~~~v ^^^ ~~~u = v ^^^ u := by
  rw [← BitVec.not_xor_left, ← BitVec.not_xor_right, BitVec.not_not]

/-! ### The key scheduler -/

theorem romValid_shifts {rom : Rom} (h : romValid rom = true) : ∀ n ∈ rom.shifts, n ≤ 28 := by
  simp only [romValid, Bool.and_eq_true, List.all_eq_true, decide_eq_true_eq] at h
  tauto

section Cipher

variable {rom : Rom} (hrom : romValid rom = true)

include hrom

theorem selectRoundKey_not (c d : BitVec 28) :
    KeySchedule.selectRoundKey rom (~~~c) (~~~d) = complementBytes (KeySchedule.selectRoundKey rom c d) := by
  obtain ⟨-, -, -, -, -, hlen, -⟩ := romValid_lengths hrom
  obtain ⟨-, -, -, -, -, hrange⟩ := romValid_ranges hrom
  rw [KeySchedule.selectRoundKey, ← BitVec.not_append, bebytes_not (w := 28 + 28) (c ++ d) rfl,
    bp_complementBytes (by rw [hlen]) (by rwa [length_bebytes]), KeySchedule.selectRoundKey]

theorem roundKeysFrom_not {ns : List Nat} (hns : ∀ n ∈ ns, n ≤ 28) (c d : BitVec 28) :
    roundKeysFrom rom ns (~~~c) (~~~d) = (roundKeysFrom rom ns c d).map complementBytes := by
  induction ns generalizing c d with
  | nil => rfl
  | cons n ns ih =>
    obtain ⟨hn, hns⟩ := List.forall_mem_cons.1 hns
    rw [KeySchedule.roundKeysFrom_cons rom hn, KeySchedule.roundKeysFrom_cons rom hn, KeySchedule.rotateLeft_not,
      KeySchedule.rotateLeft_not, selectRoundKey_not hrom, ih hns, List.map_cons]

theorem keyHalves_complementBytes {key : Bytes} (hkey : key.length = 8) :
    keyHalves rom (complementBytes key) = ~~~keyHalves rom key := by
  obtain ⟨-, -, -, -, hlen, -, -⟩ := romValid_lengths hrom
  obtain ⟨-, -, -, -, hrange, -⟩ := romValid_ranges hrom
  rw [keyHalves, bp_complementBytes (by rw [hlen]) (by rwa [hkey]),
    ofNat_be_complementBytes (by rw [length_bp, hlen]), keyHalves]

/-- A complemented key gives complemented round keys. -/
theorem baseRoundKeys_complementBytes {key : Bytes} (hkey : key.length = 8) :
    baseRoundKeys rom (complementBytes key) = (baseRoundKeys rom key).map complementBytes := by
  rw [baseRoundKeys, keyHalves_complementBytes hrom hkey, extractLsb'_not _ (by omega), extractLsb'_not _ (by omega),
    roundKeysFrom_not hrom (romValid_shifts hrom), baseRoundKeys]

/-! ### The rounds -/

/-- In the key mixing the complement of the half-block and that of the round key cancel. -/
theorem baseRound_complementBytes {r k : Bytes} (hr : r.length = 4) (hk : k.length = 6) :
    baseRound rom (complementBytes r) (complementBytes k) = baseRound rom r k := by
  obtain ⟨-, -, hlen, -⟩ := romValid_lengths hrom
  obtain ⟨-, -, hrange, -⟩ := romValid_ranges hrom
  have hmix : mixKey rom (complementBytes r) (complementBytes k) = mixKey rom r k := by
    rw [mixKey, bp_complementBytes (by rw [hlen]) (by rwa [hr]), ofNat_be_complementBytes (by rw [length_bp, hlen]),
      ofNat_be_complementBytes (by rw [hk]), not_xor_not, mixKey]
  rw [baseRound, hmix, baseRound]

/-- The round function gives what it gave, so its XOR with the complemented half is the complement. -/
theorem feistelRound_complementBytes {lr : Bytes × Bytes} (hlr : Feistel.Halves 4 lr) {k : Bytes} (hk : k.length = 6) :
    feistelRound (baseRound rom) (lr.map complementBytes complementBytes) (complementBytes k) =
      (feistelRound (baseRound rom) lr k).map complementBytes complementBytes := by
  obtain ⟨-, hr⟩ := hlr
  simp only [feistelRound, Prod.map, baseRound_complementBytes hrom hr hk, xorBytes_complementBytes_left]

theorem foldl_feistelRound_complementBytes {rk : List Bytes} (hrk : ∀ k ∈ rk, k.length = 6) {lr : Bytes × Bytes}
    (hlr : Feistel.Halves 4 lr) :
    (rk.map complementBytes).foldl (feistelRound (baseRound rom)) (lr.map complementBytes complementBytes) =
      (rk.foldl (feistelRound (baseRound rom)) lr).map complementBytes complementBytes := by
  induction rk generalizing lr with
  | nil => rfl
  | cons k ks ih =>
    obtain ⟨hk, hks⟩ := List.forall_mem_cons.1 hrk
    have hround : Feistel.Halves 4 (feistelRound (baseRound rom) lr k) :=
      Feistel.halves_feistelRound hlr (length_baseRound hrom _ _)
    rw [List.map_cons, List.foldl_cons, List.foldl_cons, feistelRound_complementBytes hrom hlr hk, ih hks hround]

theorem feistelEncrypt_complementBytes {rk : List Bytes} (hrk : ∀ k ∈ rk, k.length = 6) {z : Bytes}
    (hz : z.length = 8) :
    feistelEncrypt (baseRound rom) 8 (rk.map complementBytes) (complementBytes z) =
      complementBytes (feistelEncrypt (baseRound rom) 8 rk z) := by
  rw [feistelEncrypt, complementBytes_splitBlock,
    foldl_feistelRound_complementBytes hrom hrk (splitBlock_lengths (bk := 8) hz rfl), feistelEncrypt,
    complementBytes_append]
  rfl

/-- R263. -/
theorem baseEncrypt_complementBytes {key x : Bytes} (hkey : key.length = 8) (hx : x.length = 8) :
    baseEncrypt rom (baseRoundKeys rom (complementBytes key)) (complementBytes x) =
      complementBytes (baseEncrypt rom (baseRoundKeys rom key) x) := by
  obtain ⟨hip, hfp, -, -, -, hpc2, -⟩ := romValid_lengths hrom
  obtain ⟨hipRange, hfpRange, -⟩ := romValid_ranges hrom
  have hkeys : ∀ k ∈ baseRoundKeys rom key, k.length = 6 := fun k hk => by
    rw [length_of_mem_roundKeysFrom hk, hpc2]
  have hz : (bp x rom.ip).length = 8 := by rw [length_bp, hip]
  have hout : (feistelEncrypt (baseRound rom) 8 (baseRoundKeys rom key) (bp x rom.ip)).length = 8 :=
    Feistel.length_feistelEncrypt rfl hz (Feistel.keepsHalf_baseRound hrom _)
  rw [baseEncrypt, baseRoundKeys_complementBytes hrom hkey, bp_complementBytes (by rw [hip]) (by rwa [hx]),
    feistelEncrypt_complementBytes hrom hkeys hz, bp_complementBytes (by rw [hfp]) (by rwa [hout]), baseEncrypt]

end Cipher

/-- R263's example for the key and the block of zero bytes. -/
theorem baseEncrypt_zeroBytes_example :
    baseEncrypt romDefault (baseRoundKeys romDefault (zeroBytes 8)) (zeroBytes 8) =
      [0x4C#8, 0x59#8, 0x8E#8, 0xD6#8, 0xC2#8, 0x72#8, 0x13#8, 0x5B#8] := by decide +kernel

/-- Settles O42: the example's key and block of bytes `FF` are the complements of those of zero bytes, and so is its
ciphertext. -/
theorem complementationProperty : Obligations.ComplementationProperty := by
  refine ⟨fun rom k x hrom hk hx => baseEncrypt_complementBytes hrom hk hx, baseEncrypt_zeroBytes_example, ?_⟩
  have hones : List.replicate 8 0xFF#8 = complementBytes (zeroBytes 8) := rfl
  rw [hones, baseEncrypt_complementBytes romValid_default rfl rfl, baseEncrypt_zeroBytes_example]
  rfl

end Sys2Proof.Complement

/-! PROOFS of the family 43_base_cipher.md: the base cipher against FIPS DES (43_base_cipher.md R262). -/

namespace Sys2Proof.Des

open Sys2Proof Sys2Proof.Machine

theorem swap32_append {l : Bytes} (hl : l.length = 4) (r : Bytes) : swap32 (l ++ r) = r ++ l := by
  simp [swap32, ← hl]

/-- The two halves that DES joins are those the engine's rounds end with, in the other order: the engine exchanges them
after the last round too (R203). -/
theorem desRounds_eq_foldl (rom : Rom) {rk : List Bytes} (hrk : rk ≠ []) (l r : Bytes) :
    desRounds rom rk l r =
      (rk.foldl (feistelRound (baseRound rom)) (l, r)).2 ++ (rk.foldl (feistelRound (baseRound rom)) (l, r)).1 := by
  induction rk generalizing l r with
  | nil => exact absurd rfl hrk
  | cons k ks ih =>
    cases ks with
    | nil => rfl
    | cons k' ks => exact ih (List.cons_ne_nil k' ks) r (xorBytes l (baseRound rom r k))

/-- The rounds of DES and the engine differ by an exchange of the halves. -/
theorem swap32_desRounds {rom : Rom} (hrom : romValid rom = true) {rk : List Bytes} (hrk : rk ≠ []) {z : Bytes}
    (hz : z.length = 8) : swap32 (desRounds rom rk (z.take 4) (z.drop 4)) = feistelEncrypt (baseRound rom) 8 rk z := by
  obtain ⟨-, hr⟩ := Feistel.halves_foldl_feistelRound (Feistel.keepsHalf_baseRound hrom rk)
    (splitBlock_lengths (bk := 8) hz rfl)
  rw [desRounds_eq_foldl rom hrk]
  exact swap32_append hr _

theorem length_desRounds {rom : Rom} (hrom : romValid rom = true) {rk : List Bytes} (hrk : rk ≠ []) {z : Bytes}
    (hz : z.length = 8) : (desRounds rom rk (z.take 4) (z.drop 4)).length = 8 := by
  obtain ⟨hl, hr⟩ := Feistel.halves_foldl_feistelRound (Feistel.keepsHalf_baseRound hrom rk)
    (splitBlock_lengths (bk := 8) hz rfl)
  rw [desRounds_eq_foldl rom hrk, List.length_append]
  exact congrArg₂ (· + ·) hr hl

/-- R262 for any round keys: `IP` takes off the `FP` of DES, and the exchange gives the engine's halves. -/
theorem baseEncrypt_eq_swapped_desEncrypt {rk : List Bytes} (hrk : rk ≠ []) (x : Bytes) :
    baseEncrypt romDefault rk x = bp (swap32 (bp (desEncrypt romDefault rk x) romDefault.ip)) romDefault.fp := by
  have hz : (bp x romDefault.ip).length = 8 := length_bp x romDefault.ip
  rw [desEncrypt, Feistel.bp_fp_ip (length_desRounds romValid_default hrk hz), swap32_desRounds romValid_default hrk hz,
    baseEncrypt]

theorem baseRoundKeys_ne_nil (key : Bytes) : baseRoundKeys romDefault key ≠ [] :=
  List.ne_nil_of_length_pos (by rw [length_baseRoundKeys]; decide)

/-- The published DES ciphertext of R262's example. -/
theorem desEncrypt_example :
    desEncrypt romDefault
        (baseRoundKeys romDefault [0x13#8, 0x34#8, 0x57#8, 0x79#8, 0x9B#8, 0xBC#8, 0xDF#8, 0xF1#8])
        [0x01#8, 0x23#8, 0x45#8, 0x67#8, 0x89#8, 0xAB#8, 0xCD#8, 0xEF#8] =
      [0x85#8, 0xE8#8, 0x13#8, 0x54#8, 0x0F#8, 0x0A#8, 0xB4#8, 0x05#8] := by decide +kernel

/-- The exchange between `IP` and `FP` makes of the DES ciphertext of R262's example the engine's. -/
theorem swapped_desEncrypt_example :
    bp (swap32 (bp [0x85#8, 0xE8#8, 0x13#8, 0x54#8, 0x0F#8, 0x0A#8, 0xB4#8, 0x05#8] romDefault.ip)) romDefault.fp =
      [0x4A#8, 0xD4#8, 0x23#8, 0xA8#8, 0x0F#8, 0x05#8, 0x78#8, 0x0A#8] := by decide +kernel

/-- Settles O45: the engine's vector follows from that of DES by the relation itself. -/
theorem baseCipherIsDesWithSwapKept : Obligations.BaseCipherIsDesWithSwapKept := by
  refine ⟨fun key x _ _ => baseEncrypt_eq_swapped_desEncrypt (baseRoundKeys_ne_nil key) x, desEncrypt_example, ?_⟩
  rw [baseEncrypt_eq_swapped_desEncrypt (baseRoundKeys_ne_nil _), desEncrypt_example, swapped_desEncrypt_example]

end Sys2Proof.Des

/-! PROOFS of the family 44_compound_cipher.md: the compound key scheduler (44_compound_cipher.md R285). -/

namespace Sys2Proof.CompoundSchedule

open Sys2Proof Sys2Proof.Machine

theorem compKeySchedule_of_legalLength {key : Bytes} (h : key.length = 16 ∨ key.length = 24 ∨ key.length = 32) :
    compKeySchedule key = .ok ((List.range 16).map fun i => keySegment key (i % (key.length / 8))) := if_pos h

theorem compKeySchedule_of_illegalLength {key : Bytes}
    (h : ¬ (key.length = 16 ∨ key.length = 24 ∨ key.length = 32)) :
    compKeySchedule key = .error .invalidArgument := if_neg h

/-- R285: the segments are the raw key bytes, eight after eight. -/
theorem getD_keySegment (key : Bytes) (n : Nat) {j : Nat} (hj : j < 8) :
    (keySegment key n).getD j 0#8 = key.getD (8 * n + j) 0#8 := by
  simp [keySegment, List.getD_eq_getElem?_getD, List.getElem?_take_of_lt hj]

/-- At a legal length the key holds the segment of every round whole. -/
theorem segment_of_round_le {n : Nat} (h : n = 16 ∨ n = 24 ∨ n = 32) (i : Nat) : 8 * (i % (n / 8)) + 8 ≤ n := by
  have hi : i % (n / 8) < n / 8 := Nat.mod_lt i (by omega)
  omega

/-- Settles O44: round `i` takes the segment `i mod m`, which lies inside a key of legal length. -/
theorem compoundScheduleIsCyclic : Obligations.CompoundScheduleIsCyclic := by
  intro key
  refine ⟨compKeySchedule_of_illegalLength, fun hlen => ⟨_, compKeySchedule_of_legalLength hlen, by simp, ?_⟩⟩
  intro i hi
  have round_key : ((List.range 16).map fun i => keySegment key (i % (key.length / 8))).getD i [] =
      keySegment key (i % (key.length / 8)) := by simp [hi]
  rw [round_key]
  exact ⟨Results.length_keySegment (segment_of_round_le hlen i), fun j hj => getD_keySegment key _ hj⟩

end Sys2Proof.CompoundSchedule

/-! PROOFS of the family 45_modes.md, block lists: what a buffer is cut into, and a chain of blocks in which each output
depends on the block before it, in the input and in the output (45_modes.md R313, R314). -/

namespace Sys2Proof.BlockChain

open Sys2Proof Sys2Proof.Machine

/-! ### The blocks of a buffer (R313) -/

theorem blocks_append {B : Nat} (hB : 0 < B) {b : Bytes} (hb : b.length = B) (d : Bytes) :
    blocks B (b ++ d) = b :: blocks B d := by
  have hne : b ++ d ≠ [] := List.append_ne_nil_of_left_ne_nil (List.ne_nil_of_length_pos (hb ▸ hB)) d
  rw [blocks_of_ne_nil hB hne, List.take_left' hb, List.drop_left' hb]

theorem blocks_of_length_le {B : Nat} (hB : 0 < B) {b : Bytes} (hne : b ≠ []) (hb : b.length ≤ B) :
    blocks B b = [b] := by
  rw [blocks_of_ne_nil hB hne, List.take_of_length_le hb, List.drop_of_length_le hb, blocks_nil]

/-- Block `i` of the list is block `i` of the equations, as far as the buffer goes. -/
theorem getElem?_blocks {B : Nat} (hB : 0 < B) (d : Bytes) (i : Nat) :
    (blocks B d)[i]? = if B * i < d.length then some (blockOf B d i) else none := by
  induction i generalizing d with
  | zero =>
    by_cases hd : d = []
    · simp [hd]
    · simp [blocks_of_ne_nil hB hd, blockOf_zero, List.length_pos_iff.2 hd]
  | succ i ih =>
    by_cases hd : d = []
    · simp [hd]
    · rw [blocks_of_ne_nil hB hd, List.getElem?_cons_succ, ih, blockOf_succ, List.length_drop, Nat.mul_succ]
      exact if_congr (by omega) rfl rfl

/-- The block before block `i` is entry `i` of the list with the IV in front. -/
theorem getD_cons_blocks {B : Nat} (hB : 0 < B) (iv d : Bytes) (i : Nat) :
    (iv :: blocks B d).getD i [] = blockBefore B iv d i := by
  cases i with
  | zero => rfl
  | succ i =>
    rw [List.getD_cons_succ, List.getD_eq_getElem?_getD, getElem?_blocks hB, blockBefore_succ]
    split
    · rfl
    · have hempty : (blockOf B d i).length = 0 := by rw [length_blockOf]; omega
      exact (List.eq_nil_of_length_eq_zero hempty).symm

/-- The block lists of buffers: whole blocks, and behind them, where `ragged` allows it, a short last block. -/
inductive BlockList (B : Nat) (ragged : Prop) : List Bytes → Prop
  | nil : BlockList B ragged []
  | last {b : Bytes} : ragged → b ≠ [] → b.length < B → BlockList B ragged [b]
  | whole {b : Bytes} {bs : List Bytes} : b.length = B → BlockList B ragged bs → BlockList B ragged (b :: bs)

theorem blockList_blocks {B : Nat} {ragged : Prop} (hB : 0 < B) {d : Bytes} (hd : ¬ ragged → d.length % B = 0) :
    BlockList B ragged (blocks B d) := by
  induction hn : d.length using Nat.strong_induction_on generalizing d with
  | _ n ih =>
    by_cases hnil : d = []
    · rw [hnil]; exact .nil
    have hpos := List.length_pos_iff.2 hnil
    by_cases hlt : d.length < B
    · rw [blocks_of_length_le hB hnil hlt.le]
      refine .last (by_contra fun h => ?_) hnil hlt
      have hmod := hd h
      rw [Nat.mod_eq_of_lt hlt] at hmod
      omega
    · rw [blocks_of_ne_nil hB hnil]
      refine .whole (by simp; omega) (ih (d.drop B).length (by simp; omega) (fun h => ?_) rfl)
      rw [List.length_drop, ← Nat.mod_eq_sub_mod (by omega), hd h]

/-- Such a list joined and cut again is the same list. -/
theorem BlockList.blocks_flatten {B : Nat} {ragged : Prop} (hB : 0 < B) {bs : List Bytes} (h : BlockList B ragged bs) :
    blocks B bs.flatten = bs := by
  induction h with
  | nil => rfl
  | last _ hne hlt => rw [List.flatten_singleton, blocks_of_length_le hB hne hlt.le]
  | whole hb _ ih => rw [List.flatten_cons, blocks_append hB hb, ih]

/-! ### Chains -/

/-- What a chain makes of block `i`, counted from 0: a function of `i`, the block before it in the input, the block before
it in the output, and the block itself. -/
abbrev BlockFn := Nat → Bytes → Bytes → Bytes → Bytes

/-- The output blocks from block `i` on, after the input block `px` and the output block `py`. -/
def chainRun (f : BlockFn) : Nat → Bytes → Bytes → List Bytes → List Bytes
  | _, _, _, [] => []
  | i, px, py, x :: xs => f i px py x :: chainRun f (i + 1) x (f i px py x) xs

/-- A chain over a buffer, the IV before the first block on both sides. -/
def chain (f : BlockFn) (B : Nat) (iv d : Bytes) : Bytes := (chainRun f 0 iv iv (blocks B d)).flatten

/-- Output block `k`, from input block `k` and the blocks before it on both sides. -/
theorem getElem?_chainRun (f : BlockFn) (i : Nat) (px py : Bytes) (bs : List Bytes) (k : Nat) :
    (chainRun f i px py bs)[k]? =
      bs[k]?.map (f (i + k) ((px :: bs).getD k []) ((py :: chainRun f i px py bs).getD k [])) := by
  induction bs generalizing i px py k with
  | nil => simp [chainRun]
  | cons x xs ih =>
    cases k with
    | zero => rfl
    | succ k =>
      rw [chainRun, List.getElem?_cons_succ, ih, List.getElem?_cons_succ, List.getD_cons_succ, List.getD_cons_succ,
        Nat.add_right_comm, Nat.add_assoc]

/-- A block that a chain may meet: a whole one, or, where `ragged` allows it, a shorter one. -/
def LegalBlock (B : Nat) (ragged : Prop) (x : Bytes) : Prop := x.length = B ∨ ragged ∧ x.length ≤ B

theorem LegalBlock.length_le {B : Nat} {ragged : Prop} {x : Bytes} (hx : LegalBlock B ragged x) : x.length ≤ B :=
  hx.elim (·.le) (·.2)

theorem LegalBlock.whole {B : Nat} {ragged : Prop} {x : Bytes} (hx : LegalBlock B ragged x) (h : ¬ ragged) : x.length = B :=
  hx.resolve_right fun hr => h hr.1

/-- After blocks of `B` bytes the function makes of a block one of the same length. -/
def KeepsLength (B : Nat) (ragged : Prop) (f : BlockFn) : Prop :=
  ∀ i px py x, px.length = B → py.length = B → LegalBlock B ragged x → (f i px py x).length = x.length

/-- `g` gives back the block that `f` was given, the sides exchanged. -/
def Undoes (B : Nat) (ragged : Prop) (g f : BlockFn) : Prop :=
  ∀ i px py x, px.length = B → py.length = B → LegalBlock B ragged x → g i py px (f i px py x) = x

section ChainRun

variable {B : Nat} {ragged : Prop} {f g : BlockFn} {px py : Bytes} {bs : List Bytes}

/-- The output is cut where the input is. -/
theorem blockList_chainRun (hf : KeepsLength B ragged f) (hbs : BlockList B ragged bs) (i : Nat) (hpx : px.length = B)
    (hpy : py.length = B) : BlockList B ragged (chainRun f i px py bs) := by
  induction hbs generalizing i px py with
  | nil => exact .nil
  | last hr hne hlt =>
    have hlen := hf i px py _ hpx hpy (.inr ⟨hr, hlt.le⟩)
    exact .last hr (List.ne_nil_of_length_pos (hlen ▸ List.length_pos_iff.2 hne)) (hlen.trans_lt hlt)
  | whole hb _ ih =>
    have hlen := (hf i px py _ hpx hpy (.inl hb)).trans hb
    exact .whole hlen (ih (i + 1) hb hlen)

theorem length_flatten_chainRun (hf : KeepsLength B ragged f) (hbs : BlockList B ragged bs) (i : Nat)
    (hpx : px.length = B) (hpy : py.length = B) : (chainRun f i px py bs).flatten.length = bs.flatten.length := by
  induction hbs generalizing i px py with
  | nil => rfl
  | last hr _ hlt => simpa [chainRun] using hf i px py _ hpx hpy (.inr ⟨hr, hlt.le⟩)
  | whole hb _ ih =>
    have hlen := hf i px py _ hpx hpy (.inl hb)
    rw [chainRun, List.flatten_cons, List.flatten_cons, List.length_append, List.length_append, hlen,
      ih (i + 1) hb (hlen.trans hb)]

/-- The chains run in step: what `g` has put out is what `f` was given, and the other way round. -/
theorem chainRun_chainRun (hf : KeepsLength B ragged f) (hgf : Undoes B ragged g f) (hbs : BlockList B ragged bs) (i : Nat)
    (hpx : px.length = B) (hpy : py.length = B) : chainRun g i py px (chainRun f i px py bs) = bs := by
  induction hbs generalizing i px py with
  | nil => rfl
  | last hr _ hlt => simpa [chainRun] using hgf i px py _ hpx hpy (.inr ⟨hr, hlt.le⟩)
  | whole hb _ ih =>
    have hlen := (hf i px py _ hpx hpy (.inl hb)).trans hb
    rw [chainRun, chainRun, hgf i px py _ hpx hpy (.inl hb), ih (i + 1) hb hlen]

/-- A function that makes of the first bytes of a block the first bytes of its output. -/
def TakesPrefix (f : BlockFn) : Prop := ∀ i px py x n, f i px py (x.take n) = (f i px py x).take n

/-- The first bytes of one block, which may be none. -/
theorem flatten_chainRun_take_block (hB : 0 < B) (hr : ragged) (hf : KeepsLength B ragged f) (htake : TakesPrefix f)
    {b : Bytes} (hb : b.length ≤ B) (i n : Nat) (hpx : px.length = B) (hpy : py.length = B) :
    (chainRun f i px py (blocks B (b.take n))).flatten = (f i px py b).take n := by
  rw [← htake]
  by_cases hnil : b.take n = []
  · have hlen := hf i px py [] hpx hpy (.inr ⟨hr, Nat.zero_le B⟩)
    rw [hnil, List.eq_nil_of_length_eq_zero hlen]
    rfl
  · rw [blocks_of_length_le hB hnil (by simp; omega)]
    exact List.flatten_singleton

theorem take_add_append {b : Bytes} (hb : b.length = B) (d : Bytes) (m : Nat) :
    (b ++ d).take (B + m) = b ++ d.take m := by rw [← hb, List.take_length_add_append]

/-- The same across blocks. -/
theorem flatten_chainRun_take (hB : 0 < B) (hr : ragged) (hf : KeepsLength B ragged f) (htake : TakesPrefix f)
    (hbs : BlockList B ragged bs) (i n : Nat) (hpx : px.length = B) (hpy : py.length = B) :
    (chainRun f i px py (blocks B (bs.flatten.take n))).flatten = (chainRun f i px py bs).flatten.take n := by
  induction hbs generalizing i n px py with
  | nil => simp [chainRun]
  | last _ _ hlt =>
    rw [List.flatten_singleton, flatten_chainRun_take_block hB hr hf htake hlt.le i n hpx hpy]
    simp [chainRun]
  | @whole b bs hb _ ih =>
    have hlen := (hf i px py b hpx hpy (.inl hb)).trans hb
    rw [chainRun, List.flatten_cons, List.flatten_cons]
    rcases Nat.le_total n B with hn | hn
    · rw [List.take_append_of_le_length (hn.trans hb.ge), List.take_append_of_le_length (hn.trans hlen.ge),
        flatten_chainRun_take_block hB hr hf htake hb.le i n hpx hpy]
    · obtain ⟨m, rfl⟩ := Nat.exists_eq_add_of_le hn
      rw [take_add_append hb, take_add_append hlen, blocks_append hB hb, chainRun, List.flatten_cons,
        ih (i + 1) m hb hlen]

end ChainRun

section Chain

variable {B : Nat} {ragged : Prop} {f g : BlockFn} {iv d : Bytes}
  (hB : 0 < B) (hiv : iv.length = B) (hf : KeepsLength B ragged f) (hd : ¬ ragged → d.length % B = 0)

include hB hiv hf hd

theorem blocks_chain : blocks B (chain f B iv d) = chainRun f 0 iv iv (blocks B d) :=
  (blockList_chainRun hf (blockList_blocks hB hd) 0 hiv hiv).blocks_flatten hB

theorem length_chain : (chain f B iv d).length = d.length := by
  rw [chain, length_flatten_chainRun hf (blockList_blocks hB hd) 0 hiv hiv, Results.flatten_blocks hB]

/-- The equation of block `i`. -/
theorem blockOf_chain {i : Nat} (hi : B * i < d.length) :
    blockOf B (chain f B iv d) i =
      f i (blockBefore B iv d i) (blockBefore B iv (chain f B iv d) i) (blockOf B d i) := by
  have hblock := getElem?_chainRun f 0 iv iv (blocks B d) i
  rw [← blocks_chain hB hiv hf hd, getD_cons_blocks hB, getD_cons_blocks hB, getElem?_blocks hB, getElem?_blocks hB,
    length_chain hB hiv hf hd, if_pos hi, if_pos hi, Nat.zero_add] at hblock
  exact Option.some.inj hblock

theorem chain_chain (hgf : Undoes B ragged g f) : chain g B iv (chain f B iv d) = d := by
  rw [chain, blocks_chain hB hiv hf hd, chainRun_chainRun hf hgf (blockList_blocks hB hd) 0 hiv hiv,
    Results.flatten_blocks hB]

theorem chain_take (hr : ragged) (htake : TakesPrefix f) (n : Nat) :
    chain f B iv (d.take n) = (chain f B iv d).take n := by
  have h := flatten_chainRun_take hB hr hf htake (blockList_blocks hB hd) 0 n hiv hiv
  rwa [Results.flatten_blocks hB] at h

end Chain

end Sys2Proof.BlockChain

/-! PROOFS of the family 45_modes.md, the modes over any block functions: every mode is a chain of blocks, and the equations,
the inversion and the stream-like modes' prefixes are those of its chain (45_modes.md R313 to R319, R323, R324, R330). -/

namespace Sys2Proof.ModeEquations

open Sys2Proof Sys2Proof.Machine Sys2Proof.BlockChain

/-! ### The counter of CTR (R323) -/

theorem be_lt (x : Bytes) : be x < 2 ^ (8 * x.length) := by
  have hsum := Complement.be_complementBytes_add x
  omega

/-- A byte sequence is the bytes of its number. -/
theorem bebytes_be (x : Bytes) : bebytes (be x) x.length = x := by
  induction x using List.reverseRecOn with
  | nil => rfl
  | append_singleton x b ih =>
    have hb : b.toNat < 256 := b.isLt
    have hhigh : (be x * 256 + b.toNat) / 256 = be x := by omega
    have hlow : BitVec.ofNat 8 (be x * 256 + b.toNat) = b := BitVec.eq_of_toNat_eq (by simp; omega)
    rw [List.length_append, List.length_singleton, BigEndian.bebytes_succ, BigEndian.be_concat, hhigh, hlow, ih]

theorem bebytes_zero (n : Nat) : bebytes 0 n = zeroBytes n := by
  rw [bebytes, zeroBytes, List.eq_replicate_iff]
  simp

/-- The counter block of block `i`: the IV plus `i` (R323). -/
def counterBlock (B : Nat) (iv : Bytes) (i : Nat) : Bytes := bebytes ((be iv + i) % 2 ^ (8 * B)) B

@[simp] theorem length_counterBlock (B : Nat) (iv : Bytes) (i : Nat) : (counterBlock B iv i).length = B := by
  simp [counterBlock]

theorem counterBlock_zero {B : Nat} {iv : Bytes} (hiv : iv.length = B) : counterBlock B iv 0 = iv := by
  subst hiv
  rw [counterBlock, Nat.add_zero, Nat.mod_eq_of_lt (be_lt iv), bebytes_be]

theorem ctrIncrement_counterBlock (B : Nat) (iv : Bytes) (i : Nat) :
    ctrIncrement B (counterBlock B iv i) = counterBlock B iv (i + 1) := by
  rw [ctrIncrement, counterBlock, counterBlock, BigEndian.be_bebytes, Nat.mod_mod, Nat.mod_add_mod, Nat.add_assoc]

/-- A number of ones only is one short of `2^(8n)`. -/
theorem be_add_one_of_ones {x : Bytes} (h : ∀ b ∈ x, b = 0xFF#8) : be x + 1 = 2 ^ (8 * x.length) := by
  have hcompl : complementBytes x = zeroBytes x.length := by
    rw [complementBytes, List.map_congr_left (g := fun _ => 0#8) fun b hb => by rw [h b hb]; rfl, List.map_const']
    rfl
  have hsum := Complement.be_complementBytes_add x
  rw [hcompl, ← bebytes_zero, BigEndian.be_bebytes, Nat.zero_mod] at hsum
  omega

/-- Settles O52: the increment's bytes are those of the sum, and of `FF .. FF` the sum is `2^(8B)` itself. -/
theorem ctrIncrementIsBigEndian : Obligations.CtrIncrementIsBigEndian := by
  rintro B ctr rfl
  refine ⟨length_ctrIncrement _ _, ?_, fun hones => ?_⟩
  · rw [ctrIncrement, BigEndian.be_bebytes, Nat.mod_mod]
  · rw [ctrIncrement, be_add_one_of_ones hones, Nat.mod_self, bebytes_zero]

/-! ### What a mode does to one block -/

/-- The keystream block of a stream-like mode, from the ciphertext block before (R318, R319, R323). -/
def keystream (E : Bytes → Bytes) (B : Nat) (mode : Mode) (iv : Bytes) (i : Nat) (pc : Bytes) : Bytes :=
  match mode with
  | .cfb => E pc
  | .ofb => E^[i + 1] iv
  | .ctr => E (counterBlock B iv i)
  | .ecb => []
  | .cbc => []
  | .pcbc => []
  | .randomDelta => []

/-- What a padded mode adds to a block, from the plaintext and the ciphertext block before (R315 to R317, R324). -/
def mask (delta : Nat → Bytes) (mode : Mode) (i : Nat) (pp pc x : Bytes) : Bytes :=
  match mode with
  | .cbc => xorBytes x pc
  | .pcbc => xorBytes (xorBytes x pp) pc
  | .randomDelta => xorBytes (xorBytes x pc) (delta (i + 1))
  | .ecb => x
  | .cfb => x
  | .ofb => x
  | .ctr => x

/-- A plaintext block encrypted. -/
def encryptBlock (E : Bytes → Bytes) (delta : Nat → Bytes) (B : Nat) (mode : Mode) (iv : Bytes) : BlockFn :=
  fun i pp pc p =>
    if streamMode mode then xorKeystream p (keystream E B mode iv i pc) else E (mask delta mode i pp pc p)

/-- A ciphertext block decrypted. -/
def decryptBlock (E D : Bytes → Bytes) (delta : Nat → Bytes) (B : Nat) (mode : Mode) (iv : Bytes) : BlockFn :=
  fun i pc pp c =>
    if streamMode mode then xorKeystream c (keystream E B mode iv i pc) else mask delta mode i pp pc (D c)

theorem keystreamBlock_eq (E : Bytes → Bytes) (B : Nat) (mode : Mode) (iv c : Bytes) (i : Nat) :
    keystreamBlock E B mode iv c i = keystream E B mode iv i (blockBefore B iv c i) := by cases mode <;> rfl

theorem chained_eq (delta : Nat → Bytes) (B : Nat) (mode : Mode) (iv p c : Bytes) (i : Nat) (x : Bytes) :
    chained delta B mode iv p c i x = mask delta mode i (blockBefore B iv p i) (blockBefore B iv c i) x := by
  cases mode <;> rfl

/-- The equations of the encryption side are those of the chain of `encryptBlock`. -/
theorem encryptsTo_iff {E : Bytes → Bytes} {delta : Nat → Bytes} {B : Nat} {mode : Mode} {iv p c : Bytes} :
    encryptsTo E delta B mode iv p c ↔ c.length = p.length ∧ ∀ i, B * i < p.length →
      blockOf B c i =
        encryptBlock E delta B mode iv i (blockBefore B iv p i) (blockBefore B iv c i) (blockOf B p i) := by
  simp only [encryptsTo, keystreamBlock_eq, chained_eq, encryptBlock, xorKeystream]

theorem decryptsTo_iff {E D : Bytes → Bytes} {delta : Nat → Bytes} {B : Nat} {mode : Mode} {iv c p : Bytes} :
    decryptsTo E D delta B mode iv c p ↔ p.length = c.length ∧ ∀ i, B * i < c.length →
      blockOf B p i =
        decryptBlock E D delta B mode iv i (blockBefore B iv c i) (blockBefore B iv p i) (blockOf B c i) := by
  simp only [decryptsTo, keystreamBlock_eq, chained_eq, decryptBlock, xorKeystream]

/-! ### Every mode is a chain -/

section Chains

variable (E D F : Bytes → Bytes) (delta : Nat → Bytes) (B : Nat) (iv : Bytes) (i : Nat) (px py : Bytes) (bs : List Bytes)

theorem ecbRun_eq_chainRun : ecbRun F bs = chainRun (fun _ _ _ x => F x) i px py bs := by
  induction bs generalizing i px py with
  | nil => rfl
  | cons x xs ih => exact congrArg (F x :: ·) (ih _ _ _)

theorem cbcEncrypt_eq_chainRun : cbcEncrypt E py bs = chainRun (encryptBlock E delta B .cbc iv) i px py bs := by
  induction bs generalizing i px py with
  | nil => rfl
  | cons p ps ih => exact congrArg (E (xorBytes p py) :: ·) (ih _ _ _)

theorem cbcDecrypt_eq_chainRun : cbcDecrypt D px bs = chainRun (decryptBlock E D delta B .cbc iv) i px py bs := by
  induction bs generalizing i px py with
  | nil => rfl
  | cons c cs ih => exact congrArg (xorBytes (D c) px :: ·) (ih _ _ _)

theorem pcbcEncrypt_eq_chainRun :
    pcbcEncrypt E px py bs = chainRun (encryptBlock E delta B .pcbc iv) i px py bs := by
  induction bs generalizing i px py with
  | nil => rfl
  | cons p ps ih => exact congrArg (E (xorBytes (xorBytes p px) py) :: ·) (ih _ _ _)

theorem pcbcDecrypt_eq_chainRun :
    pcbcDecrypt D py px bs = chainRun (decryptBlock E D delta B .pcbc iv) i px py bs := by
  induction bs generalizing i px py with
  | nil => rfl
  | cons c cs ih => exact congrArg (xorBytes (xorBytes (D c) py) px :: ·) (ih _ _ _)

theorem cfbEncrypt_eq_chainRun : cfbEncrypt E py bs = chainRun (encryptBlock E delta B .cfb iv) i px py bs := by
  induction bs generalizing i px py with
  | nil => rfl
  | cons p ps ih => exact congrArg (xorKeystream p (E py) :: ·) (ih _ _ _)

theorem cfbDecrypt_eq_chainRun : cfbDecrypt E px bs = chainRun (decryptBlock E D delta B .cfb iv) i px py bs := by
  induction bs generalizing i px py with
  | nil => rfl
  | cons c cs ih => exact congrArg (xorKeystream c (E px) :: ·) (ih _ _ _)

/-- Either direction: the keystream reads neither side. -/
theorem ofbRun_eq_chainRun :
    ofbRun E (E^[i] iv) bs = chainRun (fun i _ _ x => xorKeystream x (E^[i + 1] iv)) i px py bs := by
  induction bs generalizing i px py with
  | nil => rfl
  | cons x xs ih =>
    rw [ofbRun, chainRun, ← Function.iterate_succ_apply' E]
    exact congrArg (xorKeystream x (E^[i + 1] iv) :: ·) (ih _ _ _)

theorem ctrRun_eq_chainRun :
    ctrRun E B (counterBlock B iv i) bs =
      chainRun (fun i _ _ x => xorKeystream x (E (counterBlock B iv i))) i px py bs := by
  induction bs generalizing i px py with
  | nil => rfl
  | cons x xs ih =>
    rw [ctrRun, chainRun, ctrIncrement_counterBlock]
    exact congrArg (xorKeystream x (E (counterBlock B iv i)) :: ·) (ih _ _ _)

theorem deltaEncrypt_eq_chainRun :
    deltaEncrypt E delta (i + 1) py bs = chainRun (encryptBlock E delta B .randomDelta iv) i px py bs := by
  induction bs generalizing i px py with
  | nil => rfl
  | cons p ps ih => exact congrArg (E (xorBytes (xorBytes p py) (delta (i + 1))) :: ·) (ih _ _ _)

theorem deltaDecrypt_eq_chainRun :
    deltaDecrypt D delta (i + 1) px bs = chainRun (decryptBlock E D delta B .randomDelta iv) i px py bs := by
  induction bs generalizing i px py with
  | nil => rfl
  | cons c cs ih => exact congrArg (xorBytes (xorBytes (D c) px) (delta (i + 1)) :: ·) (ih _ _ _)

end Chains

/-- `ModeEncrypt` is the chain of `encryptBlock`; the registers start from the IV (R312). -/
theorem modeEncrypt_eq_chain {E : Bytes → Bytes} {delta : Nat → Bytes} {B : Nat} {mode : Mode} {iv : Bytes}
    (hiv : iv.length = B) (p : Bytes) :
    modeEncrypt E delta B mode iv p = chain (encryptBlock E delta B mode iv) B iv p := by
  cases mode with
  | ecb => exact congrArg List.flatten (ecbRun_eq_chainRun E 0 iv iv _)
  | cbc => exact congrArg List.flatten (cbcEncrypt_eq_chainRun E delta B iv 0 iv iv _)
  | pcbc => exact congrArg List.flatten (pcbcEncrypt_eq_chainRun E delta B iv 0 iv iv _)
  | cfb => exact congrArg List.flatten (cfbEncrypt_eq_chainRun E delta B iv 0 iv iv _)
  | ofb => exact congrArg List.flatten (ofbRun_eq_chainRun E iv 0 iv iv _)
  | ctr =>
    have h := ctrRun_eq_chainRun E B iv 0 iv iv (blocks B p)
    rw [counterBlock_zero hiv] at h
    exact congrArg List.flatten h
  | randomDelta => exact congrArg List.flatten (deltaEncrypt_eq_chainRun E delta B iv 0 iv iv _)

theorem modeDecrypt_eq_chain {E D : Bytes → Bytes} {delta : Nat → Bytes} {B : Nat} {mode : Mode} {iv : Bytes}
    (hiv : iv.length = B) (c : Bytes) :
    modeDecrypt E D delta B mode iv c = chain (decryptBlock E D delta B mode iv) B iv c := by
  cases mode with
  | ecb => exact congrArg List.flatten (ecbRun_eq_chainRun D 0 iv iv _)
  | cbc => exact congrArg List.flatten (cbcDecrypt_eq_chainRun E D delta B iv 0 iv iv _)
  | pcbc => exact congrArg List.flatten (pcbcDecrypt_eq_chainRun E D delta B iv 0 iv iv _)
  | cfb => exact congrArg List.flatten (cfbDecrypt_eq_chainRun E D delta B iv 0 iv iv _)
  | ofb => exact congrArg List.flatten (ofbRun_eq_chainRun E iv 0 iv iv _)
  | ctr =>
    have h := ctrRun_eq_chainRun E B iv 0 iv iv (blocks B c)
    rw [counterBlock_zero hiv] at h
    exact congrArg List.flatten h
  | randomDelta => exact congrArg List.flatten (deltaDecrypt_eq_chainRun E D delta B iv 0 iv iv _)

/-! ### One block decrypted is the block encrypted -/

/-- A function that makes of `B` bytes `B` bytes. -/
def KeepsBlock (B : Nat) (F : Bytes → Bytes) : Prop := ∀ x : Bytes, x.length = B → (F x).length = B

theorem KeepsBlock.iterate {B : Nat} {F : Bytes → Bytes} (hF : KeepsBlock B F) {x : Bytes} (hx : x.length = B) (n : Nat) :
    (F^[n] x).length = B := by
  induction n with
  | zero => exact hx
  | succ n ih =>
    rw [Function.iterate_succ_apply']
    exact hF _ ih

/-- A keystream taken off again; only its first bytes are used. -/
theorem xorKeystream_cancel {x ks : Bytes} (h : x.length ≤ ks.length) : xorKeystream (xorKeystream x ks) ks = x := by
  have hlen : (xorKeystream x ks).length = x.length := by rw [length_xorKeystream, Nat.min_eq_left h]
  rw [xorKeystream, hlen, xorKeystream, xorBytes_cancel (by simp [h])]

/-- Cutting the block cuts the keystream with it (R313). -/
theorem xorKeystream_take (x ks : Bytes) (n : Nat) : xorKeystream (x.take n) ks = (xorKeystream x ks).take n := by
  simp [xorKeystream, xorBytes, List.take_zipWith, List.take_take]

section Blocks

variable {E D : Bytes → Bytes} {delta : Nat → Bytes} {B : Nat} {mode : Mode} {iv : Bytes}

theorem length_keystream (hE : KeepsBlock B E) (hiv : iv.length = B) (hm : streamMode mode = true) (i : Nat) {pc : Bytes}
    (hpc : pc.length = B) : (keystream E B mode iv i pc).length = B := by
  cases mode with
  | cfb => exact hE pc hpc
  | ofb => exact hE.iterate hiv (i + 1)
  | ctr => exact hE _ (length_counterBlock B iv i)
  | _ => cases hm

theorem length_mask (hdelta : mode = .randomDelta → ∀ i, (delta i).length = B) (i : Nat) {pp pc x : Bytes}
    (hpp : pp.length = B) (hpc : pc.length = B) (hx : x.length = B) : (mask delta mode i pp pc x).length = B := by
  cases mode with
  | randomDelta => simp [mask, hx, hpc, hdelta rfl]
  | _ => simp [mask, hx, hpp, hpc]

/-- XOR in pairs: what a mode adds ahead of `E` it takes off behind `D`. -/
theorem mask_mask (hdelta : mode = .randomDelta → ∀ i, (delta i).length = B) (i : Nat) {pp pc x : Bytes}
    (hpp : pp.length = B) (hpc : pc.length = B) (hx : x.length = B) :
    mask delta mode i pp pc (mask delta mode i pp pc x) = x := by
  have twice : ∀ {y z : Bytes}, y.length = B → z.length = B →
      xorBytes (xorBytes (xorBytes (xorBytes x y) z) y) z = x := by
    intro y z hy hz
    rw [xorBytes_assoc x y z, xorBytes_assoc _ y z, xorBytes_cancel (by simp [hx, hy, hz])]
  cases mode with
  | cbc => exact xorBytes_cancel (hx.trans hpc.symm).le
  | pcbc => exact twice hpp hpc
  | randomDelta => exact twice hpc (hdelta rfl (i + 1))
  | _ => rfl

variable (hE : KeepsBlock B E) (hiv : iv.length = B) (hdelta : mode = .randomDelta → ∀ i, (delta i).length = B)

include hE hiv hdelta

theorem keepsLength_encryptBlock : KeepsLength B (streamMode mode = true) (encryptBlock E delta B mode iv) := by
  intro i pp pc p hpp hpc hp
  by_cases hm : streamMode mode = true
  · rw [encryptBlock, if_pos hm, length_xorKeystream, length_keystream hE hiv hm i hpc, Nat.min_eq_left hp.length_le]
  · rw [encryptBlock, if_neg hm, hE _ (length_mask hdelta i hpp hpc (hp.whole hm)), hp.whole hm]

theorem keepsLength_decryptBlock (hD : KeepsBlock B D) :
    KeepsLength B (streamMode mode = true) (decryptBlock E D delta B mode iv) := by
  intro i pc pp c hpc hpp hc
  by_cases hm : streamMode mode = true
  · rw [decryptBlock, if_pos hm, length_xorKeystream, length_keystream hE hiv hm i hpc, Nat.min_eq_left hc.length_le]
  · rw [decryptBlock, if_neg hm, length_mask hdelta i hpp hpc (hD _ (hc.whole hm)), hc.whole hm]

theorem decryptBlock_undoes_encryptBlock (hDE : ∀ x : Bytes, x.length = B → D (E x) = x) :
    Undoes B (streamMode mode = true) (decryptBlock E D delta B mode iv) (encryptBlock E delta B mode iv) := by
  intro i pp pc p hpp hpc hp
  by_cases hm : streamMode mode = true
  · rw [decryptBlock, encryptBlock, if_pos hm, if_pos hm,
      xorKeystream_cancel (hp.length_le.trans_eq (length_keystream hE hiv hm i hpc).symm)]
  · have hx := hp.whole hm
    rw [decryptBlock, encryptBlock, if_neg hm, if_neg hm, hDE _ (length_mask hdelta i hpp hpc hx),
      mask_mask hdelta i hpp hpc hx]

end Blocks

theorem encryptBlock_takesPrefix {E : Bytes → Bytes} {delta : Nat → Bytes} {B : Nat} {mode : Mode} {iv : Bytes}
    (hm : streamMode mode = true) : TakesPrefix (encryptBlock E delta B mode iv) := by
  intro i pp pc p n
  rw [encryptBlock, encryptBlock, if_pos hm, if_pos hm, xorKeystream_take]

/-! ### The statements over any block functions -/

section Modes

variable {E D : Bytes → Bytes} {delta : Nat → Bytes} {B : Nat} {mode : Mode} {iv p : Bytes}
  (hB : 0 < B) (hE : KeepsBlock B E) (hiv : iv.length = B)
  (hdelta : mode = .randomDelta → ∀ i, (delta i).length = B) (hp : ¬ streamMode mode = true → p.length % B = 0)

include hB hE hiv hdelta hp

theorem length_modeEncrypt : (modeEncrypt E delta B mode iv p).length = p.length := by
  rw [modeEncrypt_eq_chain hiv, length_chain hB hiv (keepsLength_encryptBlock hE hiv hdelta) hp]

theorem encryptsTo_modeEncrypt : encryptsTo E delta B mode iv p (modeEncrypt E delta B mode iv p) := by
  refine encryptsTo_iff.2 ⟨length_modeEncrypt hB hE hiv hdelta hp, fun i hi => ?_⟩
  rw [modeEncrypt_eq_chain hiv]
  exact blockOf_chain hB hiv (keepsLength_encryptBlock hE hiv hdelta) hp hi

theorem decryptsTo_modeDecrypt (hD : KeepsBlock B D) :
    decryptsTo E D delta B mode iv p (modeDecrypt E D delta B mode iv p) := by
  have hkeeps := keepsLength_decryptBlock hE hiv hdelta hD
  rw [modeDecrypt_eq_chain hiv]
  exact decryptsTo_iff.2 ⟨length_chain hB hiv hkeeps hp, fun i hi => blockOf_chain hB hiv hkeeps hp hi⟩

theorem modeDecrypt_modeEncrypt (hDE : ∀ x : Bytes, x.length = B → D (E x) = x) :
    modeDecrypt E D delta B mode iv (modeEncrypt E delta B mode iv p) = p := by
  rw [modeDecrypt_eq_chain hiv, modeEncrypt_eq_chain hiv]
  exact chain_chain hB hiv (keepsLength_encryptBlock hE hiv hdelta) hp
    (decryptBlock_undoes_encryptBlock hE hiv hdelta hDE)

end Modes

/-- Settles O47: a mode is a chain, whose blocks meet the equations, keep their lengths and are undone one by one. -/
theorem modeDecryptInvertsEncrypt : Obligations.ModeDecryptInvertsEncrypt := by
  intro E D delta B mode iv p hB hiv hE hdelta hp
  have hp : ¬ streamMode mode = true → p.length % B = 0 := fun hm => hp (Bool.eq_false_iff.2 hm)
  have hdelta : mode = .randomDelta → ∀ i, (delta i).length = B := fun _ => hdelta
  exact ⟨encryptsTo_modeEncrypt hB hE hiv hdelta hp, decryptsTo_modeDecrypt hB hE hiv hdelta hp,
    length_modeEncrypt hB hE hiv hdelta hp, modeDecrypt_modeEncrypt hB hE hiv hdelta hp⟩

/-- Settles O51: a stream-like mode has no delta, and may end in a short block anywhere. -/
theorem streamModeEncryptsPrefixes : Obligations.StreamModeEncryptsPrefixes := by
  intro E delta B mode iv p n hB hm hiv hE
  have hdelta : mode = .randomDelta → ∀ i, (delta i).length = B := by rintro rfl; cases hm
  have hp : ¬ streamMode mode = true → p.length % B = 0 := absurd hm
  refine ⟨length_modeEncrypt hB hE hiv hdelta hp, ?_⟩
  rw [modeEncrypt_eq_chain hiv, modeEncrypt_eq_chain hiv]
  exact chain_take hB hiv (keepsLength_encryptBlock hE hiv hdelta) hp hm (encryptBlock_takesPrefix hm) n

/-! ### PCBC and the IV (R317) -/

/-- The IV stands on both sides of the first block and cancels there; later blocks do not see it. -/
theorem pcbcEncrypt_iv {E : Bytes → Bytes} {iv iv' : Bytes} {ps : List Bytes} (hiv : ∀ p ∈ ps, p.length = iv.length)
    (hlen : iv'.length = iv.length) : pcbcEncrypt E iv iv ps = pcbcEncrypt E iv' iv' ps := by
  cases ps with
  | nil => rfl
  | cons p ps =>
    have hp := hiv p List.mem_cons_self
    rw [pcbcEncrypt, pcbcEncrypt, xorBytes_cancel hp.le, xorBytes_cancel (hp.trans hlen.symm).le]

/-- Settles O49: both IVs give one ciphertext, which decrypts under either. -/
theorem pcbcIgnoresIv : Obligations.PcbcIgnoresIv := by
  intro E D delta B iv iv' p hB hiv hiv' hp hE
  have hsame : modeEncrypt E delta B .pcbc iv p = modeEncrypt E delta B .pcbc iv' p :=
    congrArg List.flatten (pcbcEncrypt_iv (fun b hb => (Results.length_of_mem_blocks hB hp hb).trans hiv.symm)
      (hiv'.trans hiv.symm))
  refine ⟨hsame, ?_⟩
  rw [hsame]
  exact modeDecrypt_modeEncrypt hB (fun x hx => (hE x hx).1) hiv' (fun h => nomatch h) (fun _ => hp)
    fun x hx => (hE x hx).2

/-! ### RandomDelta and the IV (R332) -/

theorem xorBytes_left_cancel {x y z : Bytes} (hy : y.length = x.length) (hz : z.length = x.length)
    (h : xorBytes x y = xorBytes x z) : y = z := by
  rw [xorBytes_comm x y, xorBytes_comm x z] at h
  rw [← xorBytes_cancel hy.le, h, xorBytes_cancel hz.le]

/-- The first block of a RandomDelta ciphertext (R324). -/
theorem blockOf_modeEncrypt_randomDelta {E : Bytes → Bytes} {delta : Nat → Bytes} {B : Nat} {iv p : Bytes} (hB : 0 < B)
    (hE : KeepsBlock B E) (hiv : iv.length = B) (hdelta : ∀ i, (delta i).length = B) (hp : p.length % B = 0)
    (hne : p ≠ []) :
    blockOf B (modeEncrypt E delta B .randomDelta iv p) 0 =
      E (xorBytes (xorBytes (blockOf B p 0) iv) (delta 1)) := by
  obtain ⟨-, hblocks⟩ := encryptsTo_modeEncrypt hB hE hiv (mode := .randomDelta) (fun _ => hdelta) (fun _ => hp)
  exact hblocks 0 (List.length_pos_iff.2 hne)

/-- Settles O53: the first four bytes give both IVs one delta sequence, so that equal first blocks would make the IVs
equal. -/
theorem randomDeltaIvTailMatters : Obligations.RandomDeltaIvTailMatters := by
  intro E B iv iv' p hB hiv hiv' hhead hne hnil hp hE hinj heq
  have hseed : seedOf iv = seedOf iv' := by rw [seedOf, seedOf, hhead]
  have hdelta := length_deltaGen B (seedOf iv')
  have hblock : (blockOf B p 0).length = B := by
    have hle := Nat.le_of_dvd (List.length_pos_iff.2 hnil) (Nat.dvd_of_mod_eq_zero hp)
    rw [length_blockOf]; omega
  have hfirst := congrArg (blockOf B · 0) heq
  simp only [hseed, blockOf_modeEncrypt_randomDelta hB hE hiv hdelta hp hnil,
    blockOf_modeEncrypt_randomDelta hB hE hiv' hdelta hp hnil] at hfirst
  have hmask := hinj _ _ (by simp [hblock, hiv, hdelta]) (by simp [hblock, hiv', hdelta]) hfirst
  rw [xorBytes_comm _ (deltaGen _ _ _), xorBytes_comm _ (deltaGen _ _ _)] at hmask
  have hxor := xorBytes_left_cancel (by simp [hblock, hiv, hdelta]) (by simp [hblock, hiv', hdelta]) hmask
  exact hne (xorBytes_left_cancel (hiv.trans hblock.symm) (hiv'.trans hblock.symm) hxor)

/-! ### Errors in CBC (R331) -/

/-- Bits of byte `j` flipped. -/
def flipByte (j : Nat) (flip : Byte) (x : Bytes) : Bytes := x.set j (x.getD j 0#8 ^^^ flip)

@[simp] theorem length_flipByte (j : Nat) (flip : Byte) (x : Bytes) : (flipByte j flip x).length = x.length := by
  simp [flipByte]

theorem flipByte_ne {j : Nat} {flip : Byte} {x : Bytes} (hj : j < x.length) (hflip : flip ≠ 0#8) :
    flipByte j flip x ≠ x := by
  intro h
  have hbyte : (flipByte j flip x).getD j 0#8 = x.getD j 0#8 := by rw [h]
  rw [flipByte, List.getD_eq_getElem _ _ (by simpa using hj), List.getElem_set_self, List.getD_eq_getElem _ _ hj] at hbyte
  exact hflip (by simpa using hbyte)

/-- XOR carries flipped bits through. -/
theorem xorBytes_flipByte {j : Nat} (flip : Byte) {x y : Bytes} (hlen : x.length = y.length) (hj : j < y.length) :
    xorBytes x (flipByte j flip y) = flipByte j flip (xorBytes x y) := by
  have hx : j < (xorBytes x y).length := by simp; omega
  rw [flipByte, flipByte, List.getD_eq_getElem _ _ hj, List.getD_eq_getElem _ _ hx]
  refine List.ext_getElem (by simp) fun i h₁ h₂ => ?_
  by_cases hi : j = i
  · subst hi
    simp [getElem_xorBytes, BitVec.xor_assoc]
  · simp [getElem_xorBytes, List.getElem_set_ne hi]

/-- A decrypted block depends on its own ciphertext block and on the one before (R316). -/
theorem getElem?_cbcDecrypt (D : Bytes → Bytes) (iv : Bytes) (cs : List Bytes) (i : Nat) :
    (cbcDecrypt D iv cs)[i]? = cs[i]?.map fun c => xorBytes (D c) ((iv :: cs).getD i []) := by
  induction cs generalizing iv i with
  | nil => simp [cbcDecrypt]
  | cons c cs ih =>
    cases i with
    | zero => rfl
    | succ i => rw [cbcDecrypt, List.getElem?_cons_succ, ih, List.getElem?_cons_succ, List.getD_cons_succ]

theorem getD_cbcDecrypt (D : Bytes → Bytes) (iv : Bytes) {cs : List Bytes} {i : Nat} (hi : i < cs.length) :
    (cbcDecrypt D iv cs).getD i [] = xorBytes (D (cs.getD i [])) ((iv :: cs).getD i []) := by
  rw [List.getD_eq_getElem?_getD, getElem?_cbcDecrypt, List.getElem?_eq_getElem hi, List.getD_eq_getElem cs _ hi]
  rfl

/-- The blocks before the changed one, and those behind it, are as they were. -/
theorem getD_set_of_ne {cs : List Bytes} {i k : Nat} (c : Bytes) (h : k ≠ i) : (cs.set k c).getD i [] = cs.getD i [] := by
  rw [List.getD_eq_getElem?_getD, List.getD_eq_getElem?_getD, List.getElem?_set_ne h]

theorem getD_set_self {cs : List Bytes} {k : Nat} (c : Bytes) (h : k < cs.length) : (cs.set k c).getD k [] = c := by
  rw [List.getD_eq_getElem?_getD, List.getElem?_set_self h, Option.getD_some]

theorem length_getD {cs : List Bytes} {B i : Nat} (hcs : ∀ c ∈ cs, c.length = B) (hi : i < cs.length) :
    (cs.getD i []).length = B := by
  rw [List.getD_eq_getElem _ _ hi]
  exact hcs _ (List.getElem_mem hi)

/-- Settles O50: block `k` is decrypted from the changed block, which `D` does not merge with the old one; block `k + 1`
has the changed block XORed in; no other block reads it. -/
theorem cbcErrorPropagation : Obligations.CbcErrorPropagation := by
  intro D B iv cs k j flip hiv hcs hD hinj hk hj hflip c' hc'
  replace hc' : c' = flipByte j flip (cs.getD k []) := hc'
  have hc := length_getD hcs hk
  have hprev : ((iv :: cs).getD k []).length = B :=
    length_getD (List.forall_mem_cons.2 ⟨hiv, hcs⟩) (hk.trans (Nat.lt_succ_self _))
  have hlen' : c'.length = B := by rw [hc', length_flipByte, hc]
  have hcons : iv :: cs.set k c' = (iv :: cs).set (k + 1) c' := rfl
  refine ⟨fun heq => ?_, fun hk1 => ?_, fun i hik hik1 => ?_⟩
  · rw [getD_cbcDecrypt D iv (by simpa using hk), getD_cbcDecrypt D iv hk, getD_set_self c' hk, hcons,
      getD_set_of_ne c' (by omega)] at heq
    have hblocks := congrArg (xorBytes · ((iv :: cs).getD k [])) heq
    simp only [xorBytes_cancel ((hD c' hlen').trans hprev.symm).le, xorBytes_cancel ((hD _ hc).trans hprev.symm).le]
      at hblocks
    exact flipByte_ne (hc ▸ hj) hflip (hc' ▸ hinj _ _ hlen' hc hblocks)
  · rw [getD_cbcDecrypt D iv (by simpa using hk1), getD_cbcDecrypt D iv hk1, getD_set_of_ne c' (by omega),
      List.getD_cons_succ, List.getD_cons_succ, getD_set_self c' hk, hc']
    exact xorBytes_flipByte flip ((hD _ (length_getD hcs hk1)).trans hc.symm) (hc ▸ hj)
  · rw [getElem?_cbcDecrypt, getElem?_cbcDecrypt, List.getElem?_set_ne (Ne.symm hik), hcons,
      getD_set_of_ne c' (Ne.symm hik1)]

end Sys2Proof.ModeEquations

/-! PROOFS of the family 45_modes.md, padding as MENC and MDEC use it: what `Pad` appends, and that `Unpad` takes it off
again (46_padding.md R360 to R368, R372). -/

namespace Sys2Proof.PaddingRoundTrip

open Sys2Proof Sys2Proof.Machine

/-! ### What `Pad` appends (R361 to R365) -/

theorem paddingRule_nil (p : PadScheme) : paddingRule p 0 [] := by simp [paddingRule]

/-- Padded data is the data followed by bytes that meet the scheme's rule. -/
theorem exists_padBytes_eq {full : PadScheme → Bool} {d fill : Bytes} {B : Nat} {p : PadScheme}
    (hfill : fill.length = padDraws full d.length B p) :
    ∃ tail, padBytes full d B p fill = d ++ tail ∧ paddingRule p (padLen full d.length B p) tail := by
  by_cases hn : padLen full d.length B p = 0
  · rw [padBytes, if_pos hn, hn]
    exact ⟨[], (List.append_nil d).symm, paddingRule_nil p⟩
  · rw [padBytes, if_neg hn]
    exact ⟨_, rfl, padTail_rule (Nat.pos_of_ne_zero hn) fun hp => by rw [hfill, hp]; rfl⟩

/-! ### Zeros (R362, R368) -/

theorem unpadBytes_zeros (d : Bytes) (B : Nat) : unpadBytes d B .zeros = .ok (stripZeros d) := by
  cases d <;> rfl

theorem stripZeros_of_getLastD {d : Bytes} (hd : d = [] ∨ d.getLastD 0#8 ≠ 0#8) : stripZeros d = d := by
  induction d using List.reverseRecOn with
  | nil => rfl
  | append_singleton d x =>
    have hx : x ≠ 0#8 := by simpa using hd
    simp [stripZeros, hx]

theorem stripZeros_append_zeroBytes (d : Bytes) (n : Nat) : stripZeros (d ++ zeroBytes n) = stripZeros d := by
  induction n with
  | zero => simp [zeroBytes]
  | succ n ih =>
    rw [zeroBytes, List.replicate_succ', ← List.append_assoc, ← ih]
    simp [stripZeros, zeroBytes]

theorem eq_zeroBytes_of_paddingRule {n : Nat} {tail : Bytes} (h : paddingRule .zeros n tail) : tail = zeroBytes n := by
  obtain ⟨hlen, hzeros, -⟩ := h
  refine List.ext_getElem (by simp [hlen]) fun i h₁ h₂ => ?_
  have hbyte := hzeros rfl i (hlen ▸ h₁)
  rw [List.getD_eq_getElem _ _ h₁] at hbyte
  simp [zeroBytes, hbyte]

theorem unpadBytes_padBytes_zeros {full : PadScheme → Bool} {d fill : Bytes} {B : Nat}
    (hfill : fill.length = padDraws full d.length B .zeros) (hd : d = [] ∨ d.getLastD 0#8 ≠ 0#8) :
    unpadBytes (padBytes full d B .zeros fill) B .zeros = .ok d := by
  obtain ⟨tail, hpad, hrule⟩ := exists_padBytes_eq hfill
  rw [hpad, eq_zeroBytes_of_paddingRule hrule, unpadBytes_zeros, stripZeros_append_zeroBytes, stripZeros_of_getLastD hd]

/-! ### The schemes with a length byte (R363 to R366, R373) -/

theorem unpadBytes_of_ne_zeros {d : Bytes} (hd : d ≠ []) (B : Nat) {p : PadScheme} (hp : p ≠ .zeros) :
    unpadBytes d B p = unpadByLength d B p := by
  obtain ⟨x, xs, rfl⟩ := List.exists_cons_of_ne_nil hd
  cases p with
  | zeros => exact absurd rfl hp
  | _ => rfl

theorem lastBytes_append (d tail : Bytes) : lastBytes (d ++ tail) tail.length = tail := by simp [lastBytes]

/-- The filler check accepts every tail that the rule allows. -/
theorem fillerGood_of_paddingRule {p : PadScheme} {n : Nat} (d : Bytes) {tail : Bytes} (h : paddingRule p n tail) :
    fillerGood p (d ++ tail) n = true := by
  obtain ⟨rfl, -, hansi, hpkcs, -⟩ := h
  cases p with
  | zeros => rfl
  | iso10126 => rfl
  | ansiX923 =>
    rw [fillerGood, lastBytes_append, beq_iff_eq]
    refine List.ext_getElem (by simp) fun i h₁ h₂ => ?_
    have hi : i + 1 < tail.length := by simp at h₂; omega
    have hbyte := hansi rfl i hi
    rw [List.getD_eq_getElem _ _ (by omega)] at hbyte
    simp [zeroBytes, hbyte]
  | pkcs7 =>
    rw [fillerGood, lastBytes_append, beq_iff_eq]
    refine List.ext_getElem (by simp) fun i h₁ h₂ => ?_
    have hbyte := hpkcs rfl i h₁
    rw [List.getD_eq_getElem _ _ h₁] at hbyte
    simp [hbyte]

/-- The last byte says how long the tail is, as long as a byte can say it. -/
theorem padLengthByte_append {p : PadScheme} {n : Nat} (d : Bytes) {tail : Bytes} (hp : p ≠ .zeros)
    (h : paddingRule p n tail) (hpos : 0 < n) (hlt : n < 256) : padLengthByte (d ++ tail) = n := by
  obtain ⟨hlen, -, -, -, hlast⟩ := h
  have hne : tail ≠ [] := List.ne_nil_of_length_pos (hlen ▸ hpos)
  have hlastD : (d ++ tail).getLastD 0#8 = tail.getLastD 0#8 := by
    simp [List.getLastD_eq_getLast?, List.getLast?_append_of_ne_nil _ hne]
  rw [padLengthByte, hlastD, hlast hp hpos, BitVec.toNat_ofNat, Nat.mod_eq_of_lt hlt]

theorem unpadBytes_append {p : PadScheme} {n B : Nat} (d : Bytes) {tail : Bytes} (hp : p ≠ .zeros)
    (h : paddingRule p n tail) (hpos : 0 < n) (hle : n ≤ B) (hB : B < 256) : unpadBytes (d ++ tail) B p = .ok d := by
  have hbyte := padLengthByte_append d hp h hpos (hle.trans_lt hB)
  have hlen : tail.length = n := h.1
  have hne : d ++ tail ≠ [] := List.ne_nil_of_length_pos (by simp; omega)
  rw [unpadBytes_of_ne_zeros hne B hp, unpadByLength, hbyte, if_neg (by simp; omega),
    if_pos (fillerGood_of_paddingRule d h)]
  simp [← hlen]

/-- Nothing is appended only to whole blocks, under a scheme outside `FULL_BLOCK_PAD` (R360). -/
theorem eq_of_padLengthRule_eq_zero {full : Bool} {len B : Nat} (hB : 0 < B) (h : padLengthRule full len B = 0) :
    len % B = 0 ∧ full = false := by
  have hmod : len % B = 0 := by
    by_contra hne
    rw [padLengthRule, if_pos hne] at h
    exact absurd (Nat.mod_lt len hB) (by omega)
  rw [padLengthRule, if_neg (not_not.2 hmod)] at h
  exact ⟨hmod, Bool.eq_false_iff.2 fun hfull => by rw [if_pos hfull] at h; omega⟩

/-- A pad of at least one byte is taken off again; without one there must be no data either (R372). -/
theorem unpadBytes_padBytes {full : PadScheme → Bool} {d fill : Bytes} {B : Nat} {p : PadScheme} (hpos : 0 < B)
    (hB : B < 256) (hp : p ≠ .zeros) (hfill : fill.length = padDraws full d.length B p)
    (hd : d.length % B ≠ 0 ∨ d.length = 0 ∨ full p = true) : unpadBytes (padBytes full d B p fill) B p = .ok d := by
  obtain ⟨tail, hpad, hrule⟩ := exists_padBytes_eq hfill
  rw [padLen_eq_rule full _ hpos] at hrule
  rw [hpad]
  by_cases hn : padLengthRule (full p) d.length B = 0
  · obtain ⟨hmod, hfull⟩ := eq_of_padLengthRule_eq_zero hpos hn
    obtain ⟨hlen, -⟩ := hrule
    have hempty : d.length = 0 := (hd.resolve_left (not_not.2 hmod)).resolve_right (by simp [hfull])
    rw [List.eq_nil_of_length_eq_zero hempty, List.eq_nil_of_length_eq_zero (hlen.trans hn)]
    rfl
  · exact unpadBytes_append d hp hrule (Nat.pos_of_ne_zero hn) (padLengthRule_le _ _ hpos) hB

end Sys2Proof.PaddingRoundTrip

/-! PROOFS of the family 45_modes.md, the commands: CTXSET, MENC and MDEC (R310 to R313, R320 to R322, R328, R330). -/

namespace Sys2Proof.ModeCommands

open Sys2Proof Sys2Proof.Machine Sys2Proof.BlockChain Sys2Proof.ModeEquations

/-! ### The commands as results -/

theorem exec_menc (s : State) : exec .menc s = complete s (mencDraws s) (mencResult s) := rfl

theorem exec_mdec (s : State) : exec .mdec s = complete s 0 (mdecResult s) := rfl

/-- `CTXSET` with the field of a mode: the IV length is checked but for ECB (R320). -/
theorem exec_ctxset_field (m : Mode) (p : PadScheme) (s : State) :
    exec (.ctxset m.field p) s =
      if m ≠ .ecb ∧ s.ivLen.toNat ≠ blockSize s then .next (s.raise .invalidArgument)
      else .next (s.commitContext m p (ivOperand s)) := by
  change execCtxset m.field p s = _
  simp only [execCtxset, HostPort.modeOfField_field]

/-- Settles O30: of the three cases the check of the IV length lets the first two pass, and the commit keeps `ctx.IV` in
ECB only. -/
theorem ctxsetLatchesContext : Obligations.CtxsetLatchesContext := by
  intro s m p
  refine ⟨fun hm => ?_, fun hm hlen => ⟨length_ivOperand s, ?_⟩, fun hm hlen => ?_⟩
  · rw [exec_ctxset_field, if_neg (by simp [hm]), State.commitContext, if_pos hm]
  · rw [exec_ctxset_field, if_neg (by simp [hlen]), State.commitContext, if_neg hm]
  · rw [exec_ctxset_field, if_pos ⟨hm, hlen⟩]

/-- The checks of `MENC` behind its regions and its context (R321). -/
theorem mencResult_of_context {s : State} (hsrc : sourceInRange s = true) (hdst : destInRange s = true)
    (hctxv : s.ctxv = true) :
    mencResult s =
      if s.dstCap.toNat < mencLength s then .error .invalidArgument
      else if s.init = false then .error .notInitialized
      else .ok (modeEncrypt (modeE s) (modeDelta s) (blockSize s) s.ctxMode s.ctxIv (mencData s)) := by
  rw [mencResult, if_neg (by simp [hsrc, hdst]), if_neg (by simp [hctxv])]

/-- The checks of `MDEC` behind its regions and its context (R322). -/
theorem mdecResult_of_context {s : State} (hsrc : sourceInRange s = true) (hdst : destInRange s = true)
    (hctxv : s.ctxv = true) :
    mdecResult s =
      if streamMode s.ctxMode = false ∧ s.srcLen.toNat % blockSize s ≠ 0 then .error .invalidArgument
      else if s.dstCap.toNat < s.srcLen.toNat then .error .invalidArgument
      else if s.init = false then .error .notInitialized
      else if streamMode s.ctxMode then .ok (mdecData s)
      else unpadBytes (mdecData s) (blockSize s) s.ctxPad := by
  rw [mdecResult, if_neg (by simp [hsrc, hdst]), if_neg (by simp [hctxv])]

/-- `MDEC` past all its checks. -/
theorem mdecResult_of_checks {s : State} (hsrc : sourceInRange s = true) (hdst : destInRange s = true)
    (hctxv : s.ctxv = true) (hwhole : streamMode s.ctxMode = false → s.srcLen.toNat % blockSize s = 0)
    (hcap : s.srcLen.toNat ≤ s.dstCap.toNat) (hinit : s.init = true) :
    mdecResult s =
      if streamMode s.ctxMode then .ok (mdecData s) else unpadBytes (mdecData s) (blockSize s) s.ctxPad := by
  rw [mdecResult_of_context hsrc hdst hctxv, if_neg fun h => h.2 (hwhole h.1), if_neg (Nat.not_lt.2 hcap),
    if_neg (by simp [hinit])]

theorem exec_menc_of_error {s : State} {e : ErrClass} (h : mencResult s = .error e) :
    exec .menc s = .next (s.raise e) := (exec_menc s).trans (EngineCommands.complete_of_error h)

theorem exec_mdec_of_error {s : State} {e : ErrClass} (h : mdecResult s = .error e) :
    exec .mdec s = .next (s.raise e) := (exec_mdec s).trans (EngineCommands.complete_of_error h)

/-- Settles O19: each check is reached when the ones before it have passed; the two length checks of `MDEC` raise the
same class. -/
theorem modeCommandCheckOrder : Obligations.ModeCommandCheckOrder := by
  intro s
  refine ⟨fun hregion => ⟨exec_menc_of_error (if_pos hregion), exec_mdec_of_error (if_pos hregion)⟩,
    fun hsrc hdst hctxv => ?_, fun hsrc hdst hctxv => ?_⟩
  · have hregion : ¬ (sourceInRange s = false ∨ destInRange s = false) := by simp [hsrc, hdst]
    exact ⟨exec_menc_of_error ((if_neg hregion).trans (if_pos hctxv)),
      exec_mdec_of_error ((if_neg hregion).trans (if_pos hctxv))⟩
  · have hmenc := mencResult_of_context hsrc hdst hctxv
    have hmdec := mdecResult_of_context hsrc hdst hctxv
    refine ⟨fun hcap => exec_menc_of_error ?_, fun hcap hinit => exec_menc_of_error ?_,
      fun hmode hlen => exec_mdec_of_error ?_, fun hcap => exec_mdec_of_error ?_,
      fun hlen hcap hinit => exec_mdec_of_error ?_⟩
    · rw [hmenc, if_pos hcap]
    · rw [hmenc, if_neg (Nat.not_lt.2 hcap), if_pos hinit]
    · rw [hmdec, if_pos ⟨hmode, hlen⟩]
    · rw [hmdec, if_pos hcap, ite_self]
    · have hwhole : ¬ (streamMode s.ctxMode = false ∧ s.srcLen.toNat % blockSize s ≠ 0) := by
        rintro ⟨hmode, hmod⟩
        exact hlen.elim (by simp [hmode]) hmod
      rw [hmdec, if_neg hwhole, if_neg (Nat.not_lt.2 hcap), if_pos hinit]

/-! ### The latched mode over the selected cipher (R310) -/

/-- The IV of a mode with one of `B` bytes in its place under ECB, which reads none (R315). -/
def effectiveIv (B : Nat) (mode : Mode) (iv : Bytes) : Bytes := if mode = .ecb then zeroBytes B else iv

theorem length_effectiveIv {B : Nat} {mode : Mode} {iv : Bytes} (hiv : mode ≠ .ecb → iv.length = B) :
    (effectiveIv B mode iv).length = B := by
  unfold effectiveIv
  split
  · exact length_zeroBytes B
  · exact hiv ‹_›

section EffectiveIv

variable (E D : Bytes → Bytes) (delta : Nat → Bytes) (B : Nat) (mode : Mode) (iv p c : Bytes)

theorem modeEncrypt_effectiveIv :
    modeEncrypt E delta B mode (effectiveIv B mode iv) p = modeEncrypt E delta B mode iv p := by cases mode <;> rfl

theorem modeDecrypt_effectiveIv :
    modeDecrypt E D delta B mode (effectiveIv B mode iv) c = modeDecrypt E D delta B mode iv c := by cases mode <;> rfl

theorem encryptsTo_effectiveIv :
    encryptsTo E delta B mode (effectiveIv B mode iv) p c ↔ encryptsTo E delta B mode iv p c := by cases mode <;> rfl

theorem decryptsTo_effectiveIv :
    decryptsTo E D delta B mode (effectiveIv B mode iv) c p ↔ decryptsTo E D delta B mode iv c p := by
  cases mode <;> rfl

end EffectiveIv

/-- `ModeEncrypt` in the latched context. -/
def ctxEncrypt (s : State) (p : Bytes) : Bytes :=
  modeEncrypt (modeE s) (modeDelta s) (blockSize s) s.ctxMode s.ctxIv p

/-- `ModeDecrypt` in the latched context. -/
def ctxDecrypt (s : State) (c : Bytes) : Bytes :=
  modeDecrypt (modeE s) (modeD s) (modeDelta s) (blockSize s) s.ctxMode s.ctxIv c

theorem mdecData_eq (s : State) : mdecData s = ctxDecrypt s (sourceBytes s) := rfl

section Context

variable {s : State} (hs : Inv s) (hctxv : s.ctxv = true) {d : Bytes}
  (hd : ¬ streamMode s.ctxMode = true → d.length % blockSize s = 0)

include hs

theorem romValid_of_inv : romValid s.par.rom = true := (paramsValid_iff.1 hs.params).2.2

theorem keepsBlock_modeE : KeepsBlock (blockSize s) (modeE s) :=
  fun _ hx => Feistel.length_cipherEncrypt (romValid_of_inv hs) s.rk s.cipher hx

theorem keepsBlock_modeD : KeepsBlock (blockSize s) (modeD s) :=
  fun _ hx => Feistel.length_cipherDecrypt (romValid_of_inv hs) s.rk s.cipher hx

include hctxv hd

theorem encryptsTo_ctxEncrypt :
    encryptsTo (modeE s) (modeDelta s) (blockSize s) s.ctxMode s.ctxIv d (ctxEncrypt s d) := by
  rw [← encryptsTo_effectiveIv, ctxEncrypt, ← modeEncrypt_effectiveIv]
  exact encryptsTo_modeEncrypt (Results.blockSize_pos s) (keepsBlock_modeE hs) (length_effectiveIv (hs.context hctxv))
    (fun _ => length_deltaGen _ _) hd

theorem decryptsTo_ctxDecrypt :
    decryptsTo (modeE s) (modeD s) (modeDelta s) (blockSize s) s.ctxMode s.ctxIv d (ctxDecrypt s d) := by
  rw [← decryptsTo_effectiveIv, ctxDecrypt, ← modeDecrypt_effectiveIv]
  exact decryptsTo_modeDecrypt (Results.blockSize_pos s) (keepsBlock_modeE hs) (length_effectiveIv (hs.context hctxv))
    (fun _ => length_deltaGen _ _) hd (keepsBlock_modeD hs)

theorem length_ctxEncrypt : (ctxEncrypt s d).length = d.length := (encryptsTo_ctxEncrypt hs hctxv hd).1

theorem length_ctxDecrypt : (ctxDecrypt s d).length = d.length := (decryptsTo_ctxDecrypt hs hctxv hd).1

theorem ctxDecrypt_ctxEncrypt (hcipher : s.par.rom = romDefault ∨ s.cipher = .compound) :
    ctxDecrypt s (ctxEncrypt s d) = d := by
  rw [ctxDecrypt, ctxEncrypt, ← modeDecrypt_effectiveIv, ← modeEncrypt_effectiveIv]
  exact modeDecrypt_modeEncrypt (Results.blockSize_pos s) (keepsBlock_modeE hs) (length_effectiveIv (hs.context hctxv))
    (fun _ => length_deltaGen _ _) hd
    fun _ hx => Feistel.cipherDecrypt_cipherEncrypt (romValid_of_inv hs) hcipher s.rk hx

end Context

/-! ### MENC (R321) -/

/-- How many bytes `MENC` appends to its source: none in a stream-like mode (R328). -/
def mencTailLength (s : State) : Nat :=
  if streamMode s.ctxMode then 0 else padLengthRule (fullBlockPad s.par s.ctxPad) s.srcLen.toNat (blockSize s)

theorem mencLength_eq (s : State) : mencLength s = s.srcLen.toNat + mencTailLength s := by
  unfold mencLength mencTailLength
  split
  · rfl
  · rw [mencPadLen, padLen_eq_rule _ _ (Results.blockSize_pos s)]

/-- The data is the source and bytes that meet the rule of the latched scheme. -/
theorem exists_mencData_eq (s : State) :
    ∃ tail, mencData s = sourceBytes s ++ tail ∧ paddingRule s.ctxPad (mencTailLength s) tail := by
  unfold mencData mencTailLength
  split
  · exact ⟨[], (List.append_nil _).symm, PaddingRoundTrip.paddingRule_nil _⟩
  · rename_i hm
    rw [← padLen_eq_rule _ _ (Results.blockSize_pos s), ← length_sourceBytes s]
    exact PaddingRoundTrip.exists_padBytes_eq (by simp [mencDraws, hm])

theorem length_mencData_whole {s : State} (h : ¬ streamMode s.ctxMode = true) :
    (mencData s).length % blockSize s = 0 := Results.length_mencData_mod (Bool.eq_false_iff.2 h)

/-- Settles O31: the result has the length of the data, so that it is read back whole, and meets the equations of its
mode. -/
theorem mencEncryptsBuffer : Obligations.MencEncryptsBuffer := by
  intro s n hinv hsrc hdst hctxv hinit hn hcap
  replace hn : n = mencTailLength s := hn
  obtain ⟨tail, hdata, hrule⟩ := exists_mencData_eq s
  have hlength : mencLength s = s.srcLen.toNat + n := hn ▸ mencLength_eq s
  have hdataLength : (mencData s).length = s.srcLen.toNat + n := (Results.length_mencData s).trans hlength
  have hout : (ctxEncrypt s (mencData s)).length = s.srcLen.toNat + n :=
    (length_ctxEncrypt hinv hctxv length_mencData_whole).trans hdataLength
  have hresult : mencResult s = .ok (ctxEncrypt s (mencData s)) :=
    mencResult_ok.2 ⟨hsrc, hdst, hctxv, hlength.trans_le hcap, hinit, rfl⟩
  have hread : (s.commitBytes (ctxEncrypt s (mencData s)) (mencDraws s)).dmem.readBytes s.dstAddr.toNat
      (s.srcLen.toNat + n) = ctxEncrypt s (sourceBytes s ++ tail) := by
    rw [← hout, ← hdata]
    exact Memory.readBytes_writeBytes hinv.canonical _ _
  refine ⟨_, tail, (exec_menc s).trans (EngineCommands.complete_of_ok hresult), rfl, ?_, hlength, hdata, hn ▸ hrule,
    fun hm => ?_, hread, ?_⟩
  · rw [Permute.toNat_outLen_commitBytes _ (hout.trans_le hcap), hout]
  · rw [← hdataLength]
    exact Results.length_mencData_mod hm
  · rw [hread, ← hdata]
    exact encryptsTo_ctxEncrypt hinv hctxv length_mencData_whole

/-! ### MDEC (R322) -/

/-- Settles O32: past the checks the outcome is that of the padding, and a stream-like mode has none. -/
theorem mdecDecryptsBuffer : Obligations.MdecDecryptsBuffer := by
  intro s data hinv hsrc hdst hctxv hinit hcap hwhole hdata
  replace hdata : data = mdecData s := hdata
  subst hdata
  have hd : ¬ streamMode s.ctxMode = true → (sourceBytes s).length % blockSize s = 0 := fun hm => by
    rw [length_sourceBytes, hwhole (Bool.eq_false_iff.2 hm)]
  have hlen : (mdecData s).length = s.srcLen.toNat := (length_ctxDecrypt hinv hctxv hd).trans (length_sourceBytes s)
  have hresult := mdecResult_of_checks hsrc hdst hctxv hwhole hcap hinit
  refine ⟨rfl, decryptsTo_ctxDecrypt hinv hctxv hd, fun hm => ?_, fun hm => ⟨fun out hout => ?_, fun e he => ?_⟩⟩
  · obtain ⟨t, ht, herr, houtLen, hread⟩ :=
      EngineCommands.exists_complete_of_ok hinv.canonical (hresult.trans (if_pos hm)) hlen hcap
    exact ⟨t, ht, herr, BitVec.eq_of_toNat_eq houtLen, hread⟩
  · have hfits := (Results.length_unpadBytes_le hout).trans (hlen.trans_le hcap)
    rw [if_neg (by simp [hm]), hout] at hresult
    obtain ⟨t, ht, herr, houtLen, hread⟩ := EngineCommands.exists_complete_of_ok hinv.canonical hresult rfl hfits
    exact ⟨t, ht, herr, unpadBytes_ok hout, houtLen, hread⟩
  · rw [if_neg (by simp [hm]), he, Results.unpadBytes_error he] at hresult
    exact exec_mdec_of_error hresult

/-! ### MDEC after MENC (R330, R372) -/

/-- When the data that `MENC` encrypts gives the source back. -/
def Restorable (s : State) : Prop :=
  streamMode s.ctxMode = true ∨ s.ctxPad = .pkcs7 ∨
    ((s.ctxPad = .ansiX923 ∨ s.ctxPad = .iso10126) ∧
      (s.srcLen.toNat % blockSize s ≠ 0 ∨ s.srcLen.toNat = 0 ∨ fullBlockPad s.par s.ctxPad = true)) ∨
    (s.ctxPad = .zeros ∧ (s.srcLen.toNat = 0 ∨ (sourceBytes s).getLastD 0#8 ≠ 0#8))

theorem blockSize_lt (s : State) : blockSize s < 256 := by
  unfold blockSize
  cases s.cipher <;> decide

/-- In a padded mode `Unpad` takes off what `MENC` appended. -/
theorem unpadBytes_mencData {s : State} (hm : ¬ streamMode s.ctxMode = true) (h : Restorable s) :
    unpadBytes (mencData s) (blockSize s) s.ctxPad = .ok (sourceBytes s) := by
  have hfill : (freeBytes s (mencDraws s)).length =
      padDraws (fullBlockPad s.par) (sourceBytes s).length (blockSize s) s.ctxPad := by simp [mencDraws, hm]
  have hlengthByte : s.ctxPad ≠ .zeros → (s.srcLen.toNat % blockSize s ≠ 0 ∨ s.srcLen.toNat = 0 ∨
      fullBlockPad s.par s.ctxPad = true) → unpadBytes (mencData s) (blockSize s) s.ctxPad = .ok (sourceBytes s) := by
    intro hp hd
    rw [mencData, if_neg hm]
    exact PaddingRoundTrip.unpadBytes_padBytes (Results.blockSize_pos s) (blockSize_lt s) hp hfill
      (by rwa [length_sourceBytes])
  rcases h with hstream | hpkcs | ⟨hp, hd⟩ | ⟨hzeros, hd⟩
  · exact absurd hstream hm
  · exact hlengthByte (by simp [hpkcs]) (.inr (.inr (by rw [hpkcs]; rfl)))
  · exact hlengthByte (by rcases hp with hp | hp <;> simp [hp]) hd
  · rw [hzeros] at hfill
    rw [mencData, if_neg hm, hzeros]
    refine PaddingRoundTrip.unpadBytes_padBytes_zeros hfill (hd.imp_left fun hlen => ?_)
    exact List.eq_nil_of_length_eq_zero ((length_sourceBytes s).trans hlen)

/-- What `MDEC` makes of the data of `MENC`, decrypted. -/
theorem mencData_restored {s : State} (h : Restorable s) :
    (if streamMode s.ctxMode then .ok (mencData s) else unpadBytes (mencData s) (blockSize s) s.ctxPad) =
      Except.ok (ε := ErrClass) (sourceBytes s) := by
  by_cases hm : streamMode s.ctxMode = true
  · rw [if_pos hm, mencData, if_pos hm]
  · rw [if_neg hm, unpadBytes_mencData hm h]

/-- What a successful `MENC` was given and what it committed. -/
theorem menc_ok {s t : State} (h : exec .menc s = .next t) (herr : t.errcode = none) :
    destInRange s = true ∧ s.ctxv = true ∧ mencLength s ≤ s.dstCap.toNat ∧ s.init = true ∧
      t = s.commitBytes (ctxEncrypt s (mencData s)) (mencDraws s) := by
  rw [exec_menc] at h
  rcases complete_cases h with ⟨out, hout, rfl⟩ | ⟨e, -, rfl⟩
  · obtain ⟨-, hdst, hctxv, hcap, hinit, rfl⟩ := mencResult_ok.1 hout
    exact ⟨hdst, hctxv, hcap, hinit, rfl⟩
  · cases herr

/-- `MDEC` finds bytes that were committed just before, wherever it writes its own: it passes its checks, and its outcome
is that of the padding of what the bytes decrypt to. -/
theorem mdecResult_resultAsSource {s : State} {y : Bytes} {k : Nat} {a c : Word} (hwf : s.dmem.wf)
    (hdst : destInRange s = true) (hctxv : s.ctxv = true) (hinit : s.init = true) (hy : y.length ≤ s.dstCap.toNat)
    (hwhole : ¬ streamMode s.ctxMode = true → y.length % blockSize s = 0) (hc : y.length ≤ c.toNat)
    (hac : a.toNat + c.toNat ≤ s.par.dmemSize) :
    mdecResult (EngineCommands.resultAsSource (s.commitBytes y k) s.dstAddr a c) =
      if streamMode s.ctxMode then .ok (ctxDecrypt s y) else unpadBytes (ctxDecrypt s y) (blockSize s) s.ctxPad := by
  have hlen : (s.commitBytes y k).outLen.toNat = y.length := Permute.toNat_outLen_commitBytes k hy
  have hsource : sourceBytes (EngineCommands.resultAsSource (s.commitBytes y k) s.dstAddr a c) = y :=
    Permute.readBytes_commitBytes hwf k hy
  have hdata : mdecData (EngineCommands.resultAsSource (s.commitBytes y k) s.dstAddr a c) = ctxDecrypt s y := by
    rw [mdecData_eq, hsource]
    rfl
  have hregion : s.dstAddr.toNat + y.length ≤ s.par.dmemSize :=
    (Nat.add_le_add_left hy _).trans (HostAccess.inRange_iff.1 hdst)
  have hresult := mdecResult_of_checks (s := EngineCommands.resultAsSource (s.commitBytes y k) s.dstAddr a c)
    (HostAccess.inRange_iff.2 (hlen.symm ▸ hregion)) (HostAccess.inRange_iff.2 hac) hctxv
    (fun hm => (congrArg (· % blockSize s) hlen).trans (hwhole (Bool.eq_false_iff.1 hm))) (hlen.trans_le hc) hinit
  rwa [hdata] at hresult

/-- Settles O48: `MDEC` decrypts what `MENC` encrypted, source and padding, and takes the padding off. -/
theorem mencThenMdecRestoresData : Obligations.MencThenMdecRestoresData := by
  intro s t a c hinv hcipher h herr hrestore hc hac
  obtain ⟨hdst, hctxv, hcap, hinit, rfl⟩ := menc_ok h herr
  have hout : (ctxEncrypt s (mencData s)).length = mencLength s :=
    (length_ctxEncrypt hinv hctxv length_mencData_whole).trans (Results.length_mencData s)
  have hfits := hout.trans_le hcap
  rw [Permute.toNat_outLen_commitBytes _ hfits] at hc
  have hresult := mdecResult_resultAsSource (k := mencDraws s) (a := a) hinv.canonical hdst hctxv hinit hfits
    (fun hm => by rw [hout, ← Results.length_mencData s, length_mencData_whole hm]) hc hac
  rw [ctxDecrypt_ctxEncrypt hinv hctxv length_mencData_whole hcipher, mencData_restored hrestore] at hresult
  have hsrcLen : s.srcLen.toNat ≤ c.toNat := by
    have hlength := mencLength_eq s
    omega
  obtain ⟨u, hu, huerr, huout, huread⟩ := EngineCommands.exists_complete_of_ok
    (s := EngineCommands.resultAsSource (s.commitBytes (ctxEncrypt s (mencData s)) (mencDraws s)) s.dstAddr a c)
    (Memory.wf_writeBytes hinv.canonical _ _) hresult (length_sourceBytes s) hsrcLen
  exact ⟨u, hu, huerr, BitVec.eq_of_toNat_eq huout, huread⟩

end Sys2Proof.ModeCommands

/-! PROOFS of the family 46_padding.md: when unpadding fails and what it returns, what PAD and UNPAD write, and for which
data UNPAD undoes PAD (R360 to R373). -/

namespace Sys2Proof.PaddingCommands

open Sys2Proof Sys2Proof.Machine Sys2Proof.PaddingRoundTrip

/-! ### The filler check (R373) -/

/-- A stretch of the last `n` bytes is one byte repeated exactly when each of its bytes is that byte. -/
theorem take_lastBytes_eq_replicate_iff {d : Bytes} {n k : Nat} (b : Byte) (hk : k ≤ n) (hn : n ≤ d.length) :
    (lastBytes d n).take k = List.replicate k b ↔
      ∀ j, d.length ≤ j + n → j + n < d.length + k → d.getD j 0#8 = b := by
  have hbyte : ∀ i (h : i < ((lastBytes d n).take k).length),
      ((lastBytes d n).take k)[i] = d.getD (d.length - n + i) 0#8 := fun i h => by
    have hi : d.length - n + i < d.length := by simp [lastBytes] at h; omega
    rw [List.getD_eq_getElem _ _ hi]
    simp [lastBytes]
  have hlen : ((lastBytes d n).take k).length = k := by simp [lastBytes]; omega
  rw [List.eq_replicate_iff, List.forall_mem_iff_getElem]
  constructor
  · rintro ⟨-, hall⟩ j hlo hhi
    have hi : j + n - d.length < ((lastBytes d n).take k).length := by omega
    rw [← hall _ hi, hbyte _ hi, show d.length - n + (j + n - d.length) = j by omega]
  · exact fun hall => ⟨hlen, fun i hi => (hbyte i hi).trans (hall _ (by omega) (by omega))⟩

/-- What the filler check objects to: under ANSI X.923 a byte before the length byte that is not 0, under PKCS7 a byte of
the padding that is not the length byte (R373). -/
def WrongFiller (p : PadScheme) (d : Bytes) : Prop :=
  (p = .ansiX923 ∧ ∃ j, d.length ≤ j + padLengthByte d ∧ j + 1 < d.length ∧ d.getD j 0#8 ≠ 0#8) ∨
    (p = .pkcs7 ∧ ∃ j, d.length ≤ j + padLengthByte d ∧ j < d.length ∧ d.getD j 0#8 ≠ d.getLastD 0#8)

theorem fillerGood_iff {p : PadScheme} {d : Bytes} (hle : padLengthByte d ≤ d.length) :
    fillerGood p d (padLengthByte d) = true ↔ ¬ WrongFiller p d := by
  cases p with
  | zeros => simp [fillerGood, WrongFiller]
  | iso10126 => simp [fillerGood, WrongFiller]
  | ansiX923 =>
    rw [fillerGood, beq_iff_eq, zeroBytes, take_lastBytes_eq_replicate_iff _ (Nat.sub_le _ _) hle]
    simp only [WrongFiller, true_and, reduceCtorEq, false_and, or_false, not_exists, not_and, not_not]
    exact forall₂_congr fun j _ => imp_congr_left (by omega)
  | pkcs7 =>
    have hwhole : lastBytes d (padLengthByte d) = (lastBytes d (padLengthByte d)).take (padLengthByte d) := by
      simp [lastBytes]; omega
    have hlast : BitVec.ofNat 8 (padLengthByte d) = d.getLastD 0#8 := by simp [padLengthByte]
    rw [fillerGood, beq_iff_eq, hwhole, take_lastBytes_eq_replicate_iff _ le_rfl hle, hlast]
    simp only [WrongFiller, true_and, reduceCtorEq, false_and, false_or, not_exists, not_and, not_not]
    exact forall₂_congr fun j _ => imp_congr_left (by omega)

/-! ### When unpadding fails (R369, R373) -/

/-- What unpadding objects to in a buffer whose last byte counts its padding. -/
def BadPadding (p : PadScheme) (d : Bytes) (B : Nat) : Prop :=
  padLengthByte d = 0 ∨ d.length < padLengthByte d ∨ B < padLengthByte d ∨ WrongFiller p d

theorem unpadByLength_of_badPadding {p : PadScheme} {d : Bytes} {B : Nat} (h : BadPadding p d B) :
    unpadByLength d B p = .error .paddingValidation := by
  by_cases hbyte : padLengthByte d = 0 ∨ d.length < padLengthByte d ∨ B < padLengthByte d
  · rw [unpadByLength, if_pos hbyte]
  · obtain ⟨hpos, hle, hB⟩ : ¬ padLengthByte d = 0 ∧ ¬ d.length < padLengthByte d ∧ ¬ B < padLengthByte d := by
      simpa only [not_or] using hbyte
    have hwrong : WrongFiller p d := ((h.resolve_left hpos).resolve_left hle).resolve_left hB
    rw [unpadByLength, if_neg hbyte, if_neg fun hgood => (fillerGood_iff (Nat.not_lt.1 hle)).1 hgood hwrong]

theorem unpadByLength_of_not_badPadding {p : PadScheme} {d : Bytes} {B : Nat} (h : ¬ BadPadding p d B) :
    unpadByLength d B p = .ok (d.take (d.length - padLengthByte d)) := by
  simp only [BadPadding, not_or] at h
  obtain ⟨hpos, hle, hB, hfiller⟩ := h
  rw [unpadByLength, if_neg (by omega), if_pos ((fillerGood_iff (Nat.not_lt.1 hle)).2 hfiller)]

theorem unpadBytes_fails_iff {p : PadScheme} {d : Bytes} {B : Nat} :
    (∃ e, unpadBytes d B p = .error e) ↔ d ≠ [] ∧ p ≠ .zeros ∧ BadPadding p d B := by
  by_cases hd : d = []
  · subst hd
    simp [unpadBytes]
  by_cases hp : p = .zeros
  · simp [hp, unpadBytes_zeros]
  rw [unpadBytes_of_ne_zeros hd B hp]
  by_cases hbad : BadPadding p d B
  · exact ⟨fun _ => ⟨hd, hp, hbad⟩, fun _ => ⟨_, unpadByLength_of_badPadding hbad⟩⟩
  · simp [unpadByLength_of_not_badPadding hbad, hbad]

/-- Settles O22: past the two cases without a length byte, the checks of the unit are the ones listed. -/
theorem unpadFailsExactly : Obligations.UnpadFailsExactly := by
  intro d B p
  refine ⟨fun e he => Results.unpadBytes_error he, unpadBytes_fails_iff,
    fun out hout => ⟨unpadBytes_ok hout, fun hd => ?_⟩⟩
  have hlen := Results.length_unpadBytes_le hout
  rw [hd] at hlen
  exact List.eq_nil_of_length_eq_zero (Nat.le_zero.1 hlen)

/-! ### PAD (R370) -/

theorem exec_pad (p : PadScheme) (s : State) : exec (.pad p) s = complete s (sourcePadDraws p s) (padResult p s) := rfl

theorem sourcePadLen_eq_rule (p : PadScheme) (s : State) :
    sourcePadLen p s = padLengthRule (fullBlockPad s.par p) s.srcLen.toNat (blockSize s) :=
  padLen_eq_rule _ _ (Results.blockSize_pos s) p

/-- Settles O33: the result is the source and a tail that meets the scheme's rule; it fits `DST_CAP`, so that it is
committed whole. -/
theorem padWritesPaddedData : Obligations.PadWritesPaddedData := by
  intro p s n hsrc hdst hn
  replace hn : sourcePadLen p s = n := (sourcePadLen_eq_rule p s).trans hn.symm
  refine ⟨fun hwf hcap => ?_, fun hcap => ?_⟩
  · obtain ⟨tail, hpad, hrule⟩ := exists_padBytes_eq (full := fullBlockPad s.par) (d := sourceBytes s) (B := blockSize s)
      (p := p) (fill := freeBytes s (sourcePadDraws p s)) (by simp [sourcePadDraws])
    rw [length_sourceBytes] at hrule
    replace hrule : paddingRule p n tail := hn ▸ hrule
    obtain ⟨hlen, hzeros, hansi, hpkcs, hlast⟩ := hrule
    have hout : (sourceBytes s ++ tail).length = s.srcLen.toNat + n := by simp [hlen]
    have hresult : padResult p s = .ok (sourceBytes s ++ tail) :=
      padResult_ok.2 ⟨hsrc, hdst, hn.symm ▸ hcap, hpad.symm⟩
    refine ⟨_, tail, (exec_pad p s).trans (EngineCommands.complete_of_ok hresult), rfl, ?_, hlen, ?_, ?_, hzeros, hansi,
      hpkcs, hlast⟩
    · rw [Permute.toNat_outLen_commitBytes _ (hout.trans_le hcap), hout]
    · rw [← hn, sourcePadLen_eq_rule]
      exact add_padLengthRule_mod _ _ (Results.blockSize_pos s)
    · rw [← hout]
      exact Memory.readBytes_writeBytes hwf _ _
  · have hresult : padResult p s = .error .invalidArgument := by
      rw [padResult, if_neg (by simp [hsrc, hdst]), hn, if_pos hcap]
    exact (exec_pad p s).trans (EngineCommands.complete_of_error hresult)

/-! ### UNPAD (R371) -/

theorem exec_unpad (p : PadScheme) (s : State) : exec (.unpad p) s = complete s 0 (unpadResult p s) := rfl

theorem unpadResult_of_regions {s : State} (hsrc : sourceInRange s = true) (hdst : destInRange s = true) (p : PadScheme) :
    unpadResult p s =
      if s.dstCap.toNat < s.srcLen.toNat then .error .invalidArgument
      else unpadBytes (sourceBytes s) (blockSize s) p := by
  rw [unpadResult, if_neg (by simp [hsrc, hdst])]

/-- Settles O34: with enough capacity the outcome is that of the padding unit on the source, and what the unit returns is
no longer than the source. -/
theorem unpadWritesUnpaddedData : Obligations.UnpadWritesUnpaddedData := by
  intro p s hwf hsrc hdst
  have hresult := unpadResult_of_regions hsrc hdst p
  refine ⟨fun hcap => ⟨fun out hout => ?_, fun e he => ?_⟩, fun hcap => ?_⟩
  · have hfits : out.length ≤ s.dstCap.toNat :=
      (Results.length_unpadBytes_le hout).trans ((length_sourceBytes s).trans_le hcap)
    rw [if_neg (Nat.not_lt.2 hcap), hout] at hresult
    obtain ⟨t, ht, herr, houtLen, hread⟩ := EngineCommands.exists_complete_of_ok hwf hresult rfl hfits
    exact ⟨t, (exec_unpad p s).trans ht, herr, unpadBytes_ok hout, houtLen, hread⟩
  · rw [if_neg (Nat.not_lt.2 hcap), he, Results.unpadBytes_error he] at hresult
    exact (exec_unpad p s).trans (EngineCommands.complete_of_error hresult)
  · rw [if_pos hcap] at hresult
    exact (exec_unpad p s).trans (EngineCommands.complete_of_error hresult)

/-! ### Unpadding what was padded (R372) -/

/-- Only ISO 10126 reads the fill. -/
theorem padBytes_fill {p : PadScheme} (hp : p ≠ .iso10126) (full : PadScheme → Bool) (d : Bytes) (B : Nat) (fill : Bytes) :
    padBytes full d B p fill = padBytes full d B p [] := by
  cases p with
  | iso10126 => exact absurd rfl hp
  | _ => rfl

theorem padDraws_of_ne_iso10126 {p : PadScheme} (hp : p ≠ .iso10126) (full : PadScheme → Bool) (len B : Nat) :
    padDraws full len B p = 0 := by
  cases p with
  | iso10126 => exact absurd rfl hp
  | _ => rfl

theorem stripZeros_eq_self_iff {d : Bytes} : stripZeros d = d ↔ d = [] ∨ d.getLastD 0#8 ≠ 0#8 := by
  refine ⟨fun h => ?_, stripZeros_of_getLastD⟩
  have hlast := (stripZeros_spec d).2
  rwa [h] at hlast

/-- Under Zeros padding adds nothing that unpadding would not strip: what comes back is `d` without its own trailing
zeros. -/
theorem unpadBytes_padBytes_zeros_eq (full : PadScheme → Bool) (d : Bytes) (B : Nat) (fill : Bytes) :
    unpadBytes (padBytes full d B .zeros fill) B .zeros = .ok (stripZeros d) := by
  rw [padBytes_fill (by decide)]
  obtain ⟨tail, hpad, hrule⟩ := exists_padBytes_eq (full := full) (d := d) (fill := []) (B := B) (p := .zeros) rfl
  rw [hpad, unpadBytes_zeros, eq_zeroBytes_of_paddingRule hrule, stripZeros_append_zeroBytes]

section LengthByte

variable {full : PadScheme → Bool} {d fill : Bytes} {B : Nat} {p : PadScheme}

/-- The round trip for a fill that is the one drawn for ISO 10126, whatever the scheme. -/
theorem unpadBytes_padBytes_of_isoFill (hpos : 0 < B) (hB : B < 256) (hp : p ≠ .zeros)
    (hfill : fill.length = padDraws full d.length B .iso10126)
    (hd : d.length % B ≠ 0 ∨ d.length = 0 ∨ full p = true) : unpadBytes (padBytes full d B p fill) B p = .ok d := by
  by_cases hiso : p = .iso10126
  · subst hiso
    exact unpadBytes_padBytes hpos hB hp hfill hd
  · rw [padBytes_fill hiso]
    exact unpadBytes_padBytes hpos hB hp (padDraws_of_ne_iso10126 hiso full _ B).symm hd

/-- Whole blocks are not padded under a scheme outside `FULL_BLOCK_PAD` (R360). -/
theorem padBytes_eq_self (hpos : 0 < B) (hfull : full p = false) (hmod : d.length % B = 0) :
    padBytes full d B p fill = d := by
  rw [padBytes, if_pos]
  rw [padLen_eq_rule full _ hpos, padLengthRule, if_neg (not_not.2 hmod), hfull, if_neg Bool.false_ne_true]

/-- Under a scheme with a length byte unpadding takes at least one byte of a buffer that is not empty, or fails. -/
theorem unpadBytes_takes_bytes (hd : d ≠ []) (hp : p ≠ .zeros) :
    unpadBytes d B p = .error .paddingValidation ∨
      ∃ n, 1 ≤ n ∧ n ≤ B ∧ unpadBytes d B p = .ok (d.take (d.length - n)) := by
  rw [unpadBytes_of_ne_zeros hd B hp]
  by_cases hbad : BadPadding p d B
  · exact .inl (unpadByLength_of_badPadding hbad)
  · have hok := unpadByLength_of_not_badPadding hbad
    simp only [BadPadding, not_or] at hbad
    obtain ⟨hpos, -, hle, -⟩ := hbad
    exact .inr ⟨_, Nat.one_le_iff_ne_zero.2 hpos, Nat.not_lt.1 hle, hok⟩

theorem unpadBytes_ne_self (hd : d ≠ []) (hp : p ≠ .zeros) : unpadBytes d B p ≠ .ok d := by
  intro hself
  rcases unpadBytes_takes_bytes (B := B) hd hp with herr | ⟨n, hn, -, hok⟩
  · cases herr.symm.trans hself
  · have hlen := congrArg List.length (Except.ok.inj (hself.symm.trans hok))
    have hpos := List.length_pos_iff.2 hd
    rw [List.length_take] at hlen
    omega

end LengthByte

/-- Settles O54: a pad of at least one byte is taken off again. Where whole blocks get none, the buffer comes back only if
it is empty, as unpadding otherwise takes bytes of the data or fails. -/
theorem unpadInvertsPad : Obligations.UnpadInvertsPad := by
  intro par B d fill hpos hB hfill
  refine ⟨unpadBytes_padBytes_of_isoFill hpos hB (by decide) hfill (.inr (.inr rfl)), ?_, fun p hp => ?_⟩
  · rw [unpadBytes_padBytes_zeros_eq, Except.ok.injEq, stripZeros_eq_self_iff]
  · have hzeros : p ≠ .zeros := by rcases hp with rfl | rfl <;> decide
    refine ⟨fun hfull => ⟨⟨fun hback => ?_, fun hd => ?_⟩, fun hmod hlen => ?_⟩, fun hfull => ?_⟩
    · by_contra hwhole
      obtain ⟨hmod, hlen⟩ : d.length % B = 0 ∧ d.length ≠ 0 := by simpa only [not_or, not_not] using hwhole
      rw [padBytes_eq_self hpos hfull hmod] at hback
      exact unpadBytes_ne_self (List.ne_nil_of_length_pos (Nat.pos_of_ne_zero hlen)) hzeros hback
    · exact unpadBytes_padBytes_of_isoFill hpos hB hzeros hfill (hd.imp_right .inl)
    · exact ⟨padBytes_eq_self hpos hfull hmod, unpadBytes_takes_bytes (List.ne_nil_of_length_pos hlen) hzeros⟩
    · exact unpadBytes_padBytes_of_isoFill hpos hB hzeros hfill (.inr (.inr hfull))

end Sys2Proof.PaddingCommands

/-! PROOFS of the family 60_exceptions.md: what a failed command changes, and which command raises which error class
(60_exceptions.md R400 to R412). -/

namespace Sys2Proof.Exceptions

open Sys2Proof Sys2Proof.Machine

/-! ### A failed command (R410, R412) -/

/-- A command that reports an error has raised it: every commit sets `ERRCODE` to 0. -/
theorem exec_failed {i : Instr} {s t : State} {e : ErrClass} (h : exec i s = .next t) (herr : t.errcode = some e) :
    t = s.raise e := by
  rcases exec_cases h with ⟨e', rfl⟩ | ⟨out, n, -, rfl⟩ | ⟨keys, -, -, rfl⟩ | ⟨f, m, p, -, -, -, rfl⟩
  · obtain rfl : e' = e := Option.some.inj herr
    rfl
  all_goals cases herr

/-- Settles O15: the word is illegal and raises, or its command does; raising writes two registers, and issuing the word
`CMD` and `BUSY`. -/
theorem failedCommandChangesOnlyErrorState : Obligations.FailedCommandChangesOnlyErrorState := by
  intro w s t e h herr
  rcases issue_cases h with ⟨-, -, rfl⟩ | ⟨i, u, -, hu, rfl⟩
  · obtain rfl : .illegalCommand = e := Option.some.inj herr
    rfl
  · obtain rfl : u = (s.beginCommand w).raise e := exec_failed hu herr
    rfl

/-! ### The regions of a command (R406) -/

/-- A region the command uses lies partly or wholly outside DMEM. -/
def RegionOutside (i : Instr) (s : State) : Prop :=
  (usesSource i = true ∧ sourceInRange s = false) ∨ (usesTable i = true ∧ tableInDmem s = false) ∨
    (usesDest i = true ∧ destInRange s = false)

theorem inRange_eq_false {s : State} {a n : Nat} : inRange s a n = false ↔ s.par.dmemSize < a + n := by
  rw [← Bool.not_eq_true, HostAccess.inRange_iff, Nat.not_le]

/-- The model's range checks are those of R406 over unbounded integers. -/
theorem regionOutside_iff {i : Instr} {s : State} :
    RegionOutside i s ↔
      (usesSource i = true ∧ s.par.dmemSize < s.srcAddr.toNat + s.srcLen.toNat) ∨
      (usesTable i = true ∧ s.par.dmemSize < s.tblAddr.toNat + 2 * s.tblLen.toNat) ∨
      (usesDest i = true ∧ s.par.dmemSize < s.dstAddr.toNat + s.dstCap.toNat) := by
  simp only [RegionOutside, sourceInRange, tableInDmem, destInRange, inRange_eq_false]

/-- The regions of a command with a source, a destination and no table: the first check of seven commands. -/
theorem regionOutside_iff_of_no_table {i : Instr} {s : State} (hsrc : usesSource i = true) (htbl : usesTable i = false)
    (hdst : usesDest i = true) : RegionOutside i s ↔ sourceInRange s = false ∨ destInRange s = false := by
  simp [RegionOutside, hsrc, htbl, hdst]

theorem regionOutside_ksgen {k : Cipher} {s : State} : RegionOutside (.ksgen k) s ↔ destInRange s = false := by
  simp [RegionOutside, usesSource, usesTable, usesDest]

theorem regionOutside_permute {ord : BitOrder} {org : Origin} {tsrc : BitVec 3} {s : State} :
    RegionOutside (.permute ord org tsrc) s ↔
      sourceInRange s = false ∨ (tsrc = 0#3 ∧ tableInDmem s = false) ∨ destInRange s = false := by
  simp [RegionOutside, usesSource, usesTable, usesDest]

theorem permuteResult_of_outside {ord : BitOrder} {org : Origin} {tsrc : BitVec 3} {s : State} (htsrc : tsrc ≠ 7#3)
    (h : RegionOutside (.permute ord org tsrc) s) : permuteResult ord org tsrc s = .error .addressRange := by
  rw [permuteResult, if_neg htsrc]
  split_ifs with hsrc htbl hdst
  · rfl
  · rfl
  · rfl
  all_goals exact absurd (regionOutside_permute.1 h) (by simp [hsrc, htbl, hdst])

/-- The range checks are a command's first: no other check can hide a region outside DMEM (R406, R420). -/
theorem exec_of_regionOutside {i : Instr} {s : State} (hwf : WellFormed i = true) (h : RegionOutside i s) :
    exec i s = .next (s.raise .addressRange) := by
  have hcheck : usesSource i = true → usesTable i = false → usesDest i = true →
      sourceInRange s = false ∨ destInRange s = false :=
    fun hsrc htbl hdst => (regionOutside_iff_of_no_table hsrc htbl hdst).1 h
  cases i with
  | permute ord org tsrc =>
    have htsrc : tsrc ≠ 7#3 := by simpa [WellFormed] using hwf
    rw [Permute.exec_permute, execPermute, permuteResult_of_outside htsrc h]
  | ksgen k => exact EngineCommands.complete_of_error (if_pos (regionOutside_ksgen.1 h))
  | rfn f => exact EngineCommands.complete_of_error (if_pos (hcheck rfl rfl rfl))
  | keyinit => simp [RegionOutside, usesSource, usesTable, usesDest] at h
  | encb => exact EngineCommands.complete_of_error (if_pos (hcheck rfl rfl rfl))
  | decb => exact EngineCommands.complete_of_error (if_pos (hcheck rfl rfl rfl))
  | ctxset f p => simp [RegionOutside, usesSource, usesTable, usesDest] at h
  | menc => exact EngineCommands.complete_of_error (if_pos (hcheck rfl rfl rfl))
  | mdec => exact EngineCommands.complete_of_error (if_pos (hcheck rfl rfl rfl))
  | pad p => exact EngineCommands.complete_of_error (if_pos (hcheck rfl rfl rfl))
  | unpad p => exact EngineCommands.complete_of_error (if_pos (hcheck rfl rfl rfl))

/-! ### Where each error class comes from (R401 to R406) -/

/-- What must be so for a command to raise an error class. INVALID_ARGUMENT and NOT_INITIALIZED have many causes, and are
left open here. -/
def Cause (i : Instr) (s : State) : ErrClass → Prop
  | .invalidArgument => True
  | .notInitialized => True
  | .keyScheduleMismatch => i = .keyinit ∧ keyLengthRule s.cipher s.keyLen.toNat ∧
      ∃ keys, keySchedule s.par.rom s.cipher (keyOperand s) = .ok keys ∧ keys.length ≠ 16
  | .paddingValidation =>
      (i = .mdec ∧ streamMode s.ctxMode = false ∧ s.ctxPad ≠ .zeros) ∨ ∃ p, i = .unpad p ∧ p ≠ .zeros
  | .illegalCommand => WellFormed i = false
  | .addressRange => RegionOutside i s

theorem unpadBytes_error_scheme {d : Bytes} {B : Nat} {p : PadScheme} {e : ErrClass} (h : unpadBytes d B p = .error e) :
    e = .paddingValidation ∧ p ≠ .zeros :=
  ⟨Results.unpadBytes_error h, (PaddingCommands.unpadBytes_fails_iff.1 ⟨e, h⟩).2.1⟩

theorem roundFunction_error {rom : Rom} {f : RoundFn} {h k : Bytes} {e : ErrClass}
    (hr : roundFunction rom f h k = .error e) : e = .invalidArgument := by
  cases f with
  | base =>
    simp only [roundFunction, baseRoundChecked] at hr
    split at hr <;> cases hr
    rfl
  | adapter =>
    simp only [roundFunction, adapterChecked] at hr
    split at hr <;> cases hr
    rfl

theorem cause_permuteResult {ord : BitOrder} {org : Origin} {tsrc : BitVec 3} {s : State} {e : ErrClass}
    (h : permuteResult ord org tsrc s = .error e) : Cause (.permute ord org tsrc) s e := by
  simp only [permuteResult, bitPermute] at h
  split_ifs at h with htsrc hsrc htbl hdst <;> cases h
  · simp [Cause, WellFormed, htsrc]
  · exact regionOutside_permute.2 (.inl hsrc)
  · exact regionOutside_permute.2 (.inr (.inl htbl))
  · exact regionOutside_permute.2 (.inr (.inr hdst))
  all_goals trivial

theorem cause_ksgenResult {k : Cipher} {s : State} {e : ErrClass} (h : ksgenResult k s = .error e) :
    Cause (.ksgen k) s e := by
  unfold ksgenResult at h
  split at h
  · rename_i hdst
    cases h
    exact regionOutside_ksgen.2 hdst
  · split at h
    · cases h
      trivial
    · split at h
      · rename_i hkeys
        cases h
        rw [Results.keySchedule_error hkeys]
        trivial
      · split at h <;> cases h
        trivial

/-- `KEYINIT` fails on its key length or on the count of its round keys (R403; 42_feistel_engine.md R207, R210). -/
theorem cause_keyinitResult {s : State} {e : ErrClass} (h : keyinitResult s = .error e) : Cause .keyinit s e := by
  unfold keyinitResult at h
  split_ifs at h with hlen
  · cases h
    trivial
  · split at h
    · rename_i e' hkeys
      cases h
      rw [Results.keySchedule_error hkeys]
      trivial
    · rename_i keys hkeys
      split_ifs at h with hcount
      cases h
      exact ⟨rfl, keyLengthLegal_iff.1 (by simpa using hlen), keys, hkeys, hcount⟩

theorem keyinitResult_of_wrong_count {s : State} {keys : List Bytes} (hlen : keyLengthRule s.cipher s.keyLen.toNat)
    (hkeys : keySchedule s.par.rom s.cipher (keyOperand s) = .ok keys) (hcount : keys.length ≠ 16) :
    keyinitResult s = .error .keyScheduleMismatch := by
  simp [keyinitResult, keyLengthLegal_iff.2 hlen, hkeys, hcount]

/-- A command that checks its source and its destination fails there, or on what it does behind that check. -/
theorem cause_of_regions {i : Instr} {s : State} {e : ErrClass} {r : Except ErrClass Bytes}
    (hsrc : usesSource i = true) (htbl : usesTable i = false) (hdst : usesDest i = true)
    (hrest : r = .error e → Cause i s e)
    (h : (if sourceInRange s = false ∨ destInRange s = false then .error .addressRange else r) = .error e) :
    Cause i s e := by
  split_ifs at h with hregion
  · cases h
    exact (regionOutside_iff_of_no_table hsrc htbl hdst).2 hregion
  · exact hrest h

theorem cause_rfnResult {f : RoundFn} {s : State} {e : ErrClass} (h : rfnResult f s = .error e) :
    Cause (.rfn f) s e := by
  refine cause_of_regions rfl rfl rfl (fun hr => ?_) h
  split_ifs at hr
  · cases hr
    trivial
  · rw [roundFunction_error hr]
    trivial

theorem cause_blockResult {i : Instr} {F : Bytes → Bytes} {s : State} {e : ErrClass} (hsrc : usesSource i = true)
    (htbl : usesTable i = false) (hdst : usesDest i = true) (h : blockResult F s = .error e) : Cause i s e := by
  refine cause_of_regions hsrc htbl hdst (fun hr => ?_) h
  split_ifs at hr <;> cases hr <;> trivial

theorem cause_mencResult {s : State} {e : ErrClass} (h : mencResult s = .error e) : Cause .menc s e := by
  refine cause_of_regions rfl rfl rfl (fun hr => ?_) h
  split_ifs at hr <;> cases hr <;> trivial

/-- Behind its other checks `MDEC` can only fail in unpadding, which it does in a padded mode (R404; 45_modes.md R322). -/
theorem cause_mdecResult {s : State} {e : ErrClass} (h : mdecResult s = .error e) : Cause .mdec s e := by
  refine cause_of_regions rfl rfl rfl (fun hr => ?_) h
  split_ifs at hr with hctxv hwhole hcap hinit hmode
  case neg =>
    obtain ⟨rfl, hpad⟩ := unpadBytes_error_scheme hr
    exact .inl ⟨rfl, by simpa using hmode, hpad⟩
  all_goals
    cases hr
    trivial

theorem cause_padResult {p : PadScheme} {s : State} {e : ErrClass} (h : padResult p s = .error e) :
    Cause (.pad p) s e := by
  refine cause_of_regions rfl rfl rfl (fun hr => ?_) h
  split_ifs at hr
  cases hr
  trivial

theorem cause_unpadResult {p : PadScheme} {s : State} {e : ErrClass} (h : unpadResult p s = .error e) :
    Cause (.unpad p) s e := by
  refine cause_of_regions rfl rfl rfl (fun hr => ?_) h
  split_ifs at hr
  · cases hr
    trivial
  · obtain ⟨rfl, hpad⟩ := unpadBytes_error_scheme hr
    exact .inr ⟨p, rfl, hpad⟩

/-- The only `MODE` without a mode is the reserved value (30_encoding.md R124). -/
theorem eq_reserved_of_modeOfField {f : BitVec 3} (h : Mode.ofField f = none) : f = 7#3 := by
  have hvalues : ∀ v : BitVec 3, Mode.ofField v = none → v = 7#3 := by decide
  exact hvalues f h

theorem cause_execCtxset {f : BitVec 3} {p : PadScheme} {s t : State} {e : ErrClass} (h : execCtxset f p s = .next t)
    (herr : t.errcode = some e) : Cause (.ctxset f p) s e := by
  rcases execCtxset_cases h with ⟨hmode, rfl⟩ | ⟨m, -, ⟨-, rfl⟩ | ⟨-, rfl⟩⟩
  · cases herr
    simp [Cause, WellFormed, eq_reserved_of_modeOfField hmode]
  · cases herr
    trivial
  · cases herr

theorem eq_error_of_complete {s t : State} {n : Nat} {r : Except ErrClass Bytes} {e : ErrClass}
    (h : complete s n r = .next t) (herr : t.errcode = some e) : r = .error e := by
  rcases complete_cases h with ⟨out, -, rfl⟩ | ⟨e', hr, rfl⟩
  · cases herr
  · rwa [← Option.some.inj herr]

/-- Every error a command reports has its cause. -/
theorem cause_of_exec {i : Instr} {s t : State} {e : ErrClass} (h : exec i s = .next t) (herr : t.errcode = some e) :
    Cause i s e := by
  cases i with
  | permute ord org tsrc =>
    rcases execPermute_cases h with ⟨e', hr, rfl⟩ | ⟨out, -, ⟨-, rfl⟩ | ⟨-, rfl⟩⟩
    · cases herr
      exact cause_permuteResult hr
    · cases herr
    · cases herr
  | ksgen k => exact cause_ksgenResult (eq_error_of_complete h herr)
  | rfn f => exact cause_rfnResult (eq_error_of_complete h herr)
  | keyinit =>
    rcases execKeyinit_cases h with ⟨keys, -, rfl⟩ | ⟨e', hr, rfl⟩
    · cases herr
    · cases herr
      exact cause_keyinitResult hr
  | encb => exact cause_blockResult rfl rfl rfl (eq_error_of_complete h herr)
  | decb => exact cause_blockResult rfl rfl rfl (eq_error_of_complete h herr)
  | ctxset f p => exact cause_execCtxset h herr
  | menc => exact cause_mencResult (eq_error_of_complete h herr)
  | mdec => exact cause_mdecResult (eq_error_of_complete h herr)
  | pad p => exact cause_padResult (eq_error_of_complete h herr)
  | unpad p => exact cause_unpadResult (eq_error_of_complete h herr)

/-! ### The statements -/

/-- Settles O17: a region outside DMEM is the only cause of ADDRESS_RANGE, and the check of the regions comes first. -/
theorem addressRangeExactlyWhenARegionIsOutside : Obligations.AddressRangeExactlyWhenARegionIsOutside := by
  intro i s t hwf h
  rw [← regionOutside_iff]
  refine ⟨fun herr => cause_of_exec h herr, fun hregion => ?_⟩
  obtain rfl : s.raise .addressRange = t := Host.Outcome.next.inj ((exec_of_regionOutside hwf hregion).symm.trans h)
  rfl

/-- Settles O20: a wrong count is the only cause of KEY_SCHEDULE_MISMATCH, and with a structurally valid ROM every key
schedule has sixteen keys. -/
theorem keyScheduleMismatchUnreachable : Obligations.KeyScheduleMismatchUnreachable := by
  refine ⟨fun i s t h => ⟨fun herr => cause_of_exec h herr, ?_⟩, fun i s t hrom h herr => ?_⟩
  · rintro ⟨rfl, hlen, keys, hkeys, hcount⟩
    have hraise := EngineCommands.exec_keyinit_of_error (keyinitResult_of_wrong_count hlen hkeys hcount)
    obtain rfl : s.raise .keyScheduleMismatch = t := Host.Outcome.next.inj (hraise.symm.trans h)
    rfl
  · obtain ⟨-, -, keys, hkeys, hcount⟩ : Cause i s .keyScheduleMismatch := cause_of_exec h herr
    exact hcount (Results.keySchedule_ok hrom hkeys).1

/-- Settles O21: unpadding is the only cause of PADDING_VALIDATION, and it does not fail under Zeros. -/
theorem paddingValidationSources : Obligations.PaddingValidationSources :=
  fun _ _ _ h herr => cause_of_exec h herr

end Sys2Proof.Exceptions

/-! PROOFS of the family 70_reset_and_hazards.md: the idle engine, a `PERMUTE` over its own operands, and results that do not
depend on where they are written (20_memory.md R94; 70_reset_and_hazards.md R451, R460, R461). -/

namespace Sys2Proof.Hazards

open Sys2Proof Sys2Proof.Machine

/-! ### The idle engine (R451) -/

/-- Settles O6: a step serves the queue, and there is nothing in it. -/
theorem idleEngineHoldsState : Obligations.IdleEngineHoldsState :=
  fun _ => HostPort.step_of_idle

/-! ### PERMUTE over its own operands (R460) -/

/-- Under the hazard the command commits as many free bytes as its result has, in place of the result. -/
theorem execPermute_of_overlap {ord : BitOrder} {org : Origin} {tsrc : BitVec 3} {s : State} {out : Bytes}
    (hr : permuteResult ord org tsrc s = .ok out)
    (hz : permuteOverlap tsrc s (tableOperand s tsrc).length) :
    execPermute ord org tsrc s = .next (s.commitBytes (freeBytes s out.length) out.length) := by
  have hhazard : permuteHazard tsrc s out.length = true := by
    rwa [length_permuteResult hr, permuteHazard_iff]
  simp [execPermute, hr, hhazard]

/-- Settles O25: every check of R160 passes, so that free bytes are committed; a commit touches only its own bytes, and
there are `ceil(t/8)` of them whatever their values. -/
theorem permuteOverlapChangesOnlyDestination : Obligations.PermuteOverlapChangesOnlyDestination := by
  intro ord org tsrc s htsrc hwf hsrc htbl hdst hfits hcap hz
  have hr := (permuteResult_ok (ord := ord)).2 ⟨htsrc, hsrc, htbl, hdst, hcap, hfits, rfl⟩
  have hrun := (Permute.exec_permute ord org tsrc s).trans (execPermute_of_overlap hr hz)
  rw [length_permuteBits] at hrun
  have hlen := length_freeBytes s (((tableOperand s tsrc).length + 7) / 8)
  refine ⟨_, hrun, rfl, ?_, rfl, fun a ha => ?_⟩
  · rw [Permute.toNat_outLen_commitBytes _ (hlen.trans_le hcap), hlen]
  · exact Memory.read_writeBytes_outside hwf (by rwa [hlen])

/-! ### The destination moved (R94, R461) -/

/-- The state with the destination at `b`. -/
def moveDest (s : State) (b : Word) : State := { s with dstAddr := b }

theorem destInRange_moveDest {s : State} {b : Word} (hb : b.toNat + s.dstCap.toNat ≤ s.par.dmemSize) :
    destInRange (moveDest s b) = true :=
  HostAccess.inRange_iff.2 hb

/-- `t` is `s` with a result committed, and the run `o` with the destination at `b` commits the same bytes. -/
def SameCommit (s t : State) (b : Word) (o : Host.Outcome State Fault Refusal) : Prop :=
  ∃ out n, out.length ≤ s.dstCap.toNat ∧ t = s.commitBytes out n ∧ o = .next ((moveDest s b).commitBytes out n)

/-- The same bytes committed in both runs are read back in both. -/
theorem SameCommit.reads {s t : State} {b : Word} {o : Host.Outcome State Fault Refusal} (hwf : s.dmem.wf)
    (h : SameCommit s t b o) :
    ∃ u, o = .next u ∧ u.errcode = none ∧ u.outLen = t.outLen ∧
      u.dmem.readBytes b.toNat t.outLen.toNat = t.dmem.readBytes s.dstAddr.toNat t.outLen.toNat := by
  obtain ⟨out, n, hlen, rfl, rfl⟩ := h
  have hmoved := Permute.readBytes_commitBytes (s := moveDest s b) hwf n hlen
  exact ⟨_, rfl, rfl, rfl, hmoved.trans (Permute.readBytes_commitBytes hwf n hlen).symm⟩

/-- A command commits the same bytes in both runs when its result is the same. -/
theorem sameCommit_complete {s t : State} {b : Word} {n : Nat} {r r' : Except ErrClass Bytes} (hf : Results.Fits s r)
    (hr : ∀ {out}, r = .ok out → r' = .ok out) (h : complete s n r = .next t) (herr : t.errcode = none) :
    SameCommit s t b (complete (moveDest s b) n r') := by
  rcases complete_cases h with ⟨out, hout, rfl⟩ | ⟨e, -, rfl⟩
  · exact ⟨out, n, (hf.ok hout).2, rfl, by rw [hr hout, complete_ok]⟩
  · cases herr

section MovedDestination

/-! The checks of a command read `DST_ADDR` only to see that the destination lies in DMEM, and its output does not read
it at all. -/

variable {s : State} {b : Word} {out : Bytes} (hb : destInRange (moveDest s b) = true)
include hb

theorem ksgenResult_moveDest {k : Cipher} (h : ksgenResult k s = .ok out) : ksgenResult k (moveDest s b) = .ok out := by
  obtain ⟨-, hkey⟩ := ksgenResult_ok.1 h
  exact ksgenResult_ok.2 ⟨hb, hkey⟩

theorem rfnResult_moveDest {f : RoundFn} (h : rfnResult f s = .ok out) : rfnResult f (moveDest s b) = .ok out := by
  obtain ⟨hsrc, -, hsizes⟩ := rfnResult_ok.1 h
  exact rfnResult_ok.2 ⟨hsrc, hb, hsizes⟩

theorem blockResult_moveDest {F : Bytes → Bytes} (h : blockResult F s = .ok out) :
    blockResult F (moveDest s b) = .ok out := by
  obtain ⟨hsrc, -, hblock⟩ := blockResult_ok.1 h
  exact blockResult_ok.2 ⟨hsrc, hb, hblock⟩

theorem mencResult_moveDest (h : mencResult s = .ok out) : mencResult (moveDest s b) = .ok out := by
  obtain ⟨hsrc, -, hmode⟩ := mencResult_ok.1 h
  exact mencResult_ok.2 ⟨hsrc, hb, hmode⟩

theorem mdecResult_moveDest (h : mdecResult s = .ok out) : mdecResult (moveDest s b) = .ok out := by
  obtain ⟨hsrc, -, hmode⟩ := mdecResult_ok.1 h
  exact mdecResult_ok.2 ⟨hsrc, hb, hmode⟩

theorem padResult_moveDest {p : PadScheme} (h : padResult p s = .ok out) : padResult p (moveDest s b) = .ok out := by
  obtain ⟨hsrc, -, hpad⟩ := padResult_ok.1 h
  exact padResult_ok.2 ⟨hsrc, hb, hpad⟩

theorem unpadResult_moveDest {p : PadScheme} (h : unpadResult p s = .ok out) : unpadResult p (moveDest s b) = .ok out := by
  obtain ⟨hsrc, -, hunpad⟩ := unpadResult_ok.1 h
  exact unpadResult_ok.2 ⟨hsrc, hb, hunpad⟩

end MovedDestination

/-- A successful command other than `PERMUTE` commits the same bytes wherever its destination lies. -/
theorem sameCommit_exec {i : Instr} {s t : State} {b : Word} (hrom : romValid s.par.rom = true)
    (hi : usesDest i = true) (hp : ∀ ord org tsrc, i ≠ .permute ord org tsrc)
    (hb : destInRange (moveDest s b) = true) (h : exec i s = .next t) (herr : t.errcode = none) :
    SameCommit s t b (exec i (moveDest s b)) := by
  cases i with
  | permute ord org tsrc => exact absurd rfl (hp ord org tsrc)
  | keyinit => cases hi
  | ctxset f p => cases hi
  | ksgen k => exact sameCommit_complete (Results.fits_ksgenResult hrom k) (ksgenResult_moveDest hb) h herr
  | rfn f => exact sameCommit_complete (Results.fits_rfnResult hrom f) (rfnResult_moveDest hb) h herr
  | encb =>
    have hblock := Results.cipherEncrypt_withinBlock hrom s.cipher s.rk
    exact sameCommit_complete (Results.fits_blockResult hblock) (blockResult_moveDest hb) h herr
  | decb =>
    have hblock := Results.cipherDecrypt_withinBlock hrom s.cipher s.rk
    exact sameCommit_complete (Results.fits_blockResult hblock) (blockResult_moveDest hb) h herr
  | menc => exact sameCommit_complete (Results.fits_mencResult hrom) (mencResult_moveDest hb) h herr
  | mdec => exact sameCommit_complete (Results.fits_mdecResult hrom) (mdecResult_moveDest hb) h herr
  | pad p => exact sameCommit_complete (Results.fits_padResult p s) (padResult_moveDest hb) h herr
  | unpad p => exact sameCommit_complete (Results.fits_unpadResult p s) (unpadResult_moveDest hb) h herr

/-- Settles O37: both runs commit the same bytes, each at its own destination, after all of the source was read. -/
theorem overlapDoesNotChangeResult : Obligations.OverlapDoesNotChangeResult := by
  intro i s t b hinv hi hp h herr hb
  obtain ⟨-, -, hrom⟩ := paramsValid_iff.1 hinv.params
  exact (sameCommit_exec hrom hi hp (destInRange_moveDest hb) h herr).reads hinv.canonical

end Sys2Proof.Hazards
